-- ==== Sys2Proof/Word.lean ====
section
/-! DEFINITION. The widths of the LLSE's values (R8, R40). Every quantity is unsigned (R11). -/

namespace Sys2Proof

/-- A host-visible register, an operand, a bus word (R8, R40). -/
abbrev Word := BitVec 32

/-- An analog sample, THRESH, SPB, RESULT's data (R8). -/
abbrev Half := BitVec 16

/-- A byte of a buffer, of a frame, of the sink (R12, R34). -/
abbrev Byte := BitVec 8

/-- A byte offset inside the 4 KiB host window, 0x000..0xFFF (R39, R40). -/
abbrev Offset := BitVec 12

end Sys2Proof
end

