-- ==== Sys2Proof/Config.lean ====
section
/-! DEFINITION. What an implementation fixes (R6, R57) and the free values the spec leaves to the environment
(R14, R34, R62, R64). Every constant here is opaque: no proof can see its value. -/

namespace Sys2Proof

/-- The instance parameters of R6 and R57, "fixed for the life of the instance". -/
structure Params where
  /-- TX_PIN, an opaque identifier, or none: "−1 / absent" (R6, D28) -/
  txPin : Option Nat
  /-- RX_PIN, or none (R6, D28) -/
  rxPin : Option Nat
  /-- THRESH_RESET (R6, R28) -/
  threshReset : Half
  /-- LOOP_TIMEOUT_BIAS_MS (R6, R111) -/
  loopBias : Nat
  /-- LLSE_BASE, "which no rule reads" (R57) -/
  base : Nat
deriving DecidableEq, Repr

/-- TX_PRESENT: a transmit pin is assigned (R6). -/
def Params.txPresent (p : Params) : Bool := p.txPin.isSome

/-- RX_PRESENT: a receive pin is assigned (R6). -/
def Params.rxPresent (p : Params) : Bool := p.rxPin.isSome

/-- The range R6 gives LOOP_TIMEOUT_BIAS_MS. -/
def Params.wf (p : Params) : Bool := 1 ≤ p.loopBias && p.loopBias ≤ 2 ^ 31

/-- TX_PIN of this instance (R6; log 15). -/
opaque Config.txPin : Option Nat

/-- RX_PIN of this instance (R6; log 15). -/
opaque Config.rxPin : Option Nat

/-- THRESH_RESET of this instance (R6, D24; log 15). -/
opaque Config.threshReset : Half

/-- LOOP_TIMEOUT_BIAS_MS less one, so that the parameter lies in 1..2^31 (R6, D21; log 15). -/
opaque Config.loopBiasLessOne : Fin 2147483648

/-- LLSE_BASE (R57; log 15). -/
opaque Config.base : Nat

/-- The parameters of this instance. -/
def Config.params : Params where
  txPin := Config.txPin
  rxPin := Config.rxPin
  threshReset := Config.threshReset
  loopBias := Config.loopBiasLessOne.val + 1
  base := Config.base

/-- FREE VALUE: the `n`-th analog reading that the environment has not fixed beforehand (R14; log 10). -/
opaque Config.freeSample : Nat → Half

/-- FREE VALUE: by how many milliseconds the clock M has advanced at the `n`-th reading not fixed beforehand
(R62; log 11). -/
opaque Config.freeClockStep : Nat → Nat

/-- FREE VALUE: the clock M when the machine starts (R125; log 11). -/
opaque Config.clockStart : Nat

/-- FREE VALUE: whether the sink accepts at the `n`-th offer not fixed beforehand (R64; log 12). -/
opaque Config.freeSinkAccepts : Nat → Bool

/-- FREE VALUE: the buffer byte at window offset `a` after the `n`-th reset, until it is written
(R34, R38; log 13). -/
opaque Config.freeByte : Nat → Nat → Byte

end Sys2Proof
end

