-- ==== Sys2Proof/Machine/Constants.lean ====
section
/-! DEFINITION. The named constants of R7 and the fixed depths of R6, each by its name so that a corrected
literal changes one place (log 22). -/

namespace Sys2Proof.Machine

/-- BITDUR_RESET, µs (R7, R27). -/
def bitdurReset : Nat := 1000

/-- SPACING_FLOOR, µs (R7). -/
def spacingFloor : Nat := 5

/-- POLL_FLOOR, µs (R7). -/
def pollFloor : Nat := 50

/-- POLL_DIVISOR (R7). -/
def pollDivisor : Nat := 4

/-- CAL_NARROW (R7). -/
def calNarrow : Nat := 10

/-- START_RUN_TIMED (R7, R102). -/
def startRunTimed : Nat := 3

/-- START_RUN_POLL (R7, R102). -/
def startRunPoll : Nat := 1

/-- DATA_BITS (R7). -/
def dataBits : Nat := 8

/-- LINE_FEED (R7, 93 G1). -/
def lineFeed : Byte := 0x0A

/-- The reset value of SPB (R29, R38). -/
def spbReset : Nat := 1

/-- TXBUF_DEPTH and MSGBUF_DEPTH (R6). -/
def bufDepth : Nat := 256

/-- The window offset of TXBUF (R41). -/
def txBase : Nat := 0x100

/-- The window offset of MSGBUF (R41). -/
def msgBase : Nat := 0x200

/-- SPACING as R83 computes it. -/
def spacingOf (bitdur : Word) (spb : Half) : Word :=
  BitVec.ofNat 32 (max spacingFloor (bitdur.toNat / (spb.toNat + 1)))

/-- POLLDLY as R83 computes it. -/
def pollDelayOf (bitdur : Word) : Word :=
  BitVec.ofNat 32 (max pollFloor (bitdur.toNat / pollDivisor))

end Sys2Proof.Machine
end

