-- ==== Sys2Proof/Syntax.lean ====
section
/-! DEFINITION. What the host can write down: the eleven commands (R74), the bus accesses (R40), the
turns of the total order of atomic steps (R66), and the assembler of R80 and R81. -/

namespace Sys2Proof

/-- The eleven engine commands, one constructor per row of spec/opcode_table.json (R74). A command word
holds no operand: the operands stand in ARG0 and ARG1 (R72, R75). -/
inductive Instr where
  | setbd
  | setspb
  | setthr
  | sendbit
  | send
  | sample
  | calib
  | waitstart
  | rxbyte
  | rxmsg
  | rxloop
deriving DecidableEq, Repr

/-- The operand forms of R73: how many of ARG0 and ARG1 the command uses. -/
inductive Form where
  | f0
  | f1
  | f2
deriving DecidableEq, Repr

/-- The form column of R74. -/
def Instr.form : Instr → Form
  | .setbd => .f1
  | .setspb => .f1
  | .setthr => .f1
  | .sendbit => .f1
  | .send => .f1
  | .sample => .f0
  | .calib => .f2
  | .waitstart => .f1
  | .rxbyte => .f1
  | .rxmsg => .f2
  | .rxloop => .f0

/-- A host bus access (R40): a 32-bit read, or a 32-bit write of `v`, at a byte offset of the window. -/
inductive Access where
  | read (off : Offset)
  | write (off : Offset) (v : Word)
deriving DecidableEq, Repr

/-- Who makes the next atomic step (R66, log 1): the host an access; the host one round of POLL (R80, log 23);
the engine; or the platform a reset (R130). -/
inductive Turn where
  | access (a : Access)
  | poll
  | engine
  | reset
deriving DecidableEq, Repr

/-- A line of a host program: the basic forms of R80 and the pseudo-instructions of R81. -/
inductive Asm where
  | write (off : Offset) (v : Word)
  | read (off : Offset)
  | poll
  | command (i : Instr) (a0 a1 : Word)
  | stop
  | clrErr
  | txload (bytes : List Byte)
  | sendStr (bytes : List Byte)
deriving DecidableEq, Repr

end Sys2Proof
end

