-- ==== Sys2Proof/Machine/State.lean ====
section
/-! DEFINITION. The machine's state as plain data: the registers, buffers, line and hidden variables of
spec/10_state.md, the environment's part of the total order, and State.reset. -/

namespace Sys2Proof.Machine

/-- STATUS.ERR (R23, R115): the seven reasons a command reports. Codes 5–7 and 10–15 have no constructor:
they are "never produced". -/
inductive Err where
  | noError
  | noRxPin
  | noStart
  | desync
  | empty
  | illegalCmd
  | illegalOperand
deriving DecidableEq, Repr

/-- STATUS.HCAUSE (R23, R117). -/
inductive HCause where
  | clear
  | busyWrite
  | badAddress
  | roWrite
deriving DecidableEq, Repr

/-- MSGLEN.END (R26): value 3 is never produced. -/
inductive Ending where
  | maxChars
  | lineFeed
  | rxFail
deriving DecidableEq, Repr

/-- STATUS by its fields (R23); the 32-bit view is `Status.word` (Flags.lean). -/
structure Status where
  busy : Bool
  ok : Bool
  err : Err
  hostErr : Bool
  hcause : HCause
deriving DecidableEq, Repr

/-- MSGLEN by its fields (R26). -/
structure MsgLen where
  len : BitVec 9
  ending : Ending
deriving DecidableEq, Repr

/-- What `complete(ok, err)` writes, with the RESULT or MSGLEN update of the same atomic step (R16). -/
structure Completion where
  ok : Bool
  err : Err
  result : Option Half
  msglen : Option MsgLen
deriving DecidableEq, Repr

/-- e.phase (R37). -/
inductive Phase where
  | idle
  | config
  | tx
  | sample
  | cal
  | startSearch
  | startDetected
  | data (i : Fin 8)
  | stopCheck
  | decoded
  | desync
  | loopBackoff
  | loopEmit
deriving DecidableEq, Repr

/-- Inside SampleAnalogP (R94): the next event is a `Sample`, or the `Wait(SPACING)` between two. -/
inductive SampleAt where
  | read
  | space
deriving DecidableEq, Repr

/-- Inside WaitForStartBitP (R101): the entry clock read, a sample, the clock read of an iteration, the poll
wait, the half-bit alignment wait. -/
inductive SearchAt where
  | mark
  | sampling (p : SampleAt)
  | clock
  | pollWait
  | alignWait
deriving DecidableEq, Repr

/-- Inside ReceiveByteP (R106): the search, the wait to the first data bit, a data sample, the wait after it,
the stop sample, the settling wait of a desync, the closing half-bit wait. -/
inductive ByteAt where
  | search (p : SearchAt)
  | firstWait
  | data (p : SampleAt)
  | dataWait
  | stop (p : SampleAt)
  | settleWait
  | closeWait
deriving DecidableEq, Repr

/-- Inside SENDBIT (R90): the Drive, or the Wait, of SendBitP. -/
inductive BitAt where
  | drive
  | wait
deriving DecidableEq, Repr

/-- Inside SEND (R91). -/
inductive SendAt where
  | startDrive
  | startWait
  | dataDrive
  | dataWait
  | stopDrive
  | stopWait
  | gapWait
  | idleDrive
  | idleWait
deriving DecidableEq, Repr

/-- Inside CALIB (R98): a calibration sample, or the wait between two. -/
inductive CalAt where
  | sampling (p : SampleAt)
  | gapWait
deriving DecidableEq, Repr

/-- Inside RXLOOP (R112): the iteration check, a receive attempt, the Emit, the backoff wait. -/
inductive LoopAt where
  | check
  | byte (p : ByteAt)
  | emit
  | backoff
deriving DecidableEq, Repr

/-- Where the engine stands in its command's pseudocode: the event, or the `complete`, that its next atomic
step performs (R66; log 3). It refines e.phase, which R37 gives. -/
inductive Point where
  | idle
  | finish (c : Completion)
  | sendbit (p : BitAt)
  | send (p : SendAt)
  | sample (p : SampleAt)
  | calib (p : CalAt)
  | waitstart (p : SearchAt)
  | rxbyte (p : ByteAt)
  | rxmsg (p : ByteAt)
  | rxloop (p : LoopAt)
deriving DecidableEq, Repr

/-- The hidden engine variables of R36, and the model's `point`. Indices and sums are exact naturals, as R13
computes them (log 18); that they keep to the widths of R36 is part of State.Inv (Safety.lean). -/
structure Engine where
  phase : Phase
  point : Point
  op : Byte
  a0 : Word
  a1 : Word
  stopReq : Bool
  run : Nat
  need : Nat
  t0 : Word
  acc : Byte
  i : Nat
  j : Nat
  k : Nat
  calK : Nat
  n : Nat
  sum : Nat
  mn : Half
  mx : Half
  c : Byte
deriving DecidableEq, Repr

/-- A capability event with its argument and, for `sample` and `now`, the value returned (R10, R12).
A level is `true` for logic-high (R59). -/
inductive Event where
  | drive (level : Bool)
  | wait (us : Nat)
  | sample (v : Half)
  | now (ms : Word)
  | emit (b : Byte)
deriving DecidableEq, Repr

/-- The environment: its unwrapped millisecond clock M (R62), and the answers it has fixed beforehand, oldest
first. An answer beyond a list's end is a free value of Config applied to `draws` (log 10 to 12). -/
structure Env where
  clock : Nat
  samples : List Half
  clockSteps : List Nat
  sink : List Bool
  draws : Nat
deriving DecidableEq, Repr

/-- The written bytes of the two buffers by window offset, offsets strictly rising; an unlisted byte is
unspecified, a free value of Config (R34; log 13). -/
abbrev Memory := List Host.Cell

/-- The whole machine: registers (R20 to R33), buffers (R34), line (R35), hidden variables (R36), and the
environment's part of the total order (log 1, log 4). -/
structure State where
  cmd : Word
  arg0 : Word
  arg1 : Word
  status : Status
  result : Half
  msglen : MsgLen
  bitdur : Word
  thresh : Half
  spb : Half
  spacing : Word
  polldly : Word
  params : Params
  mem : Memory
  epoch : Nat
  txLevel : Bool
  eng : Engine
  env : Env
  agenda : List Turn
  events : List Event
  reads : List (Offset × Word)
deriving DecidableEq, Repr

/-- Why the machine stops. -/
inductive Fault where
  /-- Raised by Machine/Step.lean's step when the engine is to move, STATUS.BUSY is 1 and e.op is no opcode of
  R74. R50 latches only legal opcodes, so no reachable state raises it. Safe: the model stops (log 20). -/
  | strayOpcode
deriving DecidableEq, Repr

/-- Why an instruction has no meaning. -/
inductive Refusal where
  /-- Raised by an arm of Machine/Dispatch.lean whose instruction has no meaning yet; no arm raises it now.
  Safe: the model stops. -/
  | notModelled (mnemonic : String)
deriving DecidableEq, Repr

/-- The hidden variables after reset: phase IDLE, no stop request (R38); the others unspecified there and 0 here
(DESIGN CHOICE, log 14). -/
def Engine.reset : Engine where
  phase := .idle
  point := .idle
  op := 0
  a0 := 0
  a1 := 0
  stopReq := false
  run := 0
  need := 0
  t0 := 0
  acc := 0
  i := 0
  j := 0
  k := 0
  calK := 0
  n := 0
  sum := 0
  mn := 0
  mx := 0
  c := 0

/-- The environment before it has answered anything (log 10, log 11). -/
def Env.start : Env where
  clock := Config.clockStart
  samples := []
  clockSteps := []
  sink := []
  draws := 0

/-- The state that reset leaves for an instance with parameters `p` (R38, R130), with no turn to come and
nothing observed yet. -/
def State.resetOf (p : Params) : State where
  cmd := 0
  arg0 := 0
  arg1 := 0
  status := { busy := false, ok := false, err := .noError, hostErr := false, hcause := .clear }
  result := 0
  msglen := { len := 0, ending := .maxChars }
  bitdur := BitVec.ofNat 32 bitdurReset
  thresh := p.threshReset
  spb := BitVec.ofNat 16 spbReset
  spacing := spacingOf (BitVec.ofNat 32 bitdurReset) (BitVec.ofNat 16 spbReset)
  polldly := pollDelayOf (BitVec.ofNat 32 bitdurReset)
  params := p
  mem := []
  epoch := 0
  txLevel := true
  eng := Engine.reset
  env := Env.start
  agenda := []
  events := []
  reads := []

/-- The machine right after reset (R38): the instance of Config.params, its host silent. -/
def State.reset : State := State.resetOf Config.params

end Sys2Proof.Machine
end

