-- ==== Sys2Proof/Machine/Flags.lean ====
section
/-! DEFINITION. Status codes and the 32-bit views of STATUS, MSGLEN and CAPS (R23, R26, R33, R115, R117). -/

namespace Sys2Proof.Machine

/-- A single bit as a word. -/
def bitWord (b : Bool) : Word := if b then 1 else 0

/-- The ERR codes of R115. -/
def Err.code : Err → BitVec 4
  | .noError => 0
  | .noRxPin => 1
  | .noStart => 2
  | .desync => 3
  | .empty => 4
  | .illegalCmd => 8
  | .illegalOperand => 9

/-- The HCAUSE codes of R117. -/
def HCause.code : HCause → BitVec 2
  | .clear => 0
  | .busyWrite => 1
  | .badAddress => 2
  | .roWrite => 3

/-- The END values of R26. -/
def Ending.code : Ending → BitVec 2
  | .maxChars => 0
  | .lineFeed => 1
  | .rxFail => 2

/-- STATUS as the bus reads it (R23). -/
def Status.word (st : Status) : Word :=
  bitWord st.busy ||| bitWord st.ok <<< 1 ||| st.err.code.setWidth 32 <<< 4 |||
    bitWord st.hostErr <<< 8 ||| st.hcause.code.setWidth 32 <<< 9

/-- MSGLEN as the bus reads it (R26). -/
def MsgLen.word (m : MsgLen) : Word :=
  m.len.setWidth 32 ||| m.ending.code.setWidth 32 <<< 16

/-- CAPS as the bus reads it (R33). -/
def capsWord (p : Params) : Word := bitWord p.txPresent ||| bitWord p.rxPresent <<< 1

/-- STATUS at issue: "BUSY <- 1; OK <- 0; ERR <- 0" (R50). -/
def Status.issued (st : Status) : Status := { st with busy := true, ok := false, err := .noError }

/-- STATUS of a rejected CMD word: "OK <- 0; ERR <- e", "BUSY stays 0" (R50). -/
def Status.rejected (e : Err) (st : Status) : Status := { st with ok := false, err := e }

/-- STATUS at completion (R16). -/
def Status.completed (ok : Bool) (e : Err) (st : Status) : Status :=
  { st with busy := false, ok := ok, err := e }

/-- STATUS after a refused access with cause `c`: the first cause since the last clear is kept (R46). -/
def Status.refused (c : HCause) (st : Status) : Status :=
  if st.hostErr then st else { st with hostErr := true, hcause := c }

/-- STATUS after CTRL.CLRERR (R22). -/
def Status.cleared (st : Status) : Status := { st with hostErr := false, hcause := .clear }

/-- A completion that reports success and updates nothing else. -/
def Completion.success : Completion := { ok := true, err := .noError, result := none, msglen := none }

/-- A completion that reports failure `e` and updates nothing else. -/
def Completion.failure (e : Err) : Completion := { ok := false, err := e, result := none, msglen := none }

/-- A completion that reports success and writes RESULT (R97, R107). -/
def Completion.withResult (v : Half) : Completion :=
  { ok := true, err := .noError, result := some v, msglen := none }

end Sys2Proof.Machine
end

