-- ==== Sys2Proof/WellFormed.lean ====
section
/-! DEFINITION. Which terms of the syntax are legal: operands (R77), access offsets (R41), program lines. -/

namespace Sys2Proof

/-- LegalOperands of R77: only SEND and RXMSG bound an operand, by the buffers' depth 256 (R34). -/
def legalOperands (i : Instr) (a0 _a1 : Word) : Bool :=
  match i with
  | .setbd => true
  | .setspb => true
  | .setthr => true
  | .sendbit => true
  | .send => a0.toNat ≤ 256
  | .sample => true
  | .calib => true
  | .waitstart => true
  | .rxbyte => true
  | .rxmsg => a0.toNat ≤ 256
  | .rxloop => true

/-- The alignment rule of R54. -/
def aligned (off : Offset) : Bool := off.toNat % 4 = 0

/-- An access that R54 does not refuse for its alignment. -/
def Access.wf : Access → Bool
  | .read off => aligned off
  | .write off _ => aligned off

/-- A program line that spells no refused operand: legal operands, aligned accesses, and a string that fits
TXBUF (R34, R81). -/
def Asm.wf : Asm → Bool
  | .write off _ => aligned off
  | .read off => aligned off
  | .poll => true
  | .command i a0 a1 => legalOperands i a0 a1
  | .stop => true
  | .clrErr => true
  | .txload bytes => bytes.length ≤ 256
  | .sendStr bytes => bytes.length ≤ 256

end Sys2Proof
end

