-- ==== Sys2Proof/Decode.lean ====
section
/-! DEFINITION. Command words: the decoder, total on every word and every byte list and refusing by name
(R72, R74, R76), and the encoder written from the same opcode map. -/

namespace Sys2Proof

/-- Why a command word, or a byte list, is no command. -/
inductive DecodeError where
  /-- bits 31:8 are not 0 (R76) -/
  | reservedField
  /-- the opcode is 0x00 or 0x0C..0xFF (R76) -/
  | reservedOpcode
  /-- fewer than the four bytes of one command word (R72) -/
  | truncated
deriving DecidableEq, Repr

/-- The OP column of R74, read from opcode to command. -/
def decodeOpcode (op : Byte) : Option Instr :=
  match op.toNat with
  | 0x01 => some .setbd
  | 0x02 => some .setspb
  | 0x03 => some .setthr
  | 0x04 => some .sendbit
  | 0x05 => some .send
  | 0x06 => some .sample
  | 0x07 => some .calib
  | 0x08 => some .waitstart
  | 0x09 => some .rxbyte
  | 0x0A => some .rxmsg
  | 0x0B => some .rxloop
  | _ => none

/-- Field OP, bits 7:0 of a command word (R72). -/
def opField (w : Word) : Byte := w.extractLsb' 0 8

/-- Field RSV, bits 31:8 of a command word (R72). -/
def rsvField (w : Word) : BitVec 24 := w.extractLsb' 8 24

/-- R76: a word with a nonzero RSV field is illegal whatever its OP; else the opcode map decides. -/
def decodeWord (w : Word) : Except DecodeError Instr :=
  if rsvField w ≠ 0 then .error .reservedField
  else match decodeOpcode (opField w) with
    | some i => .ok i
    | none => .error .reservedOpcode

/-- LegalCommand of R76. -/
def legalCommand (w : Word) : Bool :=
  match decodeWord w with
  | .ok _ => true
  | .error _ => false

/-- A word from its four bytes, lowest-addressed byte in the least-significant lane (R51, R52). -/
def wordOfBytes (b0 b1 b2 b3 : Byte) : Word := b3 ++ b2 ++ b1 ++ b0

/-- One command from the front of a byte list, with the bytes after it (R72: one length, four bytes). -/
def decodeBytes : List Byte → Except DecodeError (Instr × List Byte)
  | b0 :: b1 :: b2 :: b3 :: rest =>
    match decodeWord (wordOfBytes b0 b1 b2 b3) with
    | .ok i => .ok (i, rest)
    | .error e => .error e
  | _ => .error .truncated

/-- The OP column of R74, read from command to opcode. -/
def opcode : Instr → Byte
  | .setbd => 0x01
  | .setspb => 0x02
  | .setthr => 0x03
  | .sendbit => 0x04
  | .send => 0x05
  | .sample => 0x06
  | .calib => 0x07
  | .waitstart => 0x08
  | .rxbyte => 0x09
  | .rxmsg => 0x0A
  | .rxloop => 0x0B

/-- "The command word of opcode OP is zext_32(OP)" (R74). -/
def encode (i : Instr) : Word := (opcode i).setWidth 32

/-- Lane `n` of a bus word (R51). -/
def laneByte (w : Word) (n : Nat) : Byte := w.extractLsb' (8 * n) 8

/-- The four bytes of a bus word, lowest-addressed first (R51). -/
def bytesOfWord (w : Word) : List Byte := [laneByte w 0, laneByte w 1, laneByte w 2, laneByte w 3]

/-- The command word as bytes. -/
def encodeBytes (i : Instr) : List Byte := bytesOfWord (encode i)

/-- The instruction that the decoder reads from a table word (bit 0 the least significant bit of the one
command word). A command word is 32 bits; a number or a row wider than that is no command word. -/
def decodeTableWord (nbits w : Nat) : Option Instr :=
  if nbits ≤ 32 ∧ w < 2 ^ 32 then
    match decodeBytes (bytesOfWord (BitVec.ofNat 32 w)) with
    | .ok (i, _) => some i
    | .error _ => none
  else none

end Sys2Proof
end

