-- ==== Sys2Proof/Machine/Operands.lean ====
section
/-! DEFINITION. How each command maps its operands and the configuration to the values it uses (R75), and the
arithmetic of the rules: exact naturals, floor division (R13). -/

namespace Sys2Proof.Machine

/-- The operand check at issue (R77). -/
def operandsAccepted (i : Instr) (a0 a1 : Word) : Bool := legalOperands i a0 a1

/-- The nearest value a 16-bit register holds (D8): THRESH of SETTHR (R87). -/
def saturate16 (n : Word) : Half := if n.toNat > 65535 then 65535 else BitVec.ofNat 16 n.toNat

/-- SPB of SETSPB: 0 is coerced to 1, above 65535 saturates (R86). -/
def spbOf (n : Word) : Half := if n = 0 then 1 else saturate16 n

/-- The level SENDBIT sends: 1 if ARG0 ≠ 0, else 0 (R90). -/
def bitLevel (a0 : Word) : Bool := a0 ≠ 0

/-- "Half a bit duration", rounded down (R101, R106; D13). -/
def halfBit (s : State) : Nat := s.bitdur.toNat / 2

/-- The decision rule (R96): `v` is low when `v ≤ THRESH`, unsigned. -/
def isLow (thresh v : Half) : Bool := v.toNat ≤ thresh.toNat

/-- The truncated integer average of R94 and R95. -/
def average (sum : Nat) (spb : Half) : Half := BitVec.ofNat 16 (sum / spb.toNat)

/-- The smaller of two samples, unsigned (R98). -/
def minHalf (a b : Half) : Half := if a.toNat ≤ b.toNat then a else b

/-- The larger of two samples, unsigned (R98). -/
def maxHalf (a b : Half) : Half := if a.toNat ≤ b.toNat then b else a

/-- THRESH from the range of a calibration: the minimum when the range is below CAL_NARROW, else the midpoint,
exact and rounded down (R98). -/
def calibrated (mn mx : Half) : Half :=
  if mx.toNat - mn.toNat < calNarrow then mn else BitVec.ofNat 16 ((mn.toNat + mx.toNat) / 2)

/-- The run length that confirms a start bit (R101, R102). -/
def runNeeded (timeoutMs : Nat) : Nat := if timeoutMs = 0 then startRunPoll else startRunTimed

/-- The elapsed milliseconds of the timeout test, on the 32-bit clock (R101, R104). -/
def elapsed (now t0 : Word) : Nat := (now - t0).toNat

/-- LoopT of R111. -/
def loopTimeout (s : State) : Nat := 2 * s.bitdur.toNat / 1000 + s.params.loopBias

/-- `acc | (1 << i)` when the data sample is high, else `acc` (R106). -/
def withDataBit (acc : Byte) (i : Nat) (low : Bool) : Byte := if low then acc else acc ||| 1#8 <<< i

/-- Bit `i` of the byte SEND is sending (R91). -/
def dataLevel (c : Byte) (i : Nat) : Bool := c.getLsbD i

end Sys2Proof.Machine
end

