-- ==== Sys2Proof/Machine/Ops.lean ====
section
/-! DEFINITION. The named operations over buffers, line, events and completion that the meanings are written
in. The LLSE has no traps (R122): what stands in their place are `complete` (R16), which reports a failure as a
status, and `refuse` (R46), which records a refused host access. -/

namespace Sys2Proof.Machine

/-! ### Buffers -/

/-- The byte listed at offset `a`, if any. -/
def memFind : Memory → Nat → Option Byte
  | [], _ => none
  | (k, v) :: rest, a => if k = a then some v else memFind rest a

/-- The memory with byte `v` at offset `a`, offsets kept strictly rising. -/
def memPut : Memory → Nat → Byte → Memory
  | [], a, v => [(a, v)]
  | (k, w) :: rest, a, v =>
    if a < k then (a, v) :: (k, w) :: rest
    else if a = k then (a, v) :: rest
    else (k, w) :: memPut rest a v

/-- Offsets strictly rising from above `lo`. -/
def risingFrom : Nat → Memory → Bool
  | _, [] => true
  | lo, (k, _) :: rest => lo ≤ k && risingFrom (k + 1) rest

/-- The canonical form: offsets strictly rising, every one of them a byte of TXBUF or MSGBUF (log 13). -/
def Memory.wf (m : Memory) : Bool :=
  risingFrom txBase m && m.all (fun cell => cell.1 < msgBase + bufDepth)

/-- One byte of the window's buffer space: as written, or the free draw of this reset (R34, R38). -/
def readByte (s : State) (a : Nat) : Byte :=
  match memFind s.mem a with
  | some v => v
  | none => Config.freeByte s.epoch a

/-- Byte `i` of TXBUF (R51). -/
def txByte (s : State) (i : Nat) : Byte := readByte s (txBase + i)

/-- Byte `i` of MSGBUF (R51). -/
def msgByte (s : State) (i : Nat) : Byte := readByte s (msgBase + i)

/-- Byte `a` of the window's buffer space becomes `v`. -/
def writeByte (a : Nat) (v : Byte) (s : State) : State := { s with mem := memPut s.mem a v }

/-- MSGBUF[i] <- v (R109); MSGBUF has no byte beyond its depth (log 19). -/
def writeMsgByte (i : Nat) (v : Byte) (s : State) : State :=
  if i < bufDepth then writeByte (msgBase + i) v s else s

/-- The word at buffer offset `a`, little-endian (R51). -/
def readWord (s : State) (a : Nat) : Word :=
  wordOfBytes (readByte s a) (readByte s (a + 1)) (readByte s (a + 2)) (readByte s (a + 3))

/-- The word at buffer offset `a` becomes `v`, little-endian (R48, R51). -/
def writeWord (a : Nat) (v : Word) (s : State) : State :=
  writeByte (a + 3) (laneByte v 3) (writeByte (a + 2) (laneByte v 2)
    (writeByte (a + 1) (laneByte v 1) (writeByte a (laneByte v 0) s)))

/-! ### The engine's position and phase -/

/-- The engine's next atomic step is the one at `p`. -/
def goto (p : Point) (s : State) : State := { s with eng := { s.eng with point := p } }

/-- e.phase <- ph. -/
def setPhase (ph : Phase) (s : State) : State := { s with eng := { s.eng with phase := ph } }

/-! ### The five capability events (R12), each recorded as it completes (log 4) -/

/-- One more event observed. -/
def record (e : Event) (s : State) : State := { s with events := s.events ++ [e] }

/-- `Drive(level)` (R59). -/
def driveLine (level : Bool) (s : State) : State := record (.drive level) { s with txLevel := level }

/-- `Wait(us)` (R60): no state changes during it. -/
def waitFor (us : Nat) (s : State) : State := record (.wait us) s

/-- The value `Sample()` returns: the environment's next reading, or a free draw (R14, R61; log 10). -/
def sampleValue (s : State) : Half :=
  match s.env.samples with
  | v :: _ => v
  | [] => Config.freeSample s.env.draws

/-- The environment after it has given a reading. -/
def Env.afterSample (e : Env) : Env :=
  match e.samples with
  | _ :: rest => { e with samples := rest }
  | [] => { e with draws := e.draws + 1 }

/-- `Sample()` (R61), its value being `sampleValue s`. -/
def takeSample (s : State) : State :=
  record (.sample (sampleValue s)) { s with env := s.env.afterSample }

/-- By how much the clock M advances before the next reading (R62; log 11). -/
def clockAdvance (e : Env) : Nat :=
  match e.clockSteps with
  | d :: _ => d
  | [] => Config.freeClockStep e.draws

/-- The value `Now()` returns: M mod 2^32 at the event (R62). -/
def clockValue (s : State) : Word := BitVec.ofNat 32 (s.env.clock + clockAdvance s.env)

/-- The environment after a clock reading: M has advanced, never back (R62). -/
def Env.afterClock (e : Env) : Env :=
  match e.clockSteps with
  | d :: rest => { e with clock := e.clock + d, clockSteps := rest }
  | [] => { e with clock := e.clock + Config.freeClockStep e.draws, draws := e.draws + 1 }

/-- `Now()` (R62), its value being `clockValue s`. -/
def readClock (s : State) : State := record (.now (clockValue s)) { s with env := s.env.afterClock }

/-- Whether the sink accepts the byte now offered (R64; log 12). -/
def sinkAccepts (s : State) : Bool :=
  match s.env.sink with
  | b :: _ => b
  | [] => Config.freeSinkAccepts s.env.draws

/-- The environment after the sink has answered one offer. -/
def Env.afterOffer (e : Env) : Env :=
  match e.sink with
  | _ :: rest => { e with sink := rest }
  | [] => { e with draws := e.draws + 1 }

/-- `Emit(b)` accepted by the sink (R64). -/
def emitByte (b : Byte) (s : State) : State := record (.emit b) { s with env := s.env.afterOffer }

/-- An offer the sink has not accepted yet: the engine stays where it is (R64). -/
def offerDeclined (s : State) : State := { s with env := s.env.afterOffer }

/-! ### Completion and refusal -/

/-- `complete(ok, err)` with its RESULT or MSGLEN update, one atomic step (R16). -/
def complete (c : Completion) (s : State) : State :=
  { s with
    status := s.status.completed c.ok c.err
    result := c.result.getD s.result
    msglen := c.msglen.getD s.msglen
    eng := { s.eng with phase := .idle, point := .idle } }

/-- A refused host access with cause `c` (R46). -/
def refuse (c : HCause) (s : State) : State := { s with status := s.status.refused c }

/-! ### Configuration -/

/-- RecomputeTiming (R83). -/
def recomputeTiming (s : State) : State :=
  { s with spacing := spacingOf s.bitdur s.spb, polldly := pollDelayOf s.bitdur }

/-- Reg(THRESH) <- v. -/
def setThresh (v : Half) (s : State) : State := { s with thresh := v }

end Sys2Proof.Machine
end

