-- ==== Sys2Proof/Machine/Configuration.lean ====
section
/-! DEFINITION. The meanings of SETBD, SETSPB and SETTHR (spec/40_configuration.md). Each issues no event and
completes in its issuing step (R82). -/

namespace Sys2Proof.Machine

/-- Reg(BITDUR) <- us; RecomputeTiming (R85). -/
def storeBitdur (us : Word) (s : State) : State := recomputeTiming { s with bitdur := us }

/-- Reg(SPB) <- n; RecomputeTiming (R86). -/
def storeSpb (n : Half) (s : State) : State := recomputeTiming { s with spb := n }

/-- SETBD (R85): 0 is rejected as a no-op. -/
def execSetbd (s : State) : Host.Outcome State Fault Refusal :=
  .next (complete .success
    (if s.eng.a0 = 0 then setPhase .config s else storeBitdur s.eng.a0 (setPhase .config s)))

/-- SETSPB (R86). -/
def execSetspb (s : State) : Host.Outcome State Fault Refusal :=
  .next (complete .success (storeSpb (spbOf s.eng.a0) (setPhase .config s)))

/-- SETTHR (R87): no RecomputeTiming. -/
def execSetthr (s : State) : Host.Outcome State Fault Refusal :=
  .next (complete .success (setThresh (saturate16 s.eng.a0) (setPhase .config s)))

end Sys2Proof.Machine
end

