-- ==== Sys2Proof/Machine/Sampling.lean ====
section
/-! DEFINITION. SampleAnalogP (R94) as one atomic step at a time, and the meanings of SAMPLE and CALIB
(spec/42_sampling.md). -/

namespace Sys2Proof.Machine

/-- What one atomic step of a procedure answers: it stands at `p`, or it has returned `a`. -/
inductive Run (π α : Type) where
  | here (p : π) (s : State)
  | done (a : α) (s : State)
deriving DecidableEq, Repr

/-- SampleAnalogP up to its first event, with a receive pin: with SPB ≤ 1 one raw reading, else e.sum and e.k
start at 0 (R94). Its first event is the `Sample` at `.read`. -/
def sampleBegin (s : State) : State :=
  if s.spb.toNat ≤ 1 then s else { s with eng := { s.eng with sum := 0, k := 0 } }

/-- One atomic step of SampleAnalogP (R94). -/
def sampleStep (p : SampleAt) (s : State) : Run SampleAt Half :=
  match p with
  | .read =>
    if s.spb.toNat ≤ 1 then .done (sampleValue s) (takeSample s)
    else if s.eng.k + 1 < s.spb.toNat then
      .here .space { takeSample s with eng := { s.eng with sum := s.eng.sum + (sampleValue s).toNat } }
    else
      .done (average (s.eng.sum + (sampleValue s).toNat) s.spb)
        { takeSample s with eng := { s.eng with sum := s.eng.sum + (sampleValue s).toNat } }
  | .space =>
    .here .read { waitFor s.spacing.toNat s with eng := { s.eng with k := s.eng.k + 1 } }

/-! ### SAMPLE (R97) -/

/-- SAMPLE's first step: without a receive pin SampleAnalogP "returns 0" with no event (R94, R97). -/
def sampleStart (s : State) : State :=
  if s.params.rxPresent then goto (.sample .read) (sampleBegin (setPhase .sample s))
  else complete (.withResult 0) (setPhase .sample s)

/-- SAMPLE inside SampleAnalogP (R97). -/
def sampleAt (p : SampleAt) (s : State) : State :=
  match sampleStep p s with
  | .here q t => goto (.sample q) t
  | .done v t => goto (.finish (.withResult v)) t

/-- SAMPLE (R97). -/
def execSample (s : State) : Host.Outcome State Fault Refusal :=
  .next (match s.eng.point with
    | .sample p => sampleAt p s
    | .finish c => complete c s
    | _ => sampleStart s)

/-! ### CALIB (R98) -/

/-- CALIB's first step: a no-op without a receive pin or with C = 0; else e.mn = 65535, e.mx = 0 and the first
calibration sample (R98). -/
def calibStart (s : State) : State :=
  if s.params.rxPresent && s.eng.a0 ≠ 0 then
    goto (.calib (.sampling .read))
      (sampleBegin { s with eng := { s.eng with phase := .cal, mn := 65535, mx := 0, calK := 0 } })
  else complete .success (setPhase .cal s)

/-- CALIB after a calibration sample `v`: the range grows; then the wait between samples, or THRESH (R98). -/
def calibSampled (v : Half) (s : State) : State :=
  let s1 := { s with eng := { s.eng with mn := minHalf s.eng.mn v, mx := maxHalf s.eng.mx v } }
  if s1.eng.calK + 1 < s1.eng.a0.toNat then goto (.calib .gapWait) s1
  else goto (.finish .success) (setThresh (calibrated s1.eng.mn s1.eng.mx) s1)

/-- CALIB inside its sampling loop (R98). -/
def calibAt (p : CalAt) (s : State) : State :=
  match p with
  | .sampling q =>
    match sampleStep q s with
    | .here q' t => goto (.calib (.sampling q')) t
    | .done v t => calibSampled v t
  | .gapWait =>
    goto (.calib (.sampling .read))
      (sampleBegin { waitFor s.eng.a1.toNat s with eng := { s.eng with calK := s.eng.calK + 1 } })

/-- CALIB (R98). -/
def execCalib (s : State) : Host.Outcome State Fault Refusal :=
  .next (match s.eng.point with
    | .calib p => calibAt p s
    | .finish c => complete c s
    | _ => calibStart s)

end Sys2Proof.Machine
end

