-- ==== Sys2Proof/Machine/Receive.lean ====
section
/-! DEFINITION. WaitForStartBitP (R101) and ReceiveByteP (R106) as one atomic step at a time, and the meanings
of WAITSTART, RXBYTE, RXMSG and RXLOOP (spec/43_receive.md). -/

namespace Sys2Proof.Machine

/-! ### The start-bit search (R101) -/

/-- What WaitForStartBitP returns: found, or not found with its reason. -/
inductive StartResult where
  | found
  | notFound (e : Err)
deriving DecidableEq, Repr

/-- WaitForStartBitP up to its first event, with a receive pin: the entry clock read when T > 0, else the single
sample (R101). -/
def searchBegin (timeoutMs : Nat) (s : State) : Run SearchAt StartResult :=
  let s1 := { s with eng := { s.eng with phase := .startSearch, need := runNeeded timeoutMs } }
  if timeoutMs = 0 then
    .here (.sampling .read) (sampleBegin { s1 with eng := { s1.eng with run := 0 } })
  else .here .mark s1

/-- WaitForStartBitP from its call: without a receive pin it "always fails immediately" (R101). -/
def searchStart (timeoutMs : Nat) (s : State) : Run SearchAt StartResult :=
  if s.params.rxPresent then searchBegin timeoutMs s else .done (.notFound .noRxPin) s

/-- The run counter after a sample: one more on a low, 0 on a high (R101). -/
def runAfter (v : Half) (s : State) : Nat := if isLow s.thresh v then s.eng.run + 1 else 0

/-- WaitForStartBitP after its sample `v`: judge, confirm, single-shot exit, else the clock read (R101). -/
def searchJudge (timeoutMs : Nat) (v : Half) (s : State) : Run SearchAt StartResult :=
  let s1 := { s with eng := { s.eng with run := runAfter v s } }
  if s.eng.need ≤ runAfter v s then .here .alignWait (setPhase .startDetected s1)
  else if timeoutMs = 0 then .done (.notFound .noStart) s1
  else .here .clock s1

/-- One atomic step of WaitForStartBitP (R101). -/
def searchStep (timeoutMs : Nat) (p : SearchAt) (s : State) : Run SearchAt StartResult :=
  match p with
  | .mark =>
    .here (.sampling .read)
      (sampleBegin { readClock s with eng := { s.eng with t0 := clockValue s, run := 0 } })
  | .sampling q =>
    match sampleStep q s with
    | .here q' t => .here (.sampling q') t
    | .done v t => searchJudge timeoutMs v t
  | .clock =>
    if timeoutMs < elapsed (clockValue s) s.eng.t0 then .done (.notFound .noStart) (readClock s)
    else .here .pollWait (readClock s)
  | .pollWait => .here (.sampling .read) (sampleBegin (waitFor s.polldly.toNat s))
  | .alignWait => .done .found (waitFor (halfBit s) s)

/-! ### Byte reception (R106) -/

/-- What ReceiveByteP returns: a byte, or no byte with its reason. -/
inductive ByteResult where
  | byte (b : Byte)
  | fail (e : Err)
deriving DecidableEq, Repr

/-- ReceiveByteP from the answer of its search (R106). -/
def byteFromSearch : Run SearchAt StartResult → Run ByteAt ByteResult
  | .here q t => .here (.search q) t
  | .done .found t => .here .firstWait t
  | .done (.notFound e) t => .done (.fail e) t

/-- ReceiveByteP from its call (R106). -/
def byteStart (timeoutMs : Nat) (s : State) : Run ByteAt ByteResult := byteFromSearch (searchStart timeoutMs s)

/-- ReceiveByteP at the sample of data bit `i`: e.phase <- DATA(i) (R106). -/
def dataBegin (i : Nat) (s : State) : State :=
  sampleBegin { s with eng := { s.eng with i := i, phase := .data (Fin.ofNat 8 i) } }

/-- ReceiveByteP after the data sample `v` (R106). -/
def dataSampled (v : Half) (s : State) : State :=
  { s with eng := { s.eng with acc := withDataBit s.eng.acc s.eng.i (isLow s.thresh v) } }

/-- ReceiveByteP after the stop sample `v`: low is a desync, high a valid frame (R106). -/
def stopSampled (v : Half) (s : State) : Run ByteAt ByteResult :=
  if isLow s.thresh v then .here .settleWait (setPhase .desync s)
  else .here .closeWait (setPhase .decoded s)

/-- One atomic step of ReceiveByteP (R106). -/
def byteStep (timeoutMs : Nat) (p : ByteAt) (s : State) : Run ByteAt ByteResult :=
  match p with
  | .search q => byteFromSearch (searchStep timeoutMs q s)
  | .firstWait =>
    .here (.data .read)
      (dataBegin 0 { waitFor s.bitdur.toNat s with eng := { s.eng with acc := 0 } })
  | .data q =>
    match sampleStep q s with
    | .here q' t => .here (.data q') t
    | .done v t => .here .dataWait (dataSampled v t)
  | .dataWait =>
    if s.eng.i + 1 < dataBits then
      .here (.data .read) (dataBegin (s.eng.i + 1) (waitFor s.bitdur.toNat s))
    else .here (.stop .read) (sampleBegin (setPhase .stopCheck (waitFor s.bitdur.toNat s)))
  | .stop q =>
    match sampleStep q s with
    | .here q' t => .here (.stop q') t
    | .done v t => stopSampled v t
  | .settleWait => .done (.fail .desync) (waitFor s.bitdur.toNat s)
  | .closeWait => .done (.byte s.eng.acc) (waitFor (halfBit s) s)

/-! ### WAITSTART (R105) -/

/-- WAITSTART's completion from the search's result (R105). -/
def startCompletion : StartResult → Completion
  | .found => .success
  | .notFound e => .failure e

/-- WAITSTART's first step: without a receive pin it fails in the issuing step (R105). -/
def waitstartStart (s : State) : State :=
  match searchStart s.eng.a0.toNat s with
  | .here q t => goto (.waitstart q) t
  | .done r t => complete (startCompletion r) t

/-- WAITSTART inside its search (R105). -/
def waitstartAt (p : SearchAt) (s : State) : State :=
  match searchStep s.eng.a0.toNat p s with
  | .here q t => goto (.waitstart q) t
  | .done r t => goto (.finish (startCompletion r)) t

/-- WAITSTART (R105). -/
def execWaitstart (s : State) : Host.Outcome State Fault Refusal :=
  .next (match s.eng.point with
    | .waitstart p => waitstartAt p s
    | .finish c => complete c s
    | _ => waitstartStart s)

/-! ### RXBYTE (R107) -/

/-- RXBYTE's completion from the byte's result: RESULT only on success (R107). -/
def byteCompletion : ByteResult → Completion
  | .byte b => .withResult (b.setWidth 16)
  | .fail e => .failure e

/-- RXBYTE's first step: without a receive pin it fails in the issuing step (R107). -/
def rxbyteStart (s : State) : State :=
  match byteStart s.eng.a0.toNat s with
  | .here q t => goto (.rxbyte q) t
  | .done r t => complete (byteCompletion r) t

/-- RXBYTE inside ReceiveByteP (R107). -/
def rxbyteAt (p : ByteAt) (s : State) : State :=
  match byteStep s.eng.a0.toNat p s with
  | .here q t => goto (.rxbyte q) t
  | .done r t => goto (.finish (byteCompletion r)) t

/-- RXBYTE (R107). -/
def execRxbyte (s : State) : Host.Outcome State Fault Refusal :=
  .next (match s.eng.point with
    | .rxbyte p => rxbyteAt p s
    | .finish c => complete c s
    | _ => rxbyteStart s)

/-! ### RXMSG (R109) -/

/-- RXMSG's completion with `n` bytes accumulated, ended for `ending`; `e` is the reason of the byte that failed,
reported when n = 0 (R109). With maxChars = 0 no byte was attempted and the reason is EMPTY. -/
def messageCompletion (n : Nat) (ending : Ending) (e : Err) : Completion where
  ok := 0 < n
  err := if 0 < n then .noError else e
  result := none
  msglen := some { len := BitVec.ofNat 9 n, ending := ending }

/-- The head of RXMSG's loop, "checked before each byte" (R109, D20). -/
def messageNext (s : State) : Run ByteAt Completion :=
  if s.eng.n < s.eng.a0.toNat then
    match byteStart s.eng.a1.toNat s with
    | .here q t => .here q t
    | .done (.fail e) t => .done (messageCompletion t.eng.n .rxFail e) t
    | .done (.byte _) t => .done (messageCompletion t.eng.n .rxFail .noError) t
  else .done (messageCompletion s.eng.n .maxChars .empty) s

/-- MSGBUF[e.n] <- b; e.n <- e.n + 1 (R109). -/
def appendByte (b : Byte) (s : State) : State :=
  { writeMsgByte s.eng.n b s with eng := { s.eng with n := s.eng.n + 1 } }

/-- RXMSG after a decoded byte: it is in MSGBUF at once, a line feed ends the message, else the loop's head
(R109). -/
def messageByte (b : Byte) (s : State) : Run ByteAt Completion :=
  if b = lineFeed then .done (messageCompletion (s.eng.n + 1) .lineFeed .noError) (appendByte b s)
  else messageNext (appendByte b s)

/-- One atomic step of RXMSG inside ReceiveByteP (R109). -/
def messageStep (p : ByteAt) (s : State) : Run ByteAt Completion :=
  match byteStep s.eng.a1.toNat p s with
  | .here q t => .here q t
  | .done (.fail e) t => .done (messageCompletion t.eng.n .rxFail e) t
  | .done (.byte b) t => messageByte b t

/-- RXMSG's first step: with maxChars = 0 or without a receive pin it fails in the issuing step (R109). -/
def rxmsgStart (s : State) : State :=
  match messageNext { s with eng := { s.eng with n := 0 } } with
  | .here q t => goto (.rxmsg q) t
  | .done c t => complete c t

/-- RXMSG inside ReceiveByteP (R109). -/
def rxmsgAt (p : ByteAt) (s : State) : State :=
  match messageStep p s with
  | .here q t => goto (.rxmsg q) t
  | .done c t => goto (.finish c) t

/-- RXMSG (R109). -/
def execRxmsg (s : State) : Host.Outcome State Fault Refusal :=
  .next (match s.eng.point with
    | .rxmsg p => rxmsgAt p s
    | .finish c => complete c s
    | _ => rxmsgStart s)

/-! ### RXLOOP (R112) -/

/-- RXLOOP from the answer of its receive attempt: a byte goes to the sink, a failure to the backoff wait
(R112). -/
def loopFromByte : Run ByteAt ByteResult → State
  | .here q t => goto (.rxloop (.byte q)) t
  | .done (.byte _) t => goto (.rxloop .emit) (setPhase .loopEmit t)
  | .done (.fail _) t => goto (.rxloop .backoff) (setPhase .loopBackoff t)

/-- RXLOOP's iteration check, a step of its own (log 6): a stop request ends the command, else a receive attempt
starts (R112, R113). -/
def loopCheck (s : State) : State :=
  if s.eng.stopReq then complete .success { s with eng := { s.eng with stopReq := false } }
  else loopFromByte (byteStart (loopTimeout s) s)

/-- RXLOOP at one of its atomic steps (R112). The byte the loop emits is the one e.acc holds (R106). -/
def rxloopAt (p : LoopAt) (s : State) : State :=
  match p with
  | .check => loopCheck s
  | .byte q => loopFromByte (byteStep (loopTimeout s) q s)
  | .emit =>
    if sinkAccepts s then goto (.rxloop .check) (emitByte s.eng.acc s) else offerDeclined s
  | .backoff => goto (.rxloop .check) (waitFor s.polldly.toNat s)

/-- RXLOOP's first step: the first iteration check is the engine's next step, so that a STOP written before it
ends the loop with no event (R112; log 6, log 7). -/
def rxloopStart (s : State) : State := goto (.rxloop .check) (setPhase .startSearch s)

/-- RXLOOP (R112). -/
def execRxloop (s : State) : Host.Outcome State Fault Refusal :=
  .next (match s.eng.point with
    | .rxloop p => rxloopAt p s
    | .finish c => complete c s
    | _ => rxloopStart s)

end Sys2Proof.Machine
end

