-- ==== Sys2Proof/Machine/Transmit.lean ====
section
/-! DEFINITION. The meanings of SENDBIT and SEND (spec/41_transmit.md). Each performs one atomic step of its
command: from `point`, the event the engine is in and the updates that follow it (R66; log 3). -/

namespace Sys2Proof.Machine

/-! ### SENDBIT (R90): SendBitP of one level (R89) -/

/-- SENDBIT's first step: without a transmit pin it is a no-op that completes in the issuing step (R90). -/
def sendbitStart (s : State) : State :=
  if s.params.txPresent then goto (.sendbit .drive) (setPhase .tx s)
  else complete .success (setPhase .tx s)

/-- SENDBIT inside SendBitP: Drive(level), then Wait(BITDUR) (R89). -/
def sendbitAt (p : BitAt) (s : State) : State :=
  match p with
  | .drive => goto (.sendbit .wait) (driveLine (bitLevel s.eng.a0) s)
  | .wait => goto (.finish .success) (waitFor s.bitdur.toNat s)

/-- SENDBIT (R90). -/
def execSendbit (s : State) : Host.Outcome State Fault Refusal :=
  .next (match s.eng.point with
    | .sendbit p => sendbitAt p s
    | .finish c => complete c s
    | _ => sendbitStart s)

/-! ### SEND (R91) -/

/-- The head of SEND's byte loop: the next byte is latched into `c` and its start bit is next, or the final
idle-high bit is (R91). -/
def sendNext (s : State) : State :=
  if s.eng.j < s.eng.a0.toNat then
    goto (.send .startDrive) { s with eng := { s.eng with c := txByte s s.eng.j } }
  else goto (.send .idleDrive) s

/-- SEND's first step: without a transmit pin "the whole call is a no-op" (R91). -/
def sendStart (s : State) : State :=
  if s.params.txPresent then sendNext { s with eng := { s.eng with phase := .tx, j := 0 } }
  else complete .success (setPhase .tx s)

/-- SEND inside a frame: start bit, data bits least-significant first, stop bit, gap, and after the last byte
the idle-high bit (R91). -/
def sendAt (p : SendAt) (s : State) : State :=
  match p with
  | .startDrive => goto (.send .startWait) (driveLine false s)
  | .startWait =>
    goto (.send .dataDrive) { waitFor s.bitdur.toNat s with eng := { s.eng with i := 0 } }
  | .dataDrive => goto (.send .dataWait) (driveLine (dataLevel s.eng.c s.eng.i) s)
  | .dataWait =>
    if s.eng.i + 1 < dataBits then
      goto (.send .dataDrive) { waitFor s.bitdur.toNat s with eng := { s.eng with i := s.eng.i + 1 } }
    else goto (.send .stopDrive) (waitFor s.bitdur.toNat s)
  | .stopDrive => goto (.send .stopWait) (driveLine true s)
  | .stopWait => goto (.send .gapWait) (waitFor s.bitdur.toNat s)
  | .gapWait => sendNext { waitFor s.bitdur.toNat s with eng := { s.eng with j := s.eng.j + 1 } }
  | .idleDrive => goto (.send .idleWait) (driveLine true s)
  | .idleWait => goto (.finish .success) (waitFor s.bitdur.toNat s)

/-- SEND (R91). -/
def execSend (s : State) : Host.Outcome State Fault Refusal :=
  .next (match s.eng.point with
    | .send p => sendAt p s
    | .finish c => complete c s
    | _ => sendStart s)

end Sys2Proof.Machine
end

