-- ==== Sys2Proof/Machine/Dispatch.lean ====
section
/-! DEFINITION. One arm per command: its meaning performs one atomic step of it (log 3). -/

namespace Sys2Proof.Machine

def exec (i : Instr) (s : State) : Host.Outcome State Fault Refusal :=
  match i with
  | .setbd => Sys2Proof.Machine.execSetbd s
  | .setspb => Sys2Proof.Machine.execSetspb s
  | .setthr => Sys2Proof.Machine.execSetthr s
  | .sendbit => Sys2Proof.Machine.execSendbit s
  | .send => Sys2Proof.Machine.execSend s
  | .sample => Sys2Proof.Machine.execSample s
  | .calib => Sys2Proof.Machine.execCalib s
  | .waitstart => Sys2Proof.Machine.execWaitstart s
  | .rxbyte => Sys2Proof.Machine.execRxbyte s
  | .rxmsg => Sys2Proof.Machine.execRxmsg s
  | .rxloop => Sys2Proof.Machine.execRxloop s

end Sys2Proof.Machine
end

