-- ==== Sys2Proof/Machine/Window.lean ====
section
/-! DEFINITION. The host register window: address decode, reads, writes, refusals, CTRL, and the issue of a
command (R40 to R51). A CMD write that issues a command hands the command to Step.lean to run. -/

namespace Sys2Proof.Machine

/-- What a mapped, aligned offset names (R41); a buffer word by its number 0..63. -/
inductive Target where
  | cmd
  | arg0
  | arg1
  | ctrl
  | status
  | result
  | msglen
  | bitdur
  | thresh
  | spb
  | spacing
  | polldly
  | caps
  | txbuf (m : Nat)
  | msgbuf (m : Nat)
deriving DecidableEq, Repr

/-- What an access does to the machine: it is over, or it has issued a command whose rule now starts (R50). -/
inductive Effect where
  | done (s : State)
  | issued (i : Instr) (s : State)
deriving DecidableEq, Repr

/-- The table of R41 below the buffers. -/
def registerAt (n : Nat) : Option Target :=
  match n with
  | 0x000 => some .cmd
  | 0x004 => some .arg0
  | 0x008 => some .arg1
  | 0x00C => some .ctrl
  | 0x010 => some .status
  | 0x014 => some .result
  | 0x018 => some .msglen
  | 0x020 => some .bitdur
  | 0x024 => some .thresh
  | 0x028 => some .spb
  | 0x02C => some .spacing
  | 0x030 => some .polldly
  | 0x034 => some .caps
  | _ => none

/-- Address decode (R41): none when the access is misaligned or unmapped. -/
def target (off : Offset) : Option Target :=
  if off.toNat % 4 ≠ 0 then none
  else if off.toNat < 0x100 then registerAt off.toNat
  else if off.toNat < 0x200 then some (.txbuf ((off.toNat - 0x100) / 4))
  else if off.toNat < 0x300 then some (.msgbuf ((off.toNat - 0x200) / 4))
  else none

/-- The word a mapped, aligned read returns (R42): no side effect, busy or not. -/
def readTarget (s : State) : Target → Word
  | .cmd => s.cmd
  | .arg0 => s.arg0
  | .arg1 => s.arg1
  | .ctrl => 0
  | .status => s.status.word
  | .result => s.result.setWidth 32
  | .msglen => s.msglen.word
  | .bitdur => s.bitdur
  | .thresh => s.thresh.setWidth 32
  | .spb => s.spb.setWidth 32
  | .spacing => s.spacing
  | .polldly => s.polldly
  | .caps => capsWord s.params
  | .txbuf m => readWord s (txBase + 4 * m)
  | .msgbuf m => readWord s (msgBase + 4 * m)

/-- The read-only targets of R44. -/
def Target.readOnly : Target → Bool
  | .cmd => false
  | .arg0 => false
  | .arg1 => false
  | .ctrl => false
  | .status => true
  | .result => true
  | .msglen => true
  | .bitdur => true
  | .thresh => true
  | .spb => true
  | .spacing => true
  | .polldly => true
  | .caps => true
  | .txbuf _ => false
  | .msgbuf _ => true

/-- The value `MemRead(off, 4)` returns (R42). -/
def busReadValue (s : State) (off : Offset) : Word :=
  match target off with
  | some t => readTarget s t
  | none => 0

/-- `MemRead(off, 4)`: a misaligned or unmapped read is a refused access (R42). The value read is recorded
(log 4). -/
def busRead (off : Offset) (s : State) : State :=
  let logged := { s with reads := s.reads ++ [(off, busReadValue s off)] }
  match target off with
  | some _ => logged
  | none => refuse .badAddress logged

/-- CTRL.STOP (R22, R113): a request only while RXLOOP runs. -/
def requestStop (s : State) : State :=
  if s.status.busy && s.eng.op = opcode .rxloop then
    { s with eng := { s.eng with stopReq := true } }
  else s

/-- CTRL.CLRERR (R22). -/
def clearHostErr (s : State) : State := { s with status := s.status.cleared }

/-- A write of `v` to CTRL: the effect of each bit that is 1, in one step (R22, R49). -/
def writeCtrl (v : Word) (s : State) : State :=
  let stopped := if v.getLsbD 0 then requestStop s else s
  if v.getLsbD 1 then clearHostErr stopped else stopped

/-- The latch of R50: opcode and operands, no stop request, STATUS as issued; the rule has not begun. -/
def latch (op : Byte) (s : State) : State :=
  { s with
    status := s.status.issued
    eng := { s.eng with op := op, a0 := s.arg0, a1 := s.arg1, stopReq := false, point := .idle } }

/-- A CMD write rejected with reason `e` (R50). -/
def rejectCommand (e : Err) (s : State) : State := { s with status := s.status.rejected e }

/-- A write of `w` to CMD while idle (R50): the opcode check first, then the operand check (R78). -/
def writeCmd (w : Word) (s : State) : Effect :=
  let held := { s with cmd := w }
  match decodeWord w with
  | .error _ => .done (rejectCommand .illegalCmd held)
  | .ok i =>
    if operandsAccepted i s.arg0 s.arg1 then .issued i (latch (opField w) held)
    else .done (rejectCommand .illegalOperand held)

/-- A write to a target that no rule refuses (R48, R49, R50). -/
def writeTarget (t : Target) (v : Word) (s : State) : Effect :=
  match t with
  | .cmd => writeCmd v s
  | .arg0 => .done { s with arg0 := v }
  | .arg1 => .done { s with arg1 := v }
  | .ctrl => .done (writeCtrl v s)
  | .txbuf m => .done (writeWord (txBase + 4 * m) v s)
  | .status => .done s
  | .result => .done s
  | .msglen => .done s
  | .bitdur => .done s
  | .thresh => .done s
  | .spb => .done s
  | .spacing => .done s
  | .polldly => .done s
  | .caps => .done s
  | .msgbuf _ => .done s

/-- `MemWrite(off, 4, v)`: the causes of refusal in the order of R47, else the write. -/
def busWrite (off : Offset) (v : Word) (s : State) : Effect :=
  match target off with
  | none => .done (refuse .badAddress s)
  | some t =>
    if t.readOnly then .done (refuse .roWrite s)
    else if s.status.busy && t ≠ .ctrl then .done (refuse .busyWrite s)
    else writeTarget t v s

/-- One host access (R40). -/
def access (a : Access) (s : State) : Effect :=
  match a with
  | .read off => .done (busRead off s)
  | .write off v => busWrite off v s

end Sys2Proof.Machine
end

