-- ==== Sys2Proof/Machine/Turns.lean ====
section
/-! DEFINITION. The total order of atomic steps (R66): who moves next, what a host turn, a poll, a reset and an
engine turn do before any command's meaning runs (log 1, log 2, log 21, log 23). -/

namespace Sys2Proof.Machine

/-- What the next atomic step is: it is settled already, it is an atomic step of command `i`, or the engine is busy
with no command (log 20). -/
inductive Move where
  | settled (s : State)
  | run (i : Instr) (s : State)
  | stray
deriving DecidableEq, Repr

/-- The engine's turn: while BUSY one atomic step of the latched command, else nothing (R37, R66; log 2). -/
def engineMove (s : State) : Move :=
  if s.status.busy then
    match decodeOpcode s.eng.op with
    | some i => .run i s
    | none => .stray
  else .settled s

/-- A host access, as a move. -/
def accessMove (a : Access) (s : State) : Move :=
  match access a s with
  | .done t => .settled t
  | .issued i t => .run i t

/-- One round of POLL (R80): read STATUS; while its bit 0 is 1 the engine moves and the poll repeats. -/
def pollRound (s : State) : State :=
  if (busReadValue s 0x010).getLsbD 0 then
    { busRead 0x010 s with agenda := .engine :: .poll :: s.agenda }
  else busRead 0x010 s

/-- Reset (R130, R131): every piece of the LLSE's state as R38 says, with no event; a running command ends with no
`complete`. The environment, the turns to come and what was observed are not the LLSE's (log 21). -/
def resetMachine (s : State) : State :=
  { State.resetOf s.params with
    epoch := s.epoch + 1
    env := s.env
    agenda := s.agenda
    events := s.events
    reads := s.reads }

/-- The move of the turn at the head of the agenda; the engine's when the agenda is empty (log 2). -/
def nextMove (s : State) : Move :=
  match s.agenda with
  | [] => engineMove s
  | .engine :: rest => engineMove { s with agenda := rest }
  | .access a :: rest => accessMove a { s with agenda := rest }
  | .poll :: rest => .settled (pollRound { s with agenda := rest })
  | .reset :: rest => .settled (resetMachine { s with agenda := rest })

/-- `s` with the host about to write the command word `w` to CMD, the engine idle (log 16). -/
def placeCommand (w : Word) (s : State) : State :=
  { s with
    status := { s.status with busy := false }
    eng := { s.eng with phase := .idle, point := .idle }
    agenda := .access (.write 0x000 w) :: s.agenda }

end Sys2Proof.Machine
end

