-- ==== Sys2Proof/Machine/Step.lean ====
section
/-! DEFINITION. One atomic step of the total order (R66), and where a command is placed for it (log 16). -/

namespace Sys2Proof.Machine

/-- One atomic step (R66): the turn of Turns.lean, and where that turn runs a command, its meaning. -/
def step (s : State) : Host.Outcome State Fault Refusal :=
  match nextMove s with
  | .settled t => .next t
  | .run i t => exec i t
  | .stray => .fault .strayOpcode

/-- `s` with the command word `w` where the next step takes its command: the host is about to write it to CMD
(R50; log 16). A command word is the whole instruction, so `nbits` adds nothing. -/
def State.withFetchWord (s : State) (_nbits w : Nat) : State := placeCommand (BitVec.ofNat 32 w) s

end Sys2Proof.Machine
end

