-- ==== Sys2Proof/Machine/Assembler.lean ====
section
/-! DEFINITION. The assembler of R80 and R81: each line of a host program as the turns it stands for. -/

namespace Sys2Proof.Machine

/-- The TXBUF words of a byte string, "missing bytes 0" (R81). -/
def packWords : List Byte → List Word
  | [] => []
  | [a] => [wordOfBytes a 0 0 0]
  | [a, b] => [wordOfBytes a b 0 0]
  | [a, b, c] => [wordOfBytes a b c 0]
  | a :: b :: c :: d :: rest => wordOfBytes a b c d :: packWords rest

/-- The writes of TXLOAD, from offset `off` on (R81). -/
def storeWords : Nat → List Word → List Turn
  | _, [] => []
  | off, w :: ws => .access (.write (BitVec.ofNat 12 off) w) :: storeWords (off + 4) ws

/-- TXLOAD (R81). -/
def loadTurns (bytes : List Byte) : List Turn := storeWords txBase (packWords bytes)

/-- A command by its form: its operands, its word, and POLL, which RXLOOP goes without (R81). -/
def commandTurns (i : Instr) (a0 a1 : Word) : List Turn :=
  match i.form with
  | .f0 => .access (.write 0x000 (encode i)) :: (if i = .rxloop then [] else [.poll])
  | .f1 => [.access (.write 0x004 a0), .access (.write 0x000 (encode i)), .poll]
  | .f2 => [.access (.write 0x004 a0), .access (.write 0x008 a1), .access (.write 0x000 (encode i)), .poll]

/-- The turns of one program line (R80, R81). -/
def asmTurns : Asm → List Turn
  | .write off v => [.access (.write off v)]
  | .read off => [.access (.read off)]
  | .poll => [.poll]
  | .command i a0 a1 => commandTurns i a0 a1
  | .stop => [.access (.write 0x00C 1)]
  | .clrErr => [.access (.write 0x00C 2)]
  | .txload bytes => loadTurns bytes
  | .sendStr bytes => loadTurns bytes ++ commandTurns .send (BitVec.ofNat 32 bytes.length) 0

/-- A host program as turns. -/
def assemble (program : List Asm) : List Turn := program.flatMap asmTurns

/-- `s` with a host program to run before the turns it already has (log 16). -/
def State.withProgram (s : State) (program : List Asm) : State :=
  { s with agenda := assemble program ++ s.agenda }

end Sys2Proof.Machine
end

