-- ==== Sys2Proof/Machine/Timing.lean ====
section
/-! DEFINITION. Time over event sequences: requested waiting (R144), the line's level (R92), the reference timing
model (R65), and the event sequences that the transmit rules name (R89, R91). Claims take these as premises or
conclusions; no step of the machine depends on them (log 17). -/

namespace Sys2Proof.Machine

/-- The waiting one event requests, in µs (R144). -/
def Event.requested : Event → Nat
  | .drive _ => 0
  | .wait us => us
  | .sample _ => 0
  | .now _ => 0
  | .emit _ => 0

/-- The waiting a sequence of events requests (R144). -/
def requestedWait (es : List Event) : Nat := (es.map Event.requested).sum

/-- How many `Drive` events a sequence holds (R91). -/
def driveCount (es : List Event) : Nat := es.countP (fun e => e matches .drive _)

/-- How many `Wait` events a sequence holds (R91). -/
def waitCount (es : List Event) : Nat := es.countP (fun e => e matches .wait _)

/-- Virtual time after events that began at time `τ` (R65): "`Wait(us)` advances τ by exactly `us`; every other event
and every host access takes zero time", and a host access is no event. -/
def virtualTime (τ : Nat) (es : List Event) : Nat := τ + requestedWait es

/-- Whether a reading is one that the environment may give at virtual time `τ` (R65): the channel's value "where one is
assumed", else any value (R14). -/
def channelAllows (channel : Option (Nat → Half)) (τ : Nat) (v : Half) : Bool :=
  match channel with
  | some f => v = f τ
  | none => true

/-- The reference timing model (R65) over events that begin at virtual time `τ`: `Now` returns
`(c0 + τ div 1000) mod 2^32`, and `Sample` the value of a time-dependent channel, where one is assumed. -/
def followsReference (c0 : Nat) (channel : Option (Nat → Half)) : Nat → List Event → Bool
  | _, [] => true
  | τ, .wait us :: rest => followsReference c0 channel (τ + us) rest
  | τ, .now ms :: rest => ms = BitVec.ofNat 32 (c0 + τ / 1000) && followsReference c0 channel τ rest
  | τ, .sample v :: rest => channelAllows channel τ v && followsReference c0 channel τ rest
  | τ, .drive _ :: rest => followsReference c0 channel τ rest
  | τ, .emit _ :: rest => followsReference c0 channel τ rest

/-- The line's level at time `t` when the events begin at time `τ` with the line at `level`: the argument of the
last `Drive` at or before `t`, and `level` before the first (R59, R65). -/
def lineLevelAt (t : Nat) : Nat → Bool → List Event → Bool
  | _, level, [] => level
  | τ, level, .wait us :: rest => lineLevelAt t (τ + us) level rest
  | τ, level, .drive l :: rest => lineLevelAt t τ (if τ ≤ t then l else level) rest
  | τ, level, .sample _ :: rest => lineLevelAt t τ level rest
  | τ, level, .now _ :: rest => lineLevelAt t τ level rest
  | τ, level, .emit _ :: rest => lineLevelAt t τ level rest

/-- The events of SendBitP with a transmit pin (R89). -/
def bitEvents (bitdur : Nat) (level : Bool) : List Event := [.drive level, .wait bitdur]

/-- The events of the frame of byte `c`: start, data bits least-significant first, stop, gap (R91). -/
def frameEvents (bitdur : Nat) (c : Byte) : List Event :=
  bitEvents bitdur false ++ (List.range dataBits).flatMap (fun i => bitEvents bitdur (c.getLsbD i)) ++
    bitEvents bitdur true ++ [.wait bitdur]

/-- The events of SEND for a byte string: its frames and the final idle-high bit (R91). -/
def sendEvents (bitdur : Nat) (bytes : List Byte) : List Event :=
  bytes.flatMap (frameEvents bitdur) ++ bitEvents bitdur true

end Sys2Proof.Machine
end

