-- ==== Sys2Proof/Safety.lean ====
section
/-! DEFINITION. The terms claims are stated in: runs of atomic steps, and the invariant of the machine, which
rules out the states no run reaches. -/

namespace Sys2Proof.Machine

/-- `n` atomic steps from `s`, stopping at the first fault or refusal. -/
def steps : Nat → State → Host.Outcome State Fault Refusal
  | 0, s => .next s
  | n + 1, s =>
    match step s with
    | .next t => steps n t
    | .fault f => .fault f
    | .refused r => .refused r

/-! ### The states that the rules name, written from the rules -/

/-- What `complete(ok, err)` performs, RESULT and MSGLEN apart (R16). -/
def State.completed (ok : Bool) (e : Err) (s : State) : State :=
  { s with
    status := { s.status with busy := false, ok := ok, err := e }
    eng := { s.eng with phase := .idle, point := .idle } }

/-- What the issue of command `i` leaves before its rule starts: the word held, opcode and operands latched, no stop
request, STATUS as issued (R50). -/
def State.issued (i : Instr) (s : State) : State :=
  { s with
    cmd := encode i
    status := { s.status with busy := true, ok := false, err := .noError }
    eng := { s.eng with op := opcode i, a0 := s.arg0, a1 := s.arg1, stopReq := false, point := .idle } }

/-- What a refused access with cause `c` does (R46): the first cause since the last clear is kept. -/
def State.refusedWith (c : HCause) (s : State) : State :=
  if s.status.hostErr = true then s
  else { s with status := { s.status with hostErr := true, hcause := c } }

/-- How RXMSG completes with `n` bytes accumulated, ended for `ending` (R109): OK exactly when n > 0, else ERR `e`, and
MSGLEN. -/
def messageEnd (n : Nat) (ending : Ending) (e : Err) : Completion where
  ok := decide (0 < n)
  err := if n = 0 then e else .noError
  result := none
  msglen := some { len := BitVec.ofNat 9 n, ending := ending }

/-- The engine's next atomic step is the one at `p`. -/
def State.standing (p : Point) (s : State) : State := { s with eng := { s.eng with point := p } }

/-- `Wait(us)` has been issued and is over (R60). -/
def State.waited (us : Nat) (s : State) : State := { s with events := s.events ++ [.wait us] }

/-- `Drive(level)` has been issued (R59). -/
def State.drove (level : Bool) (s : State) : State :=
  { s with events := s.events ++ [.drive level], txLevel := level }

/-- e.phase is `ph`. -/
def State.inPhase (ph : Phase) (s : State) : State := { s with eng := { s.eng with phase := ph } }

/-- SampleAnalogP has been called: when it oversamples, e.sum and e.k are 0 (R94). -/
def State.sampleBegun (s : State) : State :=
  if s.spb.toNat ≤ 1 then s else { s with eng := { s.eng with sum := 0, k := 0 } }

/-- The `Sample` the engine is about to take is SampleAnalogP's last (R94). -/
abbrev State.lastReading (s : State) : Prop := s.spb.toNat ≤ 1 ∨ s.spb.toNat ≤ s.eng.k + 1

/-- `Sample()` has been issued and its reading, when SampleAnalogP oversamples, added to e.sum (R94). -/
def State.sampled (s : State) : State :=
  { s with
    events := s.events ++ [.sample (sampleValue s)]
    env := s.env.afterSample
    eng := { s.eng with
      sum := if s.spb.toNat ≤ 1 then s.eng.sum else s.eng.sum + (sampleValue s).toNat } }

/-- The value SampleAnalogP returns after its last reading: the one raw reading, or the truncated integer average
(R94). -/
def State.oversample (s : State) : Half :=
  if s.spb.toNat ≤ 1 then sampleValue s
  else BitVec.ofNat 16 ((s.eng.sum + (sampleValue s).toNat) / s.spb.toNat)

/-- `Now()` has been issued (R62). -/
def State.clocked (s : State) : State :=
  { s with events := s.events ++ [.now (clockValue s)], env := s.env.afterClock }

/-- WaitForStartBitP(T) has been called with a receive pin; `f` gives its places in the command that called it
(R101). -/
def State.searchBegun (T : Nat) (f : SearchAt → Point) (s : State) : State :=
  if T = 0 then
    State.standing (f (.sampling .read))
      (State.sampleBegun { s with eng := { s.eng with phase := .startSearch, need := 1, run := 0 } })
  else State.standing (f .mark) { s with eng := { s.eng with phase := .startSearch, need := 3 } }

/-- The run of consecutive lows after SampleAnalogP's last reading (R96, R101). -/
def State.runNow (s : State) : Nat := if s.oversample.toNat ≤ s.thresh.toNat then s.eng.run + 1 else 0

/-- RXMSG after the closing half-bit wait: the decoded byte is byte e.n of MSGBUF and e.n counts it (R109). -/
def State.byteStored (s : State) : State :=
  { State.waited (s.bitdur.toNat / 2) s with
    mem := memPut s.mem (0x200 + s.eng.n) s.eng.acc
    eng := { s.eng with n := s.eng.n + 1 } }

/-- The places of SampleAnalogP in the commands that call it. -/
inductive SampleIn : Instr → (SampleAt → Point) → Prop where
  | sample : SampleIn .sample Point.sample
  | calib : SampleIn .calib (fun p => .calib (.sampling p))
  | waitstart : SampleIn .waitstart (fun p => .waitstart (.sampling p))
  | rxbyteSearch : SampleIn .rxbyte (fun p => .rxbyte (.search (.sampling p)))
  | rxbyteData : SampleIn .rxbyte (fun p => .rxbyte (.data p))
  | rxbyteStop : SampleIn .rxbyte (fun p => .rxbyte (.stop p))
  | rxmsgSearch : SampleIn .rxmsg (fun p => .rxmsg (.search (.sampling p)))
  | rxmsgData : SampleIn .rxmsg (fun p => .rxmsg (.data p))
  | rxmsgStop : SampleIn .rxmsg (fun p => .rxmsg (.stop p))
  | rxloopSearch : SampleIn .rxloop (fun p => .rxloop (.byte (.search (.sampling p))))
  | rxloopData : SampleIn .rxloop (fun p => .rxloop (.byte (.data p)))
  | rxloopStop : SampleIn .rxloop (fun p => .rxloop (.byte (.stop p)))

/-- The places of WaitForStartBitP in the commands that call it, each with its timeout (R105, R107, R109, R111). -/
inductive SearchIn : Instr → (State → Nat) → (SearchAt → Point) → Prop where
  | waitstart : SearchIn .waitstart (fun s => s.eng.a0.toNat) Point.waitstart
  | rxbyte : SearchIn .rxbyte (fun s => s.eng.a0.toNat) (fun q => .rxbyte (.search q))
  | rxmsg : SearchIn .rxmsg (fun s => s.eng.a1.toNat) (fun q => .rxmsg (.search q))
  | rxloop : SearchIn .rxloop (fun s => 2 * s.bitdur.toNat / 1000 + s.params.loopBias)
      (fun q => .rxloop (.byte (.search q)))

/-- The places of ReceiveByteP in the commands that call it. -/
inductive ByteIn : Instr → (ByteAt → Point) → Prop where
  | rxbyte : ByteIn .rxbyte Point.rxbyte
  | rxmsg : ByteIn .rxmsg Point.rxmsg
  | rxloop : ByteIn .rxloop (fun q => .rxloop (.byte q))

/-! ### The window's map, written from the table of R41 -/

/-- The aligned offsets R41 leaves unmapped. -/
abbrev unmappedOffset (n : Nat) : Prop := n = 0x01C ∨ (0x038 ≤ n ∧ n ≤ 0x0FC) ∨ 0x300 ≤ n

/-- The offsets of the registers and the buffer that R44 makes read-only. -/
abbrev readOnlyOffset (n : Nat) : Prop :=
  n = 0x010 ∨ n = 0x014 ∨ n = 0x018 ∨ n = 0x020 ∨ n = 0x024 ∨ n = 0x028 ∨ n = 0x02C ∨ n = 0x030 ∨ n = 0x034 ∨
    (0x200 ≤ n ∧ n ≤ 0x2FC)

/-- The offsets of CMD, ARG0, ARG1 and TXBUF, which R45 refuses while busy. -/
abbrev writableOffset (n : Nat) : Prop := n = 0x000 ∨ n = 0x004 ∨ n = 0x008 ∨ (0x100 ≤ n ∧ n ≤ 0x1FC)

/-! ### Channels and event sequences of whole commands -/

/-- The events of one SampleAnalogP over the readings it takes (R94). -/
def oversampleEvents (spacing : Nat) : List Half → List Event
  | [] => []
  | [r] => [.sample r]
  | r :: rest => .sample r :: .wait spacing :: oversampleEvents spacing rest

/-- The average of R95. -/
def averageOf (readings : List Half) : Nat := (readings.map BitVec.toNat).sum / readings.length

/-- The THRESH that R98 gives a list of calibration samples with smallest `mn` and largest `mx`. -/
def midpointOf (mn mx : Nat) : Nat := if mx - mn < 10 then mn else (mn + mx) / 2

/-- The levels a sequence of events drives, in order. -/
def drivenLevels : List Event → List Bool
  | [] => []
  | .drive l :: rest => l :: drivenLevels rest
  | .wait _ :: rest => drivenLevels rest
  | .sample _ :: rest => drivenLevels rest
  | .now _ :: rest => drivenLevels rest
  | .emit _ :: rest => drivenLevels rest

/-- The simulated channel of V-SRC-2: a high level is answered by `hi`, a low level by `lo`. -/
def channelSample (hi lo : Half) (level : Bool) : Half := if level then hi else lo

/-- The ten samples that stand for the frame of byte `b` on the simulated channel: start, data, stop. -/
def frameSamples (hi lo : Half) (b : Byte) : List Half :=
  (drivenLevels (frameEvents 1 b)).map (channelSample hi lo)

/-! ### Invariants -/

/-- The invariant of the configuration (R27, R29, R32): no zero is held, and the derived delays are consistent. -/
structure State.Timing (s : State) : Prop where
  bitdur_pos : 1 ≤ s.bitdur.toNat
  spb_pos : 1 ≤ s.spb.toNat
  spacing_eq : s.spacing.toNat = max 5 (s.bitdur.toNat / (s.spb.toNat + 1))
  polldly_eq : s.polldly.toNat = max 50 (s.bitdur.toNat / 4)

/-- The points at which the engine may stand while it runs command `i`. -/
def Point.within (p : Point) (i : Instr) : Prop :=
  match p with
  | .idle => False
  | .finish c => (c.result.isSome = true → c.ok = true ∧ (i = .sample ∨ i = .rxbyte)) ∧
      (c.msglen.isSome = true → i = .rxmsg) ∧
      i ≠ .setbd ∧ i ≠ .setspb ∧ i ≠ .setthr ∧ i ≠ .rxloop
  | .sendbit _ => i = .sendbit
  | .send _ => i = .send
  | .sample _ => i = .sample
  | .calib _ => i = .calib
  | .waitstart _ => i = .waitstart
  | .rxbyte _ => i = .rxbyte
  | .rxmsg _ => i = .rxmsg
  | .rxloop _ => i = .rxloop

/-- e.phase inside the start-bit search (R37, R101). -/
def SearchAt.phase : SearchAt → Phase
  | .mark => .startSearch
  | .sampling _ => .startSearch
  | .clock => .startSearch
  | .pollWait => .startSearch
  | .alignWait => .startDetected

/-- e.phase inside byte reception, at data bit `i` (R37, R106). -/
def ByteAt.phase (i : Nat) : ByteAt → Phase
  | .search q => q.phase
  | .firstWait => .startDetected
  | .data _ => .data (Fin.ofNat 8 i)
  | .dataWait => .data (Fin.ofNat 8 i)
  | .stop _ => .stopCheck
  | .settleWait => .desync
  | .closeWait => .decoded

/-- e.phase is the one R37 gives the engine's position: IDLE exactly with no command, TX in the transmit commands,
the receive phases in the receive commands. At a `complete` and at RXLOOP's iteration check it is any phase but
IDLE. -/
def Engine.phaseFits (e : Engine) : Prop :=
  match e.point with
  | .idle => e.phase = .idle
  | .finish _ => e.phase ≠ .idle
  | .sendbit _ => e.phase = .tx
  | .send _ => e.phase = .tx
  | .sample _ => e.phase = .sample
  | .calib _ => e.phase = .cal
  | .waitstart p => e.phase = p.phase
  | .rxbyte p => e.phase = p.phase e.i
  | .rxmsg p => e.phase = p.phase e.i
  | .rxloop .check => e.phase ≠ .idle
  | .rxloop (.byte p) => e.phase = p.phase e.i
  | .rxloop .emit => e.phase = .loopEmit
  | .rxloop .backoff => e.phase = .loopBackoff

/-- The pin the engine's position needs is present (R12, R59, R61). -/
def State.pinFits (s : State) : Prop :=
  match s.eng.point with
  | .idle => True
  | .finish _ => True
  | .sendbit _ => s.params.txPresent = true
  | .send _ => s.params.txPresent = true
  | .sample _ => s.params.rxPresent = true
  | .calib _ => s.params.rxPresent = true
  | .waitstart _ => s.params.rxPresent = true
  | .rxbyte _ => s.params.rxPresent = true
  | .rxmsg _ => s.params.rxPresent = true
  | .rxloop (.byte _) => s.params.rxPresent = true
  | .rxloop .check => True
  | .rxloop .emit => s.params.rxPresent = true
  | .rxloop .backoff => True

/-- The oversampling counters inside SampleAnalogP (R94): fewer readings taken than SPB, none above 65535. -/
def SampleAt.counters (p : SampleAt) (s : State) : Prop :=
  match p with
  | .read => s.spb.toNat ≤ 1 ∨ (s.eng.k < s.spb.toNat ∧ s.eng.sum ≤ s.eng.k * 65535)
  | .space => s.eng.k + 1 < s.spb.toNat ∧ s.eng.sum ≤ (s.eng.k + 1) * 65535

/-- The search's counters for timeout `T` (R101): the run is below the length that confirms, 3 or 1. -/
def SearchAt.counters (T : Nat) (p : SearchAt) (s : State) : Prop :=
  match p with
  | .mark => T ≠ 0 ∧ s.eng.need = 3
  | .sampling q => s.eng.need = (if T = 0 then 1 else 3) ∧ s.eng.run < s.eng.need ∧ q.counters s
  | .clock => T ≠ 0 ∧ s.eng.need = 3 ∧ s.eng.run < 3
  | .pollWait => T ≠ 0 ∧ s.eng.need = 3 ∧ s.eng.run < 3
  | .alignWait => True

/-- Byte reception's counters for start timeout `T` (R106). -/
def ByteAt.counters (T : Nat) (p : ByteAt) (s : State) : Prop :=
  match p with
  | .search q => q.counters T s
  | .firstWait => True
  | .data q => q.counters s
  | .dataWait => True
  | .stop q => q.counters s
  | .settleWait => True
  | .closeWait => True

/-- The loop counters at the engine's position: inside the bounds of the loop that is running. -/
def State.countersFit (s : State) : Prop :=
  match s.eng.point with
  | .idle => True
  | .finish c => ∀ m, c.msglen = some m → m.len.toNat ≤ 256
  | .sendbit _ => True
  | .send .idleDrive => True
  | .send .idleWait => True
  | .send _ => s.eng.j < s.eng.a0.toNat
  | .sample p => p.counters s
  | .calib (.sampling p) => s.eng.calK < s.eng.a0.toNat ∧ p.counters s
  | .calib .gapWait => s.eng.calK + 1 < s.eng.a0.toNat
  | .waitstart p => p.counters s.eng.a0.toNat s
  | .rxbyte p => p.counters s.eng.a0.toNat s
  | .rxmsg p => s.eng.n < s.eng.a0.toNat ∧ p.counters s.eng.a1.toNat s
  | .rxloop (.byte p) => p.counters (2 * s.bitdur.toNat / 1000 + s.params.loopBias) s
  | .rxloop _ => True

/-- Every hidden variable keeps to its range in R36: the 32-bit ones hold no more than their loops let them. -/
structure Engine.Widths (e : Engine) : Prop where
  run_le : e.run ≤ 3
  need_le : e.need ≤ 3
  i_le : e.i ≤ 7
  j_le : e.j ≤ 256
  k_lt : e.k < 65536
  calK_lt : e.calK < 2 ^ 32
  n_le : e.n ≤ 256
  sum_le : e.sum ≤ 65535 * 65535

/-- What a running command satisfies: e.op is a legal opcode, the engine stands inside its rule, its operands are
legal (R77), and OK and ERR are as issued (R50). -/
def State.running (s : State) : Prop :=
  ∃ i, decodeOpcode s.eng.op = some i ∧ s.eng.point.within i ∧ legalOperands i s.eng.a0 s.eng.a1 = true ∧
    s.status.ok = false ∧ s.status.err = .noError

/-- The invariant of the machine. -/
structure State.Inv (s : State) : Prop where
  timing : s.Timing
  params_wf : s.params.wf = true
  mem_wf : Memory.wf s.mem = true
  hcause_iff : s.status.hostErr = true ↔ s.status.hcause ≠ .clear
  msglen_le : s.msglen.len.toNat ≤ 256
  busy_iff : s.status.busy = true ↔ s.eng.point ≠ .idle
  running : s.status.busy = true → s.running
  phase : s.eng.phaseFits
  pins : s.pinFits
  counters : s.countersFit
  widths : s.eng.Widths
  stop : s.eng.stopReq = true → s.status.busy = true ∧ s.eng.op = opcode .rxloop

end Sys2Proof.Machine
end

