-- ==== Sys2Proof/Certificates/Slice0/Obligations.lean ====
section
/-! DEFINITION. The statements about the machine, for the provers. Each docstring says which rule of spec/ it
formalises; OBLIGATIONS.json holds the list. -/

open Sys2Proof Sys2Proof.Machine

/-! ## Encoding -/

/-- R74, R76: the eleven command words, and words just outside, as the decoder reads them. -/
def Obligations.CommandWordsDecode : Prop :=
  decodeWord 0x00000001 = .ok .setbd ∧ decodeWord 0x00000002 = .ok .setspb ∧
  decodeWord 0x00000003 = .ok .setthr ∧ decodeWord 0x00000004 = .ok .sendbit ∧
  decodeWord 0x00000005 = .ok .send ∧ decodeWord 0x00000006 = .ok .sample ∧
  decodeWord 0x00000007 = .ok .calib ∧ decodeWord 0x00000008 = .ok .waitstart ∧
  decodeWord 0x00000009 = .ok .rxbyte ∧ decodeWord 0x0000000A = .ok .rxmsg ∧
  decodeWord 0x0000000B = .ok .rxloop ∧
  decodeWord 0x00000000 = .error .reservedOpcode ∧ decodeWord 0x0000000C = .error .reservedOpcode ∧
  decodeWord 0x00000105 = .error .reservedField

/-- R72, R74: a word is a legal command exactly when it equals one of the eleven values 1 .. 0x0B, and then it is that
command's word. -/
def Obligations.LegalWordsAreTheElevenOpcodes : Prop :=
  (∀ w : Word, legalCommand w = true ↔ 1 ≤ w.toNat ∧ w.toNat ≤ 11) ∧
  (∀ (w : Word) (i : Instr), decodeWord w = .ok i ↔ w = encode i)

/-- R72, R51: a byte list decodes to a command exactly when it begins with that command's four bytes, and the bytes
after them are left over. -/
def Obligations.DecodeAndEncodeAgreeOnBytes : Prop :=
  ∀ (bytes rest : List Byte) (i : Instr),
    decodeBytes bytes = .ok (i, rest) ↔ bytes = encodeBytes i ++ rest

/-! ## The host window -/

/-- R42: an aligned read of a mapped offset has no side effect, busy or not: nothing changes but the host's own record of
the value it returns, which is the register's. -/
def Obligations.MappedReadHasNoSideEffect : Prop :=
  ∀ (s : State) (off : Offset) (rest : List Turn), s.agenda = .access (.read off) :: rest →
    off.toNat % 4 = 0 → ¬ unmappedOffset off.toNat →
    step s = .next { s with agenda := rest, reads := s.reads ++ [(off, busReadValue s off)] }

/-- R42, R46: a misaligned or unmapped read returns 0 and is a refused access with cause BAD_ADDRESS. -/
def Obligations.BadReadReturnsZeroAndIsRefused : Prop :=
  ∀ (s : State) (off : Offset) (rest : List Turn), s.agenda = .access (.read off) :: rest →
    (off.toNat % 4 ≠ 0 ∨ unmappedOffset off.toNat) →
    step s = .next (State.refusedWith .badAddress { s with agenda := rest, reads := s.reads ++ [(off, 0)] })

/-- R20 to R33, R41, R51: what each mapped offset reads as. -/
def Obligations.WindowReadsItsRegisters : Prop :=
  ∀ s : State,
    busReadValue s 0x000 = s.cmd ∧ busReadValue s 0x004 = s.arg0 ∧ busReadValue s 0x008 = s.arg1 ∧
    busReadValue s 0x00C = 0 ∧ busReadValue s 0x010 = s.status.word ∧
    busReadValue s 0x014 = s.result.setWidth 32 ∧ busReadValue s 0x018 = s.msglen.word ∧
    busReadValue s 0x020 = s.bitdur ∧ busReadValue s 0x024 = s.thresh.setWidth 32 ∧
    busReadValue s 0x028 = s.spb.setWidth 32 ∧ busReadValue s 0x02C = s.spacing ∧
    busReadValue s 0x030 = s.polldly ∧ busReadValue s 0x034 = capsWord s.params ∧
    (∀ i : Nat, i < 256 →
      laneByte (busReadValue s (BitVec.ofNat 12 (0x100 + 4 * (i / 4)))) (i % 4) = txByte s i) ∧
    (∀ i : Nat, i < 256 →
      laneByte (busReadValue s (BitVec.ofNat 12 (0x200 + 4 * (i / 4)))) (i % 4) = msgByte s i)

/-- R23, R26, R33, R115, R117: where the fields of STATUS, MSGLEN and CAPS stand in their words, and that every other
bit reads 0. -/
def Obligations.StatusWordLayout : Prop :=
  (∀ (st : Status),
    st.word.getLsbD 0 = st.busy ∧ st.word.getLsbD 1 = st.ok ∧ st.word.extractLsb' 2 2 = 0 ∧
    st.word.extractLsb' 4 4 = (match st.err with
      | .noError => 0 | .noRxPin => 1 | .noStart => 2 | .desync => 3 | .empty => 4 | .illegalCmd => 8
      | .illegalOperand => 9) ∧
    st.word.getLsbD 8 = st.hostErr ∧
    st.word.extractLsb' 9 2 = (match st.hcause with
      | .clear => 0 | .busyWrite => 1 | .badAddress => 2 | .roWrite => 3) ∧
    st.word.extractLsb' 11 21 = 0) ∧
  (∀ (m : MsgLen),
    m.word.extractLsb' 0 9 = m.len ∧ m.word.extractLsb' 9 7 = 0 ∧
    m.word.extractLsb' 16 2 = (match m.ending with | .maxChars => 0 | .lineFeed => 1 | .rxFail => 2) ∧
    m.word.extractLsb' 18 14 = 0) ∧
  (∀ (p : Params),
    (capsWord p).getLsbD 0 = p.txPin.isSome ∧ (capsWord p).getLsbD 1 = p.rxPin.isSome ∧
    (capsWord p).extractLsb' 2 30 = 0)

/-- R43 to R47: which writes are refused, with which cause when several apply, that a refused write changes nothing
else, and that a CTRL write is never refused. -/
def Obligations.WritesAreRefusedInOrder : Prop :=
  ∀ (s : State) (off : Offset) (v : Word) (rest : List Turn), s.agenda = .access (.write off v) :: rest →
    ((off.toNat % 4 ≠ 0 ∨ unmappedOffset off.toNat) →
      step s = .next (State.refusedWith .badAddress { s with agenda := rest })) ∧
    (off.toNat % 4 = 0 → readOnlyOffset off.toNat →
      step s = .next (State.refusedWith .roWrite { s with agenda := rest })) ∧
    (off.toNat % 4 = 0 → writableOffset off.toNat → s.status.busy = true →
      step s = .next (State.refusedWith .busyWrite { s with agenda := rest })) ∧
    (off = 0x00C → ∃ t, step s = .next t ∧
      (t.status.hostErr = s.status.hostErr ∧ t.status.hcause = s.status.hcause ∨
        t.status.hostErr = false ∧ t.status.hcause = .clear))

/-- R48: an aligned write to ARG0, ARG1 or a TXBUF word while idle stores all 32 bits and has no other effect; for
TXBUF the four bytes of R51. -/
def Obligations.IdleWriteStoresOperandOrBuffer : Prop :=
  ∀ (s : State) (v : Word) (rest : List Turn), s.status.busy = false →
    (s.agenda = .access (.write 0x004 v) :: rest → step s = .next { s with agenda := rest, arg0 := v }) ∧
    (s.agenda = .access (.write 0x008 v) :: rest → step s = .next { s with agenda := rest, arg1 := v }) ∧
    (∀ m : Nat, m < 64 → s.agenda = .access (.write (BitVec.ofNat 12 (0x100 + 4 * m)) v) :: rest →
      ∃ t, step s = .next t ∧ t = { s with agenda := rest, mem := t.mem } ∧
        (∀ b : Nat, b < 4 → txByte t (4 * m + b) = v.extractLsb' (8 * b) 8) ∧
        (∀ a : Nat, a < 0x100 + 4 * m ∨ 0x100 + 4 * m + 4 ≤ a → readByte t a = readByte s a))

/-- R48, R42, R51: a TXBUF word written while idle reads back as written. -/
def Obligations.BufferWordReadsBack : Prop :=
  ∀ (s : State) (m : Nat) (v : Word), m < 64 → s.status.busy = false →
    s.agenda = [.access (.write (BitVec.ofNat 12 (0x100 + 4 * m)) v),
      .access (.read (BitVec.ofNat 12 (0x100 + 4 * m)))] →
    ∃ t, steps 2 s = .next t ∧ t.reads = s.reads ++ [(BitVec.ofNat 12 (0x100 + 4 * m), v)]

/-- R50, R76, R77, R78: an aligned write to CMD while idle: an illegal word, then illegal operands, are rejected with
their code and no other effect; a legal command is latched and its rule starts, which is `exec` of the command that the
word decodes to. -/
def Obligations.CmdWriteRejectsOrIssues : Prop :=
  ∀ (s : State) (w : Word) (rest : List Turn), s.status.busy = false →
    s.agenda = .access (.write 0x000 w) :: rest →
    ((w.extractLsb' 8 24 ≠ 0 ∨ (w.extractLsb' 0 8).toNat = 0 ∨ 0x0B < (w.extractLsb' 0 8).toNat) →
      step s = .next { s with
        agenda := rest, cmd := w, status := { s.status with ok := false, err := .illegalCmd } }) ∧
    (∀ i, w = encode i → (i = .send ∨ i = .rxmsg) ∧ 256 < s.arg0.toNat →
      step s = .next { s with
        agenda := rest, cmd := w, status := { s.status with ok := false, err := .illegalOperand } }) ∧
    (∀ i, w = encode i → ¬ ((i = .send ∨ i = .rxmsg) ∧ 256 < s.arg0.toNat) →
      step s = exec i (State.issued i { s with agenda := rest }))

/-- R22, R49, R113: a CTRL write at any time: bit 0 requests a stop only while RXLOOP runs, bit 1 clears HOSTERR and
HCAUSE, both in one step, and nothing else changes. -/
def Obligations.CtrlWriteStopsAndClears : Prop :=
  ∀ (s : State) (v : Word) (rest : List Turn), s.agenda = .access (.write 0x00C v) :: rest →
    step s = .next { s with
      agenda := rest
      status := { s.status with
        hostErr := s.status.hostErr && !v.getLsbD 1
        hcause := if v.getLsbD 1 = true then .clear else s.status.hcause }
      eng := { s.eng with
        stopReq := s.eng.stopReq || (v.getLsbD 0 && s.status.busy && s.eng.op == 0x0B) } }

/-- R82: a configuration command completes in its issuing step, with no event: the host never sees it busy, and the state
its next access sees is the one the command's meaning leaves. -/
def Obligations.ConfigurationCommandsAreAtomic : Prop :=
  ∀ (s : State) (i : Instr) (rest : List Turn), (i = .setbd ∨ i = .setspb ∨ i = .setthr) →
    s.status.busy = false → s.agenda = .access (.write 0x000 (encode i)) :: rest →
    ∃ t, step s = .next t ∧ exec i (State.issued i { s with agenda := rest }) = .next t ∧ t.status.busy = false ∧
      t.status.ok = true ∧ t.status.err = .noError ∧ t.events = s.events ∧ t.agenda = rest

/-- R66: while a command runs, the engine's turn (and, with no turn to come, the next step) is one atomic step of that
command, `exec` of the command that e.op holds. -/
def Obligations.EngineTurnRunsLatchedCommand : Prop :=
  ∀ (s : State) (i : Instr), s.status.busy = true → s.eng.op = opcode i →
    (s.agenda = [] → step s = exec i s) ∧
    (∀ rest, s.agenda = .engine :: rest → step s = exec i { s with agenda := rest })

/-- The model's choice for the fetch that LLSE does not have (R19, R70; log 16): the command word placed for the next
step is the command that step runs. -/
def Obligations.PlacedWordIsRunNext : Prop :=
  ∀ (s : State) (i : Instr) (nbits : Nat), ¬ ((i = .send ∨ i = .rxmsg) ∧ 256 < s.arg0.toNat) →
    step (s.withFetchWord nbits (encode i).toNat) =
      exec i (State.issued i { s with eng := { s.eng with phase := .idle } })

/-- R130, R131, R38: reset, also of a running command, leaves every register, the line, the phase and the stop request at
its reset value and every buffer byte unspecified, with no event. That the environment and the host's record stay as they
were is the model's reading (log 21). -/
def Obligations.ResetTurnRestoresResetValues : Prop :=
  ∀ (s : State) (rest : List Turn), s.agenda = .reset :: rest →
    ∃ t, step s = .next t ∧ t.events = s.events ∧ t.env = s.env ∧ t.reads = s.reads ∧ t.agenda = rest ∧
      t.params = s.params ∧ t.cmd = 0 ∧ t.arg0 = 0 ∧ t.arg1 = 0 ∧ t.status.word = 0 ∧ t.result = 0 ∧
      t.msglen.word = 0 ∧ t.bitdur = 1000 ∧ t.thresh = s.params.threshReset ∧ t.spb = 1 ∧ t.spacing = 500 ∧
      t.polldly = 250 ∧ t.txLevel = true ∧ t.eng.phase = .idle ∧ t.eng.stopReq = false ∧
      (∀ a : Nat, readByte t a = Config.freeByte t.epoch a)

/-- R38: the values the spec gives for reset, at State.reset. -/
def Obligations.ResetStateValues : Prop :=
  State.reset.cmd = 0 ∧ State.reset.arg0 = 0 ∧ State.reset.arg1 = 0 ∧ State.reset.status.word = 0 ∧
  State.reset.result = 0 ∧ State.reset.msglen.word = 0 ∧ State.reset.bitdur = 1000 ∧ State.reset.spb = 1 ∧
  State.reset.spacing = 500 ∧ State.reset.polldly = 250 ∧ State.reset.txLevel = true ∧
  State.reset.thresh = State.reset.params.threshReset ∧ State.reset.eng.phase = .idle ∧
  State.reset.eng.stopReq = false ∧ State.reset.events = [] ∧
  busReadValue State.reset 0x034 = capsWord State.reset.params ∧
  (∀ a : Nat, readByte State.reset a = Config.freeByte State.reset.epoch a)

/-! ## The commands, one atomic step at a time -/

/-- R16: `complete` is one atomic step with its RESULT and MSGLEN updates and no event. -/
def Obligations.CompletionIsOneStep : Prop :=
  ∀ (i : Instr) (s : State) (c : Completion), s.eng.point = .finish c → i ≠ .setbd → i ≠ .setspb → i ≠ .setthr →
    exec i s = .next { State.completed c.ok c.err s with
      result := c.result.getD s.result, msglen := c.msglen.getD s.msglen }

/-- R85, R83: SETBD. -/
def Obligations.SetbdStoresAndRecomputes : Prop :=
  decodeWord 0x00000001 = .ok .setbd ∧ Instr.form .setbd = .f1 ∧ ∀ s : State,
    (s.eng.a0 = 0 → exec .setbd s = .next (State.completed true .noError s)) ∧
    (s.eng.a0 ≠ 0 → exec .setbd s = .next (State.completed true .noError { s with
      bitdur := s.eng.a0
      spacing := BitVec.ofNat 32 (max 5 (s.eng.a0.toNat / (s.spb.toNat + 1)))
      polldly := BitVec.ofNat 32 (max 50 (s.eng.a0.toNat / 4)) }))

/-- R86, R83: SETSPB. -/
def Obligations.SetspbCoercesAndRecomputes : Prop :=
  decodeWord 0x00000002 = .ok .setspb ∧ Instr.form .setspb = .f1 ∧ ∀ s : State, ∃ n : Half,
    n.toNat = (if s.eng.a0.toNat = 0 then 1 else min s.eng.a0.toNat 65535) ∧
    exec .setspb s = .next (State.completed true .noError { s with
      spb := n
      spacing := BitVec.ofNat 32 (max 5 (s.bitdur.toNat / (n.toNat + 1)))
      polldly := BitVec.ofNat 32 (max 50 (s.bitdur.toNat / 4)) })

/-- R87: SETTHR. -/
def Obligations.SetthrSaturates : Prop :=
  decodeWord 0x00000003 = .ok .setthr ∧ Instr.form .setthr = .f1 ∧ ∀ s : State, ∃ t : Half,
    t.toNat = min s.eng.a0.toNat 65535 ∧
    exec .setthr s = .next (State.completed true .noError { s with thresh := t })

/-- R89, R90: SENDBIT drives its level, waits one bit duration and completes; without a transmit pin it completes at
once with no event. -/
def Obligations.SendbitStepByStep : Prop :=
  decodeWord 0x00000004 = .ok .sendbit ∧ Instr.form .sendbit = .f1 ∧ ∀ s : State,
    (s.eng.point = .idle → s.params.txPin = none →
      exec .sendbit s = .next (State.completed true .noError s)) ∧
    (s.eng.point = .idle → s.params.txPin ≠ none →
      exec .sendbit s = .next (State.standing (.sendbit .drive) (State.inPhase .tx s))) ∧
    (s.eng.point = .sendbit .drive →
      exec .sendbit s = .next (State.standing (.sendbit .wait)
        (State.drove (if s.eng.a0 = 0 then false else true) s))) ∧
    (s.eng.point = .sendbit .wait →
      exec .sendbit s = .next (State.standing (.finish .success) (State.waited s.bitdur.toNat s)))

/-- R91: SEND, event by event: the head of its byte loop latches TXBUF[e.j] or goes to the final idle-high bit, and each
frame is a start bit, the data bits least-significant first, a stop bit and a gap. That the no-op without a transmit pin
completes in the step that issues it is the model's reading (log 5). -/
def Obligations.SendStepByStep : Prop :=
  decodeWord 0x00000005 = .ok .send ∧ Instr.form .send = .f1 ∧ ∀ s : State,
    (s.eng.point = .idle → s.params.txPin = none →
      exec .send s = .next (State.completed true .noError s)) ∧
    (s.eng.point = .idle → s.params.txPin ≠ none → s.eng.a0 = 0 →
      exec .send s = .next (State.standing (.send .idleDrive)
        { s with eng := { s.eng with phase := .tx, j := 0 } })) ∧
    (s.eng.point = .idle → s.params.txPin ≠ none → s.eng.a0 ≠ 0 →
      exec .send s = .next (State.standing (.send .startDrive)
        { s with eng := { s.eng with phase := .tx, j := 0, c := txByte s 0 } })) ∧
    (s.eng.point = .send .startDrive →
      exec .send s = .next (State.standing (.send .startWait) (State.drove false s))) ∧
    (s.eng.point = .send .startWait →
      exec .send s = .next (State.standing (.send .dataDrive)
        (State.waited s.bitdur.toNat { s with eng := { s.eng with i := 0 } }))) ∧
    (s.eng.point = .send .dataDrive →
      exec .send s = .next (State.standing (.send .dataWait) (State.drove (s.eng.c.getLsbD s.eng.i) s))) ∧
    (s.eng.point = .send .dataWait → s.eng.i < 7 →
      exec .send s = .next (State.standing (.send .dataDrive)
        (State.waited s.bitdur.toNat { s with eng := { s.eng with i := s.eng.i + 1 } }))) ∧
    (s.eng.point = .send .dataWait → 7 ≤ s.eng.i →
      exec .send s = .next (State.standing (.send .stopDrive) (State.waited s.bitdur.toNat s))) ∧
    (s.eng.point = .send .stopDrive →
      exec .send s = .next (State.standing (.send .stopWait) (State.drove true s))) ∧
    (s.eng.point = .send .stopWait →
      exec .send s = .next (State.standing (.send .gapWait) (State.waited s.bitdur.toNat s))) ∧
    (s.eng.point = .send .gapWait → s.eng.j + 1 < s.eng.a0.toNat →
      exec .send s = .next (State.standing (.send .startDrive) (State.waited s.bitdur.toNat
        { s with eng := { s.eng with j := s.eng.j + 1, c := txByte s (s.eng.j + 1) } }))) ∧
    (s.eng.point = .send .gapWait → s.eng.a0.toNat ≤ s.eng.j + 1 →
      exec .send s = .next (State.standing (.send .idleDrive) (State.waited s.bitdur.toNat
        { s with eng := { s.eng with j := s.eng.j + 1 } }))) ∧
    (s.eng.point = .send .idleDrive →
      exec .send s = .next (State.standing (.send .idleWait) (State.drove true s))) ∧
    (s.eng.point = .send .idleWait →
      exec .send s = .next (State.standing (.finish .success) (State.waited s.bitdur.toNat s)))

/-- R94: SampleAnalogP inside every command that calls it: a reading that is not the last is added to e.sum and
Wait(SPACING) follows it; after the wait the next reading is due. -/
def Obligations.OversamplingWaitsBetweenReadings : Prop :=
  ∀ (i : Instr) (f : SampleAt → Point) (s : State), SampleIn i f →
    (s.eng.point = f .read → ¬ s.lastReading → exec i s = .next (State.standing (f .space) s.sampled)) ∧
    (s.eng.point = f .space →
      exec i s = .next (State.standing (f .read)
        (State.waited s.spacing.toNat { s with eng := { s.eng with k := s.eng.k + 1 } })))

/-- R94, R97: SAMPLE starts SampleAnalogP, has RESULT 0 and no event without a receive pin, and completes with RESULT the
value SampleAnalogP returns. That without a receive pin it completes in the step that issues it is the model's reading
(log 5). -/
def Obligations.SampleStepByStep : Prop :=
  decodeWord 0x00000006 = .ok .sample ∧ Instr.form .sample = .f0 ∧ ∀ s : State,
    (s.eng.point = .idle → s.params.rxPin = none →
      exec .sample s = .next { State.completed true .noError s with result := 0 }) ∧
    (s.eng.point = .idle → s.params.rxPin ≠ none →
      exec .sample s = .next (State.standing (.sample .read) (State.sampleBegun (State.inPhase .sample s)))) ∧
    (s.eng.point = .sample .read → s.lastReading →
      exec .sample s = .next (State.standing (.finish ⟨true, .noError, some s.oversample, none⟩) s.sampled))

/-- R98: CALIB, step by step: the no-op, the start, the growing range, the wait that is skipped after the last sample,
and THRESH from the range. The model's readings: the no-op completes in the step that issues it (log 5), calK counts beside
SampleAnalogP's k (log 8), and THRESH is written with the last sample, a step before the completion (log 9). -/
def Obligations.CalibStepByStep : Prop :=
  decodeWord 0x00000007 = .ok .calib ∧ Instr.form .calib = .f2 ∧ ∀ s : State,
    (s.eng.point = .idle → (s.params.rxPin = none ∨ s.eng.a0 = 0) →
      exec .calib s = .next (State.completed true .noError s)) ∧
    (s.eng.point = .idle → s.params.rxPin ≠ none → s.eng.a0 ≠ 0 →
      exec .calib s = .next (State.standing (.calib (.sampling .read)) (State.sampleBegun
        { s with eng := { s.eng with phase := .cal, mn := 65535, mx := 0, calK := 0 } }))) ∧
    (s.eng.point = .calib (.sampling .read) → s.lastReading → ∃ mn mx : Half,
      mn.toNat = min s.eng.mn.toNat s.oversample.toNat ∧ mx.toNat = max s.eng.mx.toNat s.oversample.toNat ∧
      (s.eng.calK + 1 < s.eng.a0.toNat →
        exec .calib s = .next (State.standing (.calib .gapWait)
          { s.sampled with eng := { s.sampled.eng with mn := mn, mx := mx } })) ∧
      (s.eng.a0.toNat ≤ s.eng.calK + 1 →
        exec .calib s = .next (State.standing (.finish .success)
          { s.sampled with
            thresh := BitVec.ofNat 16 (if mx.toNat - mn.toNat < 10 then mn.toNat else (mn.toNat + mx.toNat) / 2)
            eng := { s.sampled.eng with mn := mn, mx := mx } }))) ∧
    (s.eng.point = .calib .gapWait →
      exec .calib s = .next (State.standing (.calib (.sampling .read)) (State.sampleBegun
        (State.waited s.eng.a1.toNat { s with eng := { s.eng with calK := s.eng.calK + 1 } }))))

/-- R101: WaitForStartBitP inside every command that calls it: the entry clock read, the run of lows, the confirmation
that goes to the half-bit wait, the clock read and the poll wait. -/
def Obligations.StartSearchStepByStep : Prop :=
  ∀ (i : Instr) (T : State → Nat) (f : SearchAt → Point) (s : State), SearchIn i T f →
    (s.eng.point = f .mark →
      exec i s = .next (State.standing (f (.sampling .read)) (State.sampleBegun
        { s.clocked with eng := { s.eng with t0 := clockValue s, run := 0 } }))) ∧
    (s.eng.point = f (.sampling .read) → s.lastReading → s.eng.need ≤ s.runNow →
      exec i s = .next (State.standing (f .alignWait)
        { s.sampled with eng := { s.sampled.eng with run := s.runNow, phase := .startDetected } })) ∧
    (s.eng.point = f (.sampling .read) → s.lastReading → s.runNow < s.eng.need → T s ≠ 0 →
      exec i s = .next (State.standing (f .clock)
        { s.sampled with eng := { s.sampled.eng with run := s.runNow } })) ∧
    (s.eng.point = f .clock → (clockValue s - s.eng.t0).toNat ≤ T s →
      exec i s = .next (State.standing (f .pollWait) s.clocked)) ∧
    (s.eng.point = f .pollWait →
      exec i s = .next (State.standing (f (.sampling .read))
        (State.sampleBegun (State.waited s.polldly.toNat s))))

/-- R101, R105: WAITSTART: it fails at once without a receive pin; else it searches, succeeds after the half-bit wait,
and fails with NO_START on a single-shot miss or when the elapsed time exceeds the timeout. -/
def Obligations.WaitstartStepByStep : Prop :=
  decodeWord 0x00000008 = .ok .waitstart ∧ Instr.form .waitstart = .f1 ∧ ∀ s : State,
    (s.eng.point = .idle → s.params.rxPin = none →
      exec .waitstart s = .next (State.completed false .noRxPin s)) ∧
    (s.eng.point = .idle → s.params.rxPin ≠ none →
      exec .waitstart s = .next (State.searchBegun s.eng.a0.toNat Point.waitstart s)) ∧
    (s.eng.point = .waitstart .alignWait →
      exec .waitstart s = .next (State.standing (.finish .success) (State.waited (s.bitdur.toNat / 2) s))) ∧
    (s.eng.point = .waitstart (.sampling .read) → s.lastReading → s.runNow < s.eng.need → s.eng.a0 = 0 →
      exec .waitstart s = .next (State.standing (.finish (.failure .noStart))
        { s.sampled with eng := { s.sampled.eng with run := s.runNow } })) ∧
    (s.eng.point = .waitstart .clock → s.eng.a0.toNat < (clockValue s - s.eng.t0).toNat →
      exec .waitstart s = .next (State.standing (.finish (.failure .noStart)) s.clocked))

/-- R106: ReceiveByteP inside every command that calls it: after the search one full bit duration, then eight data
samples, each setting its bit when above THRESH and followed by one bit duration, then the stop sample, which is a
desync when at or below THRESH. -/
def Obligations.ByteReceptionStepByStep : Prop :=
  ∀ (i : Instr) (f : ByteAt → Point) (s : State), ByteIn i f →
    (s.eng.point = f (.search .alignWait) →
      exec i s = .next (State.standing (f .firstWait) (State.waited (s.bitdur.toNat / 2) s))) ∧
    (s.eng.point = f .firstWait →
      exec i s = .next (State.standing (f (.data .read)) (State.sampleBegun (State.waited s.bitdur.toNat
        { s with eng := { s.eng with acc := 0, i := 0, phase := .data 0 } })))) ∧
    (s.eng.point = f (.data .read) → s.lastReading → s.oversample.toNat ≤ s.thresh.toNat →
      exec i s = .next (State.standing (f .dataWait) s.sampled)) ∧
    (s.eng.point = f (.data .read) → s.lastReading → s.thresh.toNat < s.oversample.toNat →
      exec i s = .next (State.standing (f .dataWait)
        { s.sampled with eng := { s.sampled.eng with acc := s.eng.acc ||| 1#8 <<< s.eng.i } })) ∧
    (∀ h : s.eng.i + 1 < 8, s.eng.point = f .dataWait →
      exec i s = .next (State.standing (f (.data .read)) (State.sampleBegun (State.waited s.bitdur.toNat
        { s with eng := { s.eng with i := s.eng.i + 1, phase := .data ⟨s.eng.i + 1, h⟩ } })))) ∧
    (s.eng.point = f .dataWait → 7 ≤ s.eng.i →
      exec i s = .next (State.standing (f (.stop .read)) (State.sampleBegun (State.waited s.bitdur.toNat
        (State.inPhase .stopCheck s))))) ∧
    (s.eng.point = f (.stop .read) → s.lastReading → s.oversample.toNat ≤ s.thresh.toNat →
      exec i s = .next (State.standing (f .settleWait) (State.inPhase .desync s.sampled))) ∧
    (s.eng.point = f (.stop .read) → s.lastReading → s.thresh.toNat < s.oversample.toNat →
      exec i s = .next (State.standing (f .closeWait) (State.inPhase .decoded s.sampled)))

/-- R107: RXBYTE: its start, and its completion after a decoded byte, a desync, a single-shot miss and a timeout. -/
def Obligations.RxbyteStepByStep : Prop :=
  decodeWord 0x00000009 = .ok .rxbyte ∧ Instr.form .rxbyte = .f1 ∧ ∀ s : State,
    (s.eng.point = .idle → s.params.rxPin = none →
      exec .rxbyte s = .next (State.completed false .noRxPin s)) ∧
    (s.eng.point = .idle → s.params.rxPin ≠ none →
      exec .rxbyte s = .next (State.searchBegun s.eng.a0.toNat (fun q => .rxbyte (.search q)) s)) ∧
    (s.eng.point = .rxbyte .closeWait →
      exec .rxbyte s = .next (State.standing (.finish ⟨true, .noError, some (s.eng.acc.setWidth 16), none⟩)
        (State.waited (s.bitdur.toNat / 2) s))) ∧
    (s.eng.point = .rxbyte .settleWait →
      exec .rxbyte s = .next (State.standing (.finish (.failure .desync)) (State.waited s.bitdur.toNat s))) ∧
    (s.eng.point = .rxbyte (.search (.sampling .read)) → s.lastReading → s.runNow < s.eng.need → s.eng.a0 = 0 →
      exec .rxbyte s = .next (State.standing (.finish (.failure .noStart))
        { s.sampled with eng := { s.sampled.eng with run := s.runNow } })) ∧
    (s.eng.point = .rxbyte (.search .clock) → s.eng.a0.toNat < (clockValue s - s.eng.t0).toNat →
      exec .rxbyte s = .next (State.standing (.finish (.failure .noStart)) s.clocked))

/-- R109: RXMSG: its start, a byte that goes to MSGBUF at once and ends the message when it is a line feed or the
maxChars-th, else is followed by the next receive, and a failed byte that ends it with what was accumulated. The model's
readings: with maxChars = 0 it completes in the step that issues it (log 5), and a last byte is in MSGBUF a step before the
completion (log 9). -/
def Obligations.RxmsgStepByStep : Prop :=
  decodeWord 0x0000000A = .ok .rxmsg ∧ Instr.form .rxmsg = .f2 ∧ ∀ s : State,
    (s.eng.point = .idle → s.eng.a0 = 0 →
      exec .rxmsg s = .next (State.completed false .empty
        { s with msglen := ⟨0, .maxChars⟩, eng := { s.eng with n := 0 } })) ∧
    (s.eng.point = .idle → s.eng.a0 ≠ 0 → s.params.rxPin = none →
      exec .rxmsg s = .next (State.completed false .noRxPin
        { s with msglen := ⟨0, .rxFail⟩, eng := { s.eng with n := 0 } })) ∧
    (s.eng.point = .idle → s.eng.a0 ≠ 0 → s.params.rxPin ≠ none →
      exec .rxmsg s = .next (State.searchBegun s.eng.a1.toNat (fun q => .rxmsg (.search q))
        { s with eng := { s.eng with n := 0 } })) ∧
    (s.eng.point = .rxmsg .closeWait → s.eng.n < 256 → s.eng.acc = 0x0A →
      exec .rxmsg s = .next (State.standing (.finish (messageEnd (s.eng.n + 1) .lineFeed .noError)) s.byteStored)) ∧
    (s.eng.point = .rxmsg .closeWait → s.eng.n < 256 → s.eng.acc ≠ 0x0A → s.eng.a0.toNat ≤ s.eng.n + 1 →
      exec .rxmsg s = .next (State.standing (.finish (messageEnd (s.eng.n + 1) .maxChars .noError)) s.byteStored)) ∧
    (s.eng.point = .rxmsg .closeWait → s.eng.n < 256 → s.eng.acc ≠ 0x0A → s.eng.n + 1 < s.eng.a0.toNat →
      s.params.rxPin ≠ none →
      exec .rxmsg s = .next (State.searchBegun s.eng.a1.toNat (fun q => .rxmsg (.search q)) s.byteStored)) ∧
    (∀ a : Nat, readByte s.byteStored a = if a = 0x200 + s.eng.n then s.eng.acc else readByte s a) ∧
    (s.eng.point = .rxmsg .settleWait →
      exec .rxmsg s = .next (State.standing (.finish (messageEnd s.eng.n .rxFail .desync))
        (State.waited s.bitdur.toNat s))) ∧
    (s.eng.point = .rxmsg (.search (.sampling .read)) → s.lastReading → s.runNow < s.eng.need → s.eng.a1 = 0 →
      exec .rxmsg s = .next (State.standing (.finish (messageEnd s.eng.n .rxFail .noStart))
        { s.sampled with eng := { s.sampled.eng with run := s.runNow } })) ∧
    (s.eng.point = .rxmsg (.search .clock) → s.eng.a1.toNat < (clockValue s - s.eng.t0).toNat →
      exec .rxmsg s = .next (State.standing (.finish (messageEnd s.eng.n .rxFail .noStart))
        s.clocked))

/-- R111, R112, R113: RXLOOP: its start (the first check is the engine's next step, log 6 and 7), the iteration check
that alone sees a stop request, the receive attempt with LoopT ≥ 1, the byte handed to the sink until it accepts, and the
backoff wait after every failed attempt. -/
def Obligations.RxloopStepByStep : Prop :=
  decodeWord 0x0000000B = .ok .rxloop ∧ Instr.form .rxloop = .f0 ∧ ∀ s : State,
    (s.eng.point = .idle →
      exec .rxloop s = .next (State.standing (.rxloop .check) (State.inPhase .startSearch s))) ∧
    (s.eng.point = .rxloop .check → s.eng.stopReq = true →
      exec .rxloop s = .next (State.completed true .noError
        { s with eng := { s.eng with stopReq := false } })) ∧
    (s.eng.point = .rxloop .check → s.eng.stopReq = false → s.params.rxPin = none →
      exec .rxloop s = .next (State.standing (.rxloop .backoff) (State.inPhase .loopBackoff s))) ∧
    (s.eng.point = .rxloop .check → s.eng.stopReq = false → s.params.rxPin ≠ none → 1 ≤ s.params.loopBias →
      exec .rxloop s = .next (State.standing (.rxloop (.byte (.search .mark)))
        { s with eng := { s.eng with phase := .startSearch, need := 3 } })) ∧
    (s.eng.point = .rxloop (.byte (.search .clock)) →
      2 * s.bitdur.toNat / 1000 + s.params.loopBias < (clockValue s - s.eng.t0).toNat →
      exec .rxloop s = .next (State.standing (.rxloop .backoff) (State.inPhase .loopBackoff s.clocked))) ∧
    (s.eng.point = .rxloop (.byte .settleWait) →
      exec .rxloop s = .next (State.standing (.rxloop .backoff)
        (State.inPhase .loopBackoff (State.waited s.bitdur.toNat s)))) ∧
    (s.eng.point = .rxloop (.byte .closeWait) →
      exec .rxloop s = .next (State.standing (.rxloop .emit)
        (State.inPhase .loopEmit (State.waited (s.bitdur.toNat / 2) s)))) ∧
    (s.eng.point = .rxloop .emit → sinkAccepts s = true →
      exec .rxloop s = .next (State.standing (.rxloop .check)
        { s with events := s.events ++ [.emit s.eng.acc], env := s.env.afterOffer })) ∧
    (s.eng.point = .rxloop .emit → sinkAccepts s = false →
      exec .rxloop s = .next { s with env := s.env.afterOffer }) ∧
    (s.eng.point = .rxloop .backoff →
      exec .rxloop s = .next (State.standing (.rxloop .check) (State.waited s.polldly.toNat s)))

/-! ## Whole commands

The step counts of these statements rest on the model's step boundaries: an event a step (log 3), and `complete` a step of
its own (log 9). -/

/-- R91: a SEND of L bytes of TXBUF with a transmit pin emits exactly its frames and the final idle-high bit, completes
with OK, and leaves the line high; registers, buffers and configuration are as before. -/
def Obligations.SendTransmitsFramesThenIdles : Prop :=
  ∀ s : State, s.status.busy = false → s.agenda = [.access (.write 0x000 0x00000005)] →
    s.params.txPin ≠ none → s.arg0.toNat ≤ 256 →
    ∃ t, steps (21 * s.arg0.toNat + 4) s = .next t ∧
      t.events = s.events ++ sendEvents s.bitdur.toNat ((List.range s.arg0.toNat).map (txByte s)) ∧
      t.txLevel = true ∧ t.status = { s.status with busy := false, ok := true, err := .noError } ∧
      t.mem = s.mem ∧ t.result = s.result ∧ t.msglen = s.msglen ∧ t.bitdur = s.bitdur ∧ t.thresh = s.thresh ∧
      t.spb = s.spb ∧ t.spacing = s.spacing ∧ t.polldly = s.polldly ∧ t.env = s.env

/-- R91, R144: with a transmit pin a SEND of N bytes, from its issue to its completion, issues 10N + 1 drives, 11N + 1
waits and no other event, and requests (11N + 1)·bd of waiting. -/
def Obligations.SendEventCounts : Prop :=
  ∀ s : State, s.status.busy = false → s.agenda = [.access (.write 0x000 0x00000005)] →
    s.params.txPin ≠ none → s.arg0.toNat ≤ 256 →
    ∃ t new, steps (21 * s.arg0.toNat + 4) s = .next t ∧ t.events = s.events ++ new ∧
      driveCount new = 10 * s.arg0.toNat + 1 ∧ waitCount new = 11 * s.arg0.toNat + 1 ∧
      new.length = 21 * s.arg0.toNat + 2 ∧ requestedWait new = (11 * s.arg0.toNat + 1) * s.bitdur.toNat ∧
      t.status.busy = false

/-- R92: in the reference timing model the frame of byte c that starts at time τ holds the line low for one bit duration,
then at each data bit's level for one, then high for two. -/
def Obligations.FrameOccupiesElevenBitDurations : Prop :=
  ∀ (bitdur τ t : Nat) (level : Bool) (c : Byte), 1 ≤ bitdur →
    (τ ≤ t → t < τ + bitdur → lineLevelAt t τ level (frameEvents bitdur c) = false) ∧
    (∀ i : Nat, i < 8 → τ + (i + 1) * bitdur ≤ t → t < τ + (i + 2) * bitdur →
      lineLevelAt t τ level (frameEvents bitdur c) = c.getLsbD i) ∧
    (τ + 9 * bitdur ≤ t → t < τ + 11 * bitdur → lineLevelAt t τ level (frameEvents bitdur c) = true) ∧
    requestedWait (frameEvents bitdur c) = 11 * bitdur

/-- R94, R95, R97: a SAMPLE takes SPB readings with a wait between every two and none after the last, and its RESULT is
their truncated average, which lies between the smallest and the largest of them. -/
def Obligations.SampleAveragesItsReadings : Prop :=
  ∀ (s : State) (readings more : List Half), s.status.busy = false →
    s.agenda = [.access (.write 0x000 0x00000006)] → s.params.rxPin ≠ none →
    1 ≤ s.spb.toNat → readings.length = s.spb.toNat → s.env.samples = readings ++ more →
    ∃ t, steps (2 * s.spb.toNat + 1) s = .next t ∧
      t.result.toNat = (readings.map BitVec.toNat).sum / s.spb.toNat ∧
      (∀ lo : Nat, (∀ r ∈ readings, lo ≤ r.toNat) → lo ≤ t.result.toNat) ∧
      (∀ hi : Nat, (∀ r ∈ readings, r.toNat ≤ hi) → t.result.toNat ≤ hi) ∧
      t.events = s.events ++ oversampleEvents s.spacing.toNat readings ∧
      t.env.samples = more ∧ t.status = { s.status with busy := false, ok := true, err := .noError }

/-- R98, R99: a CALIB of C oversampled samples ends with THRESH the smallest when the range is below 10, else the
midpoint of the smallest and the largest, rounded down: a function of the readings alone, whatever THRESH was. -/
def Obligations.CalibSetsThresholdFromItsSamples : Prop :=
  ∀ (s : State) (groups : List (List Half)) (more : List Half) (mn mx : Nat), s.status.busy = false →
    s.agenda = [.access (.write 0x000 0x00000007)] → s.params.rxPin ≠ none →
    1 ≤ s.spb.toNat → 1 ≤ s.arg0.toNat → groups.length = s.arg0.toNat →
    (∀ g ∈ groups, g.length = s.spb.toNat) → s.env.samples = groups.flatten ++ more →
    (∃ g ∈ groups, averageOf g = mn) → (∀ g ∈ groups, mn ≤ averageOf g) →
    (∃ g ∈ groups, averageOf g = mx) → (∀ g ∈ groups, averageOf g ≤ mx) →
    ∃ t, steps (2 * s.spb.toNat * s.arg0.toNat + 1) s = .next t ∧
      t.thresh.toNat = (if mx - mn < 10 then mn else (mn + mx) / 2) ∧
      t.env.samples = more ∧ t.status = { s.status with busy := false, ok := true, err := .noError } ∧
      t.bitdur = s.bitdur ∧ t.spb = s.spb ∧ t.spacing = s.spacing ∧ t.polldly = s.polldly

/-- V-SRC-2 (R91, R101, R106, R107): the levels SEND drives for byte b, shown to a receiver through the simulated
channel, are received as exactly b, single-shot and, with the start bit shown as three low samples and a clock that
stands still, with a timeout. -/
def Obligations.SentByteIsReceivedExactly : Prop :=
  ∀ (s : State) (b : Byte) (hi lo : Half) (more : List Half), s.status.busy = false →
    s.agenda = [.access (.write 0x000 0x00000009)] → s.params.rxPin ≠ none → s.spb.toNat = 1 →
    lo.toNat ≤ s.thresh.toNat → s.thresh.toNat < hi.toNat →
    (s.arg0 = 0 → s.env.samples = frameSamples hi lo b ++ more →
      ∃ t, steps 23 s = .next t ∧ t.result = b.setWidth 16 ∧
        t.status = { s.status with busy := false, ok := true, err := .noError } ∧ t.env.samples = more) ∧
    (∀ more' : List Nat, s.arg0 ≠ 0 → s.env.samples = lo :: lo :: (frameSamples hi lo b ++ more) →
      s.env.clockSteps = 0 :: 0 :: 0 :: more' →
      ∃ t, steps 30 s = .next t ∧ t.result = b.setWidth 16 ∧
        t.status = { s.status with busy := false, ok := true, err := .noError } ∧ t.env.samples = more)

/-- R106, R107: a frame whose stop sample is at or below THRESH is a desync: RXBYTE fails, RESULT keeps its value, and
the line is left one bit duration to settle. -/
def Obligations.LowStopSampleIsDesync : Prop :=
  ∀ (s : State) (start stop : Half) (data more : List Half), s.status.busy = false →
    s.agenda = [.access (.write 0x000 0x00000009)] → s.params.rxPin ≠ none → s.spb.toNat = 1 → s.arg0 = 0 →
    start.toNat ≤ s.thresh.toNat → stop.toNat ≤ s.thresh.toNat → data.length = 8 →
    s.env.samples = start :: (data ++ stop :: more) →
    ∃ t, steps 23 s = .next t ∧ t.result = s.result ∧
      t.status = { s.status with busy := false, ok := false, err := .desync } ∧
      ∃ before, t.events = s.events ++ before ++ [.sample stop, .wait s.bitdur.toNat]

/-- R108 (single-shot, one reading a bit): in the reference timing model, with the confirming sample at time a, data
sample i is taken at a + bd/2 + bd + i·bd and the stop sample at a + bd/2 + 9·bd. -/
def Obligations.SingleShotSamplesAtBitIntervals : Prop :=
  ∀ (s : State) (channel : Nat → Half) (a c0 : Nat) (more : List Half), s.status.busy = false →
    s.agenda = [.access (.write 0x000 0x00000009)] → s.params.rxPin ≠ none → s.spb.toNat = 1 → s.arg0 = 0 →
    (channel a).toNat ≤ s.thresh.toNat →
    s.env.samples = channel a ::
      ((List.range 9).map (fun i => channel (a + s.bitdur.toNat / 2 + s.bitdur.toNat + i * s.bitdur.toNat)) ++ more) →
    ∃ t new, steps 23 s = .next t ∧ t.events = s.events ++ new ∧ followsReference c0 (some channel) a new = true ∧
      t.env.samples = more

/-- R108 (reset configuration, timed path; 90 C8): in the reference timing model, with a line that is idle high until time e
and carries SEND's frame of byte b from then on, an RXBYTE whose search starts at time b0 and whose first low sample, after
k high ones, is at a1 = b0 + 250·k in [e, e + 250): it samples one bit late and reads (b >> 1) | 0x80, with a valid stop bit,
when its timeout does not run out before the third low sample. -/
def Obligations.TimedReceptionReadsOneBitLate : Prop :=
  ∀ (s : State) (b : Byte) (hi lo : Half) (e b0 k a1 c0 d : Nat) (channel : Nat → Half) (more : List Half)
    (later : List Nat),
    s.status.busy = false → s.agenda = [.access (.write 0x000 0x00000009)] → s.params.rxPin ≠ none →
    s.bitdur.toNat = 1000 → s.polldly.toNat = 250 → s.spb.toNat = 1 → s.arg0 ≠ 0 →
    lo.toNat ≤ s.thresh.toNat → s.thresh.toNat < hi.toNat →
    (∀ τ : Nat, b0 ≤ τ → τ < e + 11000 →
      channel τ = channelSample hi lo (lineLevelAt τ e true (frameEvents 1000 b))) →
    a1 = b0 + 250 * k → e ≤ a1 → a1 < e + 250 → (a1 + 250) / 1000 - b0 / 1000 ≤ s.arg0.toNat →
    s.env.samples = (List.range (k + 3)).map (fun j => channel (b0 + 250 * j)) ++
      ((List.range 9).map (fun i => channel (a1 + 2000 + i * 1000)) ++ more) →
    s.env.clock + d = c0 + b0 / 1000 →
    s.env.clockSteps =
      d :: 0 :: ((List.range (k + 1)).map (fun j => (b0 + 250 * (j + 1)) / 1000 - (b0 + 250 * j) / 1000) ++ later) →
    ∃ t new, steps (3 * k + 30) s = .next t ∧ t.result = ((b >>> 1) ||| 0x80#8).setWidth 16 ∧
      t.status = { s.status with busy := false, ok := true, err := .noError } ∧
      t.events = s.events ++ new ∧ followsReference c0 (some channel) b0 new = true ∧
      t.env.samples = more ∧ t.env.clockSteps = later

/-- R104: a timed search whose samples are all high fails at the first clock reading that is more than T after the entry
reading, with NO_START. -/
def Obligations.TimedSearchFailsWhenElapsedExceeds : Prop :=
  ∀ (s : State) (highs more : List Half) (entry : Nat) (advances later : List Nat), s.status.busy = false →
    s.agenda = [.access (.write 0x000 0x00000008)] → s.params.rxPin ≠ none → s.spb.toNat = 1 → s.arg0 ≠ 0 →
    (∀ v ∈ highs, s.thresh.toNat < v.toNat) → highs.length = advances.length →
    s.env.samples = highs ++ more → s.env.clockSteps = entry :: (advances ++ later) →
    (∀ k : Nat, k < advances.length → (advances.take k).sum ≤ s.arg0.toNat) →
    s.arg0.toNat < advances.sum → advances.sum < 2 ^ 32 →
    ∃ t, steps (3 * advances.length + 2) s = .next t ∧
      t.status = { s.status with busy := false, ok := false, err := .noStart } ∧
      t.env.samples = more ∧ t.env.clockSteps = later ∧ t.result = s.result ∧ t.msglen = s.msglen

/-- R109, R110: single-shot RXMSG on a channel that shows the frames of a message of at most maxChars bytes, in which a
line feed can only be last, and which is full or ends with one: exactly those bytes are in MSGBUF, MSGLEN says how many and
why it ended, OK is 1, and the bytes beyond keep their values. -/
def Obligations.MessageIsReceivedExactly : Prop :=
  ∀ (s : State) (bytes : List Byte) (hi lo : Half) (more : List Half), s.status.busy = false →
    s.agenda = [.access (.write 0x000 0x0000000A)] → s.params.rxPin ≠ none → s.spb.toNat = 1 → s.arg1 = 0 →
    s.arg0.toNat ≤ 256 → lo.toNat ≤ s.thresh.toNat → s.thresh.toNat < hi.toNat →
    bytes ≠ [] → bytes.length ≤ s.arg0.toNat → (∀ b ∈ bytes.dropLast, b ≠ 0x0A) →
    (bytes.length = s.arg0.toNat ∨ bytes.getLast? = some 0x0A) →
    s.env.samples = bytes.flatMap (frameSamples hi lo) ++ more →
    ∃ t, steps (21 * bytes.length + 2) s = .next t ∧
      (∀ i : Nat, ∀ h : i < bytes.length, msgByte t i = bytes[i]) ∧
      (∀ i : Nat, bytes.length ≤ i → msgByte t i = msgByte s i) ∧
      t.msglen = ⟨BitVec.ofNat 9 bytes.length, if bytes.getLast? = some 0x0A then .lineFeed else .maxChars⟩ ∧
      t.status = { s.status with busy := false, ok := true, err := .noError } ∧
      t.env.samples = more ∧ t.result = s.result

/-- R112, C7: without a receive pin RXLOOP is an endless sequence of Wait(POLLDLY), never completing by itself. That a round
is two steps, the iteration check and the wait, is the model's reading (log 6). -/
def Obligations.LoopWithoutPinBacksOffForever : Prop :=
  ∀ (s : State) (n : Nat), s.status.busy = true → s.eng.op = 0x0B → s.eng.point = .rxloop .check →
    s.eng.stopReq = false → s.params.rxPin = none → s.agenda = [] →
    ∃ t, steps (2 * n) s = .next t ∧ t.events = s.events ++ List.replicate n (.wait s.polldly.toNat) ∧
      t.status = s.status ∧ t.eng.point = .rxloop .check

/-- R81, R51: TXLOAD while idle leaves the string in TXBUF, byte by byte, zeros up to the end of its last word, and
nothing else of the buffers changed. -/
def Obligations.TxloadFillsTransmitBuffer : Prop :=
  ∀ (s : State) (bytes : List Byte), s.status.busy = false → bytes.length ≤ 256 →
    s.agenda = asmTurns (.txload bytes) →
    ∃ t, steps ((bytes.length + 3) / 4) s = .next t ∧
      (∀ i : Nat, ∀ h : i < bytes.length, txByte t i = bytes[i]) ∧
      (∀ i : Nat, bytes.length ≤ i → i < 4 * ((bytes.length + 3) / 4) → txByte t i = 0) ∧
      (∀ a : Nat, 0x100 + 4 * ((bytes.length + 3) / 4) ≤ a → readByte t a = readByte s a) ∧
      t = { s with agenda := [], mem := t.mem }

/-! ## What commands leave unchanged -/

/-- R15, R50, R66: an atomic step of any command leaves alone the host's registers CMD, ARG0 and ARG1, the refusal
record, the latched opcode and operands, the instance's parameters, the turns to come and the host's record. -/
def Obligations.CommandsLeaveHostSideAlone : Prop :=
  ∀ (i : Instr) (s t : State), exec i s = .next t →
    t.cmd = s.cmd ∧ t.arg0 = s.arg0 ∧ t.arg1 = s.arg1 ∧ t.params = s.params ∧ t.agenda = s.agenda ∧
    t.reads = s.reads ∧ t.epoch = s.epoch ∧ t.status.hostErr = s.status.hostErr ∧
    t.status.hcause = s.status.hcause ∧ t.eng.op = s.eng.op ∧ t.eng.a0 = s.eng.a0 ∧ t.eng.a1 = s.eng.a1 ∧
    (t.eng.stopReq = s.eng.stopReq ∨ i = .rxloop ∧ t.eng.stopReq = false)

/-- R27 to R31, R83, R100: BITDUR is written by SETBD only, SPB by SETSPB only, THRESH by SETTHR and CALIB only, and the
derived delays by SETBD and SETSPB only. -/
def Obligations.ConfigurationHasItsWriters : Prop :=
  ∀ (i : Instr) (s t : State), exec i s = .next t →
    (i ≠ .setbd → t.bitdur = s.bitdur) ∧ (i ≠ .setspb → t.spb = s.spb) ∧
    (i ≠ .setthr → i ≠ .calib → t.thresh = s.thresh) ∧
    (i ≠ .setbd → i ≠ .setspb → t.spacing = s.spacing ∧ t.polldly = s.polldly)

/-- R25, R26, R24: while a command runs its steps leave STATUS, RESULT and MSGLEN alone; only its completing step changes
them, RESULT only for SAMPLE and RXBYTE, MSGLEN only for RXMSG. -/
def Obligations.ResultsAreWrittenAtCompletion : Prop :=
  ∀ (i : Instr) (s t : State), s.Inv → s.status.busy = true → s.eng.op = opcode i → exec i s = .next t →
    (t.status = s.status ∧ t.result = s.result ∧ t.msglen = s.msglen) ∨
    (t.status.busy = false ∧ t.eng.point = .idle ∧ t.eng.phase = .idle ∧ t.events = s.events ∧
      (i ≠ .sample → i ≠ .rxbyte → t.result = s.result) ∧ (i ≠ .rxmsg → t.msglen = s.msglen) ∧
      (t.status.ok = false → t.result = s.result))

/-- R34, R39: no command writes TXBUF, and of MSGBUF an atomic step of RXMSG writes at most byte e.n, which is the
byte it has just decoded; no other command writes a buffer byte. -/
def Obligations.CommandsWriteOnlyMessageBytes : Prop :=
  ∀ (i : Instr) (s t : State), exec i s = .next t →
    (i ≠ .rxmsg → ∀ a : Nat, readByte t a = readByte s a) ∧
    (i = .rxmsg → (∀ a : Nat, a ≠ 0x200 + s.eng.n → readByte t a = readByte s a) ∧
      (s.eng.point ≠ .rxmsg .closeWait → ∀ a : Nat, readByte t a = readByte s a))

/-- R35, R59, R66: an atomic step of a command issues at most one event, and the line changes only with a Drive, to its
argument. -/
def Obligations.OneEventPerStepAndLineFollowsDrive : Prop :=
  ∀ (i : Instr) (s t : State), exec i s = .next t →
    (t.events = s.events ∧ t.txLevel = s.txLevel) ∨
    (∃ e, t.events = s.events ++ [e] ∧
      (∀ l, e = .drive l → t.txLevel = l) ∧ ((∀ l, e ≠ .drive l) → t.txLevel = s.txLevel))

/-- R12, R61: with the invariant, a Drive is issued only with a transmit pin, a Sample only with a receive pin, a Now only
inside the start-bit search, an Emit only in RXLOOP. -/
def Obligations.EventsAreIssuedWhereAllowed : Prop :=
  ∀ (s t : State) (e : Event), s.Inv → step s = .next t → t.events = s.events ++ [e] →
    (∀ l, e = .drive l → s.params.txPin ≠ none) ∧
    (∀ v, e = .sample v → s.params.rxPin ≠ none) ∧
    (∀ m, e = .now m → s.params.rxPin ≠ none ∧ s.eng.phase = .startSearch) ∧
    (∀ b, e = .emit b → s.eng.op = 0x0B ∧ s.eng.phase = .loopEmit ∧ b = s.eng.acc)

/-- R62: the clock M never goes back, and a Now returns M mod 2^32 at the event. -/
def Obligations.ClockReadingsAreMonotone : Prop :=
  ∀ s t : State, step s = .next t →
    s.env.clock ≤ t.env.clock ∧
    (∀ m, t.events = s.events ++ [.now m] → m = BitVec.ofNat 32 t.env.clock)

/-- R56, R59, R118: a host access that issues no command changes no event, no line level, no configuration register, no
RESULT, MSGLEN or MSGBUF byte, and of the engine at most the stop request. -/
def Obligations.HostAccessesLeaveEngineAlone : Prop :=
  ∀ (s t : State) (a : Access) (rest : List Turn), s.agenda = .access a :: rest → step s = .next t →
    (∀ w, a ≠ .write 0x000 w) →
    t.events = s.events ∧ t.txLevel = s.txLevel ∧ t.env = s.env ∧ t.bitdur = s.bitdur ∧ t.thresh = s.thresh ∧
    t.spb = s.spb ∧ t.spacing = s.spacing ∧ t.polldly = s.polldly ∧ t.result = s.result ∧ t.msglen = s.msglen ∧
    t.cmd = s.cmd ∧ t.params = s.params ∧ t.status.busy = s.status.busy ∧ t.status.ok = s.status.ok ∧
    t.status.err = s.status.err ∧ t.eng = { s.eng with stopReq := t.eng.stopReq } ∧
    (∀ i : Nat, msgByte t i = msgByte s i) ∧ t.agenda = rest

/-! ## Invariants and whole-machine rules -/

/-- The invariant holds after reset. -/
def Obligations.InvariantHoldsAtReset : Prop := State.reset.Inv

/-- R32, R36, R37 and the bounds of the loops: every atomic step, of whatever turn, keeps the invariant. -/
def Obligations.EveryStepKeepsInvariant : Prop :=
  ∀ s t : State, s.Inv → step s = .next t → t.Inv

/-- R27, R29, R32: the configuration is consistent after reset, and every atomic step keeps it so, whatever else the state
holds: BITDUR and SPB never 0, SPACING and POLLDLY always those of R32. -/
def Obligations.DerivedTimingStaysConsistent : Prop :=
  State.reset.Timing ∧ ∀ s t : State, s.Timing → step s = .next t → t.Timing

/-- R122, R76: nothing traps: from every state of the invariant, the next atomic step is an ordinary next state. -/
def Obligations.NothingTraps : Prop :=
  ∀ s : State, s.Inv → ∃ t, step s = .next t

/-- R6: no atomic step changes the instance's parameters. -/
def Obligations.ParametersNeverChange : Prop :=
  ∀ s t : State, step s = .next t → t.params = s.params

/-- R45, R70: TXBUF does not change while a command runs, whatever turns come, short of a reset: SEND sends the bytes
TXBUF held at issue. -/
def Obligations.TransmitBufferIsStableWhileBusy : Prop :=
  ∀ s t : State, s.Inv → s.status.busy = true → (∀ rest, s.agenda ≠ .reset :: rest) → step s = .next t →
    ∀ i : Nat, i < 256 → txByte t i = txByte s i

/-- R20, R45, R88: while a command runs, the registers it was issued under do not change but by the command itself: CMD,
ARG0, ARG1, BITDUR and SPB stay, short of a reset, in every step that leaves it running. -/
def Obligations.RunningCommandKeepsItsConfiguration : Prop :=
  ∀ s t : State, s.Inv → s.status.busy = true → (∀ rest, s.agenda ≠ .reset :: rest) → step s = .next t →
    t.cmd = s.cmd ∧ t.arg0 = s.arg0 ∧ t.arg1 = s.arg1 ∧ t.eng.op = s.eng.op ∧ t.eng.a0 = s.eng.a0 ∧
    t.eng.a1 = s.eng.a1 ∧ t.bitdur = s.bitdur ∧ t.spb = s.spb ∧ t.spacing = s.spacing ∧ t.polldly = s.polldly ∧
    (t.thresh = s.thresh ∨ s.eng.op = 0x07)
end

