-- ==== Sys2Proof/Laws/State.lean ====
section
/-! SUPPORT. What each named operation does to each field of State, one simp lemma an operation (simp reads the
conjunction as one rewrite a field). No later proof unfolds a record update. -/

namespace Sys2Proof.Machine

@[simp] theorem goto_fields (p : Point) (s : State) :
    (goto p s).cmd = s.cmd ∧
    (goto p s).arg0 = s.arg0 ∧
    (goto p s).arg1 = s.arg1 ∧
    (goto p s).status = s.status ∧
    (goto p s).result = s.result ∧
    (goto p s).msglen = s.msglen ∧
    (goto p s).bitdur = s.bitdur ∧
    (goto p s).thresh = s.thresh ∧
    (goto p s).spb = s.spb ∧
    (goto p s).spacing = s.spacing ∧
    (goto p s).polldly = s.polldly ∧
    (goto p s).params = s.params ∧
    (goto p s).mem = s.mem ∧
    (goto p s).epoch = s.epoch ∧
    (goto p s).txLevel = s.txLevel ∧
    (goto p s).eng = { s.eng with point := p } ∧
    (goto p s).env = s.env ∧
    (goto p s).agenda = s.agenda ∧
    (goto p s).events = s.events ∧
    (goto p s).reads = s.reads :=
  ⟨rfl, rfl, rfl, rfl, rfl, rfl, rfl, rfl, rfl, rfl, rfl, rfl, rfl, rfl, rfl, rfl, rfl, rfl, rfl, rfl⟩

@[simp] theorem setPhase_fields (ph : Phase) (s : State) :
    (setPhase ph s).cmd = s.cmd ∧
    (setPhase ph s).arg0 = s.arg0 ∧
    (setPhase ph s).arg1 = s.arg1 ∧
    (setPhase ph s).status = s.status ∧
    (setPhase ph s).result = s.result ∧
    (setPhase ph s).msglen = s.msglen ∧
    (setPhase ph s).bitdur = s.bitdur ∧
    (setPhase ph s).thresh = s.thresh ∧
    (setPhase ph s).spb = s.spb ∧
    (setPhase ph s).spacing = s.spacing ∧
    (setPhase ph s).polldly = s.polldly ∧
    (setPhase ph s).params = s.params ∧
    (setPhase ph s).mem = s.mem ∧
    (setPhase ph s).epoch = s.epoch ∧
    (setPhase ph s).txLevel = s.txLevel ∧
    (setPhase ph s).eng = { s.eng with phase := ph } ∧
    (setPhase ph s).env = s.env ∧
    (setPhase ph s).agenda = s.agenda ∧
    (setPhase ph s).events = s.events ∧
    (setPhase ph s).reads = s.reads :=
  ⟨rfl, rfl, rfl, rfl, rfl, rfl, rfl, rfl, rfl, rfl, rfl, rfl, rfl, rfl, rfl, rfl, rfl, rfl, rfl, rfl⟩

@[simp] theorem record_fields (e : Event) (s : State) :
    (record e s).cmd = s.cmd ∧
    (record e s).arg0 = s.arg0 ∧
    (record e s).arg1 = s.arg1 ∧
    (record e s).status = s.status ∧
    (record e s).result = s.result ∧
    (record e s).msglen = s.msglen ∧
    (record e s).bitdur = s.bitdur ∧
    (record e s).thresh = s.thresh ∧
    (record e s).spb = s.spb ∧
    (record e s).spacing = s.spacing ∧
    (record e s).polldly = s.polldly ∧
    (record e s).params = s.params ∧
    (record e s).mem = s.mem ∧
    (record e s).epoch = s.epoch ∧
    (record e s).txLevel = s.txLevel ∧
    (record e s).eng = s.eng ∧
    (record e s).env = s.env ∧
    (record e s).agenda = s.agenda ∧
    (record e s).events = s.events ++ [e] ∧
    (record e s).reads = s.reads :=
  ⟨rfl, rfl, rfl, rfl, rfl, rfl, rfl, rfl, rfl, rfl, rfl, rfl, rfl, rfl, rfl, rfl, rfl, rfl, rfl, rfl⟩

@[simp] theorem driveLine_fields (l : Bool) (s : State) :
    (driveLine l s).cmd = s.cmd ∧
    (driveLine l s).arg0 = s.arg0 ∧
    (driveLine l s).arg1 = s.arg1 ∧
    (driveLine l s).status = s.status ∧
    (driveLine l s).result = s.result ∧
    (driveLine l s).msglen = s.msglen ∧
    (driveLine l s).bitdur = s.bitdur ∧
    (driveLine l s).thresh = s.thresh ∧
    (driveLine l s).spb = s.spb ∧
    (driveLine l s).spacing = s.spacing ∧
    (driveLine l s).polldly = s.polldly ∧
    (driveLine l s).params = s.params ∧
    (driveLine l s).mem = s.mem ∧
    (driveLine l s).epoch = s.epoch ∧
    (driveLine l s).txLevel = l ∧
    (driveLine l s).eng = s.eng ∧
    (driveLine l s).env = s.env ∧
    (driveLine l s).agenda = s.agenda ∧
    (driveLine l s).events = s.events ++ [.drive l] ∧
    (driveLine l s).reads = s.reads :=
  ⟨rfl, rfl, rfl, rfl, rfl, rfl, rfl, rfl, rfl, rfl, rfl, rfl, rfl, rfl, rfl, rfl, rfl, rfl, rfl, rfl⟩

@[simp] theorem waitFor_fields (us : Nat) (s : State) :
    (waitFor us s).cmd = s.cmd ∧
    (waitFor us s).arg0 = s.arg0 ∧
    (waitFor us s).arg1 = s.arg1 ∧
    (waitFor us s).status = s.status ∧
    (waitFor us s).result = s.result ∧
    (waitFor us s).msglen = s.msglen ∧
    (waitFor us s).bitdur = s.bitdur ∧
    (waitFor us s).thresh = s.thresh ∧
    (waitFor us s).spb = s.spb ∧
    (waitFor us s).spacing = s.spacing ∧
    (waitFor us s).polldly = s.polldly ∧
    (waitFor us s).params = s.params ∧
    (waitFor us s).mem = s.mem ∧
    (waitFor us s).epoch = s.epoch ∧
    (waitFor us s).txLevel = s.txLevel ∧
    (waitFor us s).eng = s.eng ∧
    (waitFor us s).env = s.env ∧
    (waitFor us s).agenda = s.agenda ∧
    (waitFor us s).events = s.events ++ [.wait us] ∧
    (waitFor us s).reads = s.reads :=
  ⟨rfl, rfl, rfl, rfl, rfl, rfl, rfl, rfl, rfl, rfl, rfl, rfl, rfl, rfl, rfl, rfl, rfl, rfl, rfl, rfl⟩

@[simp] theorem takeSample_fields (s : State) :
    (takeSample s).cmd = s.cmd ∧
    (takeSample s).arg0 = s.arg0 ∧
    (takeSample s).arg1 = s.arg1 ∧
    (takeSample s).status = s.status ∧
    (takeSample s).result = s.result ∧
    (takeSample s).msglen = s.msglen ∧
    (takeSample s).bitdur = s.bitdur ∧
    (takeSample s).thresh = s.thresh ∧
    (takeSample s).spb = s.spb ∧
    (takeSample s).spacing = s.spacing ∧
    (takeSample s).polldly = s.polldly ∧
    (takeSample s).params = s.params ∧
    (takeSample s).mem = s.mem ∧
    (takeSample s).epoch = s.epoch ∧
    (takeSample s).txLevel = s.txLevel ∧
    (takeSample s).eng = s.eng ∧
    (takeSample s).env = s.env.afterSample ∧
    (takeSample s).agenda = s.agenda ∧
    (takeSample s).events = s.events ++ [.sample (sampleValue s)] ∧
    (takeSample s).reads = s.reads :=
  ⟨rfl, rfl, rfl, rfl, rfl, rfl, rfl, rfl, rfl, rfl, rfl, rfl, rfl, rfl, rfl, rfl, rfl, rfl, rfl, rfl⟩

@[simp] theorem readClock_fields (s : State) :
    (readClock s).cmd = s.cmd ∧
    (readClock s).arg0 = s.arg0 ∧
    (readClock s).arg1 = s.arg1 ∧
    (readClock s).status = s.status ∧
    (readClock s).result = s.result ∧
    (readClock s).msglen = s.msglen ∧
    (readClock s).bitdur = s.bitdur ∧
    (readClock s).thresh = s.thresh ∧
    (readClock s).spb = s.spb ∧
    (readClock s).spacing = s.spacing ∧
    (readClock s).polldly = s.polldly ∧
    (readClock s).params = s.params ∧
    (readClock s).mem = s.mem ∧
    (readClock s).epoch = s.epoch ∧
    (readClock s).txLevel = s.txLevel ∧
    (readClock s).eng = s.eng ∧
    (readClock s).env = s.env.afterClock ∧
    (readClock s).agenda = s.agenda ∧
    (readClock s).events = s.events ++ [.now (clockValue s)] ∧
    (readClock s).reads = s.reads :=
  ⟨rfl, rfl, rfl, rfl, rfl, rfl, rfl, rfl, rfl, rfl, rfl, rfl, rfl, rfl, rfl, rfl, rfl, rfl, rfl, rfl⟩

@[simp] theorem emitByte_fields (b : Byte) (s : State) :
    (emitByte b s).cmd = s.cmd ∧
    (emitByte b s).arg0 = s.arg0 ∧
    (emitByte b s).arg1 = s.arg1 ∧
    (emitByte b s).status = s.status ∧
    (emitByte b s).result = s.result ∧
    (emitByte b s).msglen = s.msglen ∧
    (emitByte b s).bitdur = s.bitdur ∧
    (emitByte b s).thresh = s.thresh ∧
    (emitByte b s).spb = s.spb ∧
    (emitByte b s).spacing = s.spacing ∧
    (emitByte b s).polldly = s.polldly ∧
    (emitByte b s).params = s.params ∧
    (emitByte b s).mem = s.mem ∧
    (emitByte b s).epoch = s.epoch ∧
    (emitByte b s).txLevel = s.txLevel ∧
    (emitByte b s).eng = s.eng ∧
    (emitByte b s).env = s.env.afterOffer ∧
    (emitByte b s).agenda = s.agenda ∧
    (emitByte b s).events = s.events ++ [.emit b] ∧
    (emitByte b s).reads = s.reads :=
  ⟨rfl, rfl, rfl, rfl, rfl, rfl, rfl, rfl, rfl, rfl, rfl, rfl, rfl, rfl, rfl, rfl, rfl, rfl, rfl, rfl⟩

@[simp] theorem offerDeclined_fields (s : State) :
    (offerDeclined s).cmd = s.cmd ∧
    (offerDeclined s).arg0 = s.arg0 ∧
    (offerDeclined s).arg1 = s.arg1 ∧
    (offerDeclined s).status = s.status ∧
    (offerDeclined s).result = s.result ∧
    (offerDeclined s).msglen = s.msglen ∧
    (offerDeclined s).bitdur = s.bitdur ∧
    (offerDeclined s).thresh = s.thresh ∧
    (offerDeclined s).spb = s.spb ∧
    (offerDeclined s).spacing = s.spacing ∧
    (offerDeclined s).polldly = s.polldly ∧
    (offerDeclined s).params = s.params ∧
    (offerDeclined s).mem = s.mem ∧
    (offerDeclined s).epoch = s.epoch ∧
    (offerDeclined s).txLevel = s.txLevel ∧
    (offerDeclined s).eng = s.eng ∧
    (offerDeclined s).env = s.env.afterOffer ∧
    (offerDeclined s).agenda = s.agenda ∧
    (offerDeclined s).events = s.events ∧
    (offerDeclined s).reads = s.reads :=
  ⟨rfl, rfl, rfl, rfl, rfl, rfl, rfl, rfl, rfl, rfl, rfl, rfl, rfl, rfl, rfl, rfl, rfl, rfl, rfl, rfl⟩

@[simp] theorem complete_fields (c : Completion) (s : State) :
    (complete c s).cmd = s.cmd ∧
    (complete c s).arg0 = s.arg0 ∧
    (complete c s).arg1 = s.arg1 ∧
    (complete c s).status = s.status.completed c.ok c.err ∧
    (complete c s).result = c.result.getD s.result ∧
    (complete c s).msglen = c.msglen.getD s.msglen ∧
    (complete c s).bitdur = s.bitdur ∧
    (complete c s).thresh = s.thresh ∧
    (complete c s).spb = s.spb ∧
    (complete c s).spacing = s.spacing ∧
    (complete c s).polldly = s.polldly ∧
    (complete c s).params = s.params ∧
    (complete c s).mem = s.mem ∧
    (complete c s).epoch = s.epoch ∧
    (complete c s).txLevel = s.txLevel ∧
    (complete c s).eng = { s.eng with phase := .idle, point := .idle } ∧
    (complete c s).env = s.env ∧
    (complete c s).agenda = s.agenda ∧
    (complete c s).events = s.events ∧
    (complete c s).reads = s.reads :=
  ⟨rfl, rfl, rfl, rfl, rfl, rfl, rfl, rfl, rfl, rfl, rfl, rfl, rfl, rfl, rfl, rfl, rfl, rfl, rfl, rfl⟩

@[simp] theorem refuse_fields (c : HCause) (s : State) :
    (refuse c s).cmd = s.cmd ∧
    (refuse c s).arg0 = s.arg0 ∧
    (refuse c s).arg1 = s.arg1 ∧
    (refuse c s).status = s.status.refused c ∧
    (refuse c s).result = s.result ∧
    (refuse c s).msglen = s.msglen ∧
    (refuse c s).bitdur = s.bitdur ∧
    (refuse c s).thresh = s.thresh ∧
    (refuse c s).spb = s.spb ∧
    (refuse c s).spacing = s.spacing ∧
    (refuse c s).polldly = s.polldly ∧
    (refuse c s).params = s.params ∧
    (refuse c s).mem = s.mem ∧
    (refuse c s).epoch = s.epoch ∧
    (refuse c s).txLevel = s.txLevel ∧
    (refuse c s).eng = s.eng ∧
    (refuse c s).env = s.env ∧
    (refuse c s).agenda = s.agenda ∧
    (refuse c s).events = s.events ∧
    (refuse c s).reads = s.reads :=
  ⟨rfl, rfl, rfl, rfl, rfl, rfl, rfl, rfl, rfl, rfl, rfl, rfl, rfl, rfl, rfl, rfl, rfl, rfl, rfl, rfl⟩

@[simp] theorem recomputeTiming_fields (s : State) :
    (recomputeTiming s).cmd = s.cmd ∧
    (recomputeTiming s).arg0 = s.arg0 ∧
    (recomputeTiming s).arg1 = s.arg1 ∧
    (recomputeTiming s).status = s.status ∧
    (recomputeTiming s).result = s.result ∧
    (recomputeTiming s).msglen = s.msglen ∧
    (recomputeTiming s).bitdur = s.bitdur ∧
    (recomputeTiming s).thresh = s.thresh ∧
    (recomputeTiming s).spb = s.spb ∧
    (recomputeTiming s).spacing = spacingOf s.bitdur s.spb ∧
    (recomputeTiming s).polldly = pollDelayOf s.bitdur ∧
    (recomputeTiming s).params = s.params ∧
    (recomputeTiming s).mem = s.mem ∧
    (recomputeTiming s).epoch = s.epoch ∧
    (recomputeTiming s).txLevel = s.txLevel ∧
    (recomputeTiming s).eng = s.eng ∧
    (recomputeTiming s).env = s.env ∧
    (recomputeTiming s).agenda = s.agenda ∧
    (recomputeTiming s).events = s.events ∧
    (recomputeTiming s).reads = s.reads :=
  ⟨rfl, rfl, rfl, rfl, rfl, rfl, rfl, rfl, rfl, rfl, rfl, rfl, rfl, rfl, rfl, rfl, rfl, rfl, rfl, rfl⟩

@[simp] theorem setThresh_fields (v : Half) (s : State) :
    (setThresh v s).cmd = s.cmd ∧
    (setThresh v s).arg0 = s.arg0 ∧
    (setThresh v s).arg1 = s.arg1 ∧
    (setThresh v s).status = s.status ∧
    (setThresh v s).result = s.result ∧
    (setThresh v s).msglen = s.msglen ∧
    (setThresh v s).bitdur = s.bitdur ∧
    (setThresh v s).thresh = v ∧
    (setThresh v s).spb = s.spb ∧
    (setThresh v s).spacing = s.spacing ∧
    (setThresh v s).polldly = s.polldly ∧
    (setThresh v s).params = s.params ∧
    (setThresh v s).mem = s.mem ∧
    (setThresh v s).epoch = s.epoch ∧
    (setThresh v s).txLevel = s.txLevel ∧
    (setThresh v s).eng = s.eng ∧
    (setThresh v s).env = s.env ∧
    (setThresh v s).agenda = s.agenda ∧
    (setThresh v s).events = s.events ∧
    (setThresh v s).reads = s.reads :=
  ⟨rfl, rfl, rfl, rfl, rfl, rfl, rfl, rfl, rfl, rfl, rfl, rfl, rfl, rfl, rfl, rfl, rfl, rfl, rfl, rfl⟩

@[simp] theorem writeByte_fields (a : Nat) (v : Byte) (s : State) :
    (writeByte a v s).cmd = s.cmd ∧
    (writeByte a v s).arg0 = s.arg0 ∧
    (writeByte a v s).arg1 = s.arg1 ∧
    (writeByte a v s).status = s.status ∧
    (writeByte a v s).result = s.result ∧
    (writeByte a v s).msglen = s.msglen ∧
    (writeByte a v s).bitdur = s.bitdur ∧
    (writeByte a v s).thresh = s.thresh ∧
    (writeByte a v s).spb = s.spb ∧
    (writeByte a v s).spacing = s.spacing ∧
    (writeByte a v s).polldly = s.polldly ∧
    (writeByte a v s).params = s.params ∧
    (writeByte a v s).mem = memPut s.mem a v ∧
    (writeByte a v s).epoch = s.epoch ∧
    (writeByte a v s).txLevel = s.txLevel ∧
    (writeByte a v s).eng = s.eng ∧
    (writeByte a v s).env = s.env ∧
    (writeByte a v s).agenda = s.agenda ∧
    (writeByte a v s).events = s.events ∧
    (writeByte a v s).reads = s.reads :=
  ⟨rfl, rfl, rfl, rfl, rfl, rfl, rfl, rfl, rfl, rfl, rfl, rfl, rfl, rfl, rfl, rfl, rfl, rfl, rfl, rfl⟩

/-! ### The buffer writes, which branch -/

@[simp] theorem writeMsgByte_fields (i : Nat) (v : Byte) (s : State) :
    (writeMsgByte i v s).cmd = s.cmd ∧
    (writeMsgByte i v s).arg0 = s.arg0 ∧
    (writeMsgByte i v s).arg1 = s.arg1 ∧
    (writeMsgByte i v s).status = s.status ∧
    (writeMsgByte i v s).result = s.result ∧
    (writeMsgByte i v s).msglen = s.msglen ∧
    (writeMsgByte i v s).bitdur = s.bitdur ∧
    (writeMsgByte i v s).thresh = s.thresh ∧
    (writeMsgByte i v s).spb = s.spb ∧
    (writeMsgByte i v s).spacing = s.spacing ∧
    (writeMsgByte i v s).polldly = s.polldly ∧
    (writeMsgByte i v s).params = s.params ∧
    (writeMsgByte i v s).epoch = s.epoch ∧
    (writeMsgByte i v s).txLevel = s.txLevel ∧
    (writeMsgByte i v s).eng = s.eng ∧
    (writeMsgByte i v s).env = s.env ∧
    (writeMsgByte i v s).agenda = s.agenda ∧
    (writeMsgByte i v s).events = s.events ∧
    (writeMsgByte i v s).reads = s.reads := by
  simp only [writeMsgByte]; split <;> simp

@[simp] theorem writeWord_fields (a : Nat) (v : Word) (s : State) :
    (writeWord a v s).cmd = s.cmd ∧
    (writeWord a v s).arg0 = s.arg0 ∧
    (writeWord a v s).arg1 = s.arg1 ∧
    (writeWord a v s).status = s.status ∧
    (writeWord a v s).result = s.result ∧
    (writeWord a v s).msglen = s.msglen ∧
    (writeWord a v s).bitdur = s.bitdur ∧
    (writeWord a v s).thresh = s.thresh ∧
    (writeWord a v s).spb = s.spb ∧
    (writeWord a v s).spacing = s.spacing ∧
    (writeWord a v s).polldly = s.polldly ∧
    (writeWord a v s).params = s.params ∧
    (writeWord a v s).epoch = s.epoch ∧
    (writeWord a v s).txLevel = s.txLevel ∧
    (writeWord a v s).eng = s.eng ∧
    (writeWord a v s).env = s.env ∧
    (writeWord a v s).agenda = s.agenda ∧
    (writeWord a v s).events = s.events ∧
    (writeWord a v s).reads = s.reads := by
  simp [writeWord]

/-! ### Procedures' first segments -/

/-- SampleAnalogP's first segment only clears e.sum and e.k, when it oversamples. -/
@[simp] theorem sampleBegin_fields (s : State) :
    (sampleBegin s).cmd = s.cmd ∧
    (sampleBegin s).arg0 = s.arg0 ∧
    (sampleBegin s).arg1 = s.arg1 ∧
    (sampleBegin s).status = s.status ∧
    (sampleBegin s).result = s.result ∧
    (sampleBegin s).msglen = s.msglen ∧
    (sampleBegin s).bitdur = s.bitdur ∧
    (sampleBegin s).thresh = s.thresh ∧
    (sampleBegin s).spb = s.spb ∧
    (sampleBegin s).spacing = s.spacing ∧
    (sampleBegin s).polldly = s.polldly ∧
    (sampleBegin s).params = s.params ∧
    (sampleBegin s).mem = s.mem ∧
    (sampleBegin s).epoch = s.epoch ∧
    (sampleBegin s).txLevel = s.txLevel ∧
    (sampleBegin s).env = s.env ∧
    (sampleBegin s).agenda = s.agenda ∧
    (sampleBegin s).events = s.events ∧
    (sampleBegin s).reads = s.reads := by
  simp only [sampleBegin]; split <;> simp

@[simp] theorem sampleBegin_eng (s : State) :
    (sampleBegin s).eng.phase = s.eng.phase ∧
    (sampleBegin s).eng.point = s.eng.point ∧
    (sampleBegin s).eng.op = s.eng.op ∧
    (sampleBegin s).eng.a0 = s.eng.a0 ∧
    (sampleBegin s).eng.a1 = s.eng.a1 ∧
    (sampleBegin s).eng.stopReq = s.eng.stopReq ∧
    (sampleBegin s).eng.run = s.eng.run ∧
    (sampleBegin s).eng.need = s.eng.need ∧
    (sampleBegin s).eng.t0 = s.eng.t0 ∧
    (sampleBegin s).eng.acc = s.eng.acc ∧
    (sampleBegin s).eng.i = s.eng.i ∧
    (sampleBegin s).eng.j = s.eng.j ∧
    (sampleBegin s).eng.calK = s.eng.calK ∧
    (sampleBegin s).eng.n = s.eng.n ∧
    (sampleBegin s).eng.mn = s.eng.mn ∧
    (sampleBegin s).eng.mx = s.eng.mx ∧
    (sampleBegin s).eng.c = s.eng.c := by
  simp only [sampleBegin]; split <;> simp

/-! ### Status updates -/

@[simp] theorem status_issued_fields (st : Status) :
    st.issued.busy = true ∧ st.issued.ok = false ∧ st.issued.err = .noError ∧
    st.issued.hostErr = st.hostErr ∧ st.issued.hcause = st.hcause :=
  ⟨rfl, rfl, rfl, rfl, rfl⟩

@[simp] theorem status_rejected_fields (e : Err) (st : Status) :
    (st.rejected e).busy = st.busy ∧ (st.rejected e).ok = false ∧ (st.rejected e).err = e ∧
    (st.rejected e).hostErr = st.hostErr ∧ (st.rejected e).hcause = st.hcause :=
  ⟨rfl, rfl, rfl, rfl, rfl⟩

@[simp] theorem status_completed_fields (ok : Bool) (e : Err) (st : Status) :
    (st.completed ok e).busy = false ∧ (st.completed ok e).ok = ok ∧ (st.completed ok e).err = e ∧
    (st.completed ok e).hostErr = st.hostErr ∧ (st.completed ok e).hcause = st.hcause :=
  ⟨rfl, rfl, rfl, rfl, rfl⟩

/-- A refusal touches HOSTERR and HCAUSE only (R46). -/
@[simp] theorem status_refused_fields (c : HCause) (st : Status) :
    (st.refused c).busy = st.busy ∧ (st.refused c).ok = st.ok ∧ (st.refused c).err = st.err ∧
    (st.refused c).hostErr = true := by
  cases h : st.hostErr <;> simp [Status.refused, h]

@[simp] theorem status_cleared_fields (st : Status) :
    st.cleared.busy = st.busy ∧ st.cleared.ok = st.ok ∧ st.cleared.err = st.err ∧
    st.cleared.hostErr = false ∧ st.cleared.hcause = .clear :=
  ⟨rfl, rfl, rfl, rfl, rfl⟩

/-! ### Completions -/

@[simp] theorem completion_success_fields :
    Completion.success.ok = true ∧ Completion.success.err = .noError ∧ Completion.success.result = none ∧
    Completion.success.msglen = none :=
  ⟨rfl, rfl, rfl, rfl⟩

@[simp] theorem completion_failure_fields (e : Err) :
    (Completion.failure e).ok = false ∧ (Completion.failure e).err = e ∧ (Completion.failure e).result = none ∧
    (Completion.failure e).msglen = none :=
  ⟨rfl, rfl, rfl, rfl⟩

@[simp] theorem completion_withResult_fields (v : Half) :
    (Completion.withResult v).ok = true ∧ (Completion.withResult v).err = .noError ∧
    (Completion.withResult v).result = some v ∧ (Completion.withResult v).msglen = none :=
  ⟨rfl, rfl, rfl, rfl⟩

/-! ### Reset -/

/-- Reset leaves the environment, the turns to come and the observations alone (log 21). -/
@[simp] theorem resetMachine_outside (s : State) :
    (resetMachine s).params = s.params ∧ (resetMachine s).env = s.env ∧ (resetMachine s).agenda = s.agenda ∧
    (resetMachine s).events = s.events ∧ (resetMachine s).reads = s.reads ∧
    (resetMachine s).epoch = s.epoch + 1 :=
  ⟨rfl, rfl, rfl, rfl, rfl, rfl⟩

end Sys2Proof.Machine
end

