-- ==== Sys2Proof/Laws/Memory.lean ====
section
/-! SUPPORT. The laws of the buffer memory: read after write, and that every write keeps the canonical form. -/

namespace Sys2Proof.Machine

theorem memFind_memPut (m : Memory) (a b : Nat) (v : Byte) :
    memFind (memPut m a v) b = if b = a then some v else memFind m b := by
  induction m with
  | nil => by_cases h : a = b <;> simp [memPut, memFind, h, eq_comm]
  | cons cell rest ih =>
    obtain ⟨k, w⟩ := cell
    simp only [memPut]
    split
    · by_cases h : a = b
      · simp [memFind, h]
      · simp [memFind, h, Ne.symm h]
    · split
      · rename_i hk
        subst hk
        by_cases h : a = b
        · simp [memFind, h]
        · simp [memFind, h, Ne.symm h]
      · by_cases hk : k = b
        · have : b ≠ a := by omega
          simp [memFind, hk, this]
        · simp [memFind, hk, ih]

theorem risingFrom_memPut (m : Memory) (lo a : Nat) (v : Byte) (hm : risingFrom lo m = true) (ha : lo ≤ a) :
    risingFrom lo (memPut m a v) = true := by
  induction m generalizing lo with
  | nil => simp [memPut, risingFrom, ha]
  | cons cell rest ih =>
    obtain ⟨k, w⟩ := cell
    simp only [risingFrom, Bool.and_eq_true, decide_eq_true_eq] at hm
    simp only [memPut]
    split
    · rename_i hlt
      simp only [risingFrom, Bool.and_eq_true, decide_eq_true_eq]
      exact ⟨ha, by omega, hm.2⟩
    · split
      · rename_i _ heq
        subst heq
        simp [risingFrom, ha, hm.2]
      · simp only [risingFrom, Bool.and_eq_true, decide_eq_true_eq]
        exact ⟨hm.1, ih (k + 1) hm.2 (by omega)⟩

theorem all_memPut (m : Memory) (a : Nat) (v : Byte) (p : Nat → Bool) (hm : m.all (fun c => p c.1) = true)
    (ha : p a = true) : (memPut m a v).all (fun c => p c.1) = true := by
  induction m with
  | nil => simp [memPut, ha]
  | cons cell rest ih =>
    obtain ⟨k, w⟩ := cell
    simp only [List.all_cons, Bool.and_eq_true] at hm
    simp only [memPut]
    split
    · simp [ha, hm.1, hm.2]
    · split
      · simp [ha, hm.2]
      · simp [hm.1, ih hm.2]

/-- A write inside the buffers keeps the canonical form. -/
theorem wf_memPut (m : Memory) (a : Nat) (v : Byte) (hm : Memory.wf m = true) (lo : 0x100 ≤ a) (hi : a < 0x300) :
    Memory.wf (memPut m a v) = true := by
  simp only [Memory.wf, Bool.and_eq_true] at hm ⊢
  exact ⟨risingFrom_memPut m _ a v hm.1 lo, all_memPut m a v (fun k => decide (k < msgBase + bufDepth)) hm.2
    (decide_eq_true (by simpa [msgBase, bufDepth] using hi))⟩

theorem wf_writeByte (a : Nat) (v : Byte) (s : State) (hm : Memory.wf s.mem = true) (lo : 0x100 ≤ a)
    (hi : a < 0x300) : Memory.wf (writeByte a v s).mem = true := by
  simpa using wf_memPut s.mem a v hm lo hi

theorem wf_writeMsgByte (i : Nat) (v : Byte) (s : State) (hm : Memory.wf s.mem = true) :
    Memory.wf (writeMsgByte i v s).mem = true := by
  simp only [writeMsgByte]
  split
  · rename_i h
    exact wf_writeByte _ _ _ hm (by simp [msgBase]; omega) (by simp only [msgBase, bufDepth] at *; omega)
  · exact hm

theorem wf_writeWord (a : Nat) (v : Word) (s : State) (hm : Memory.wf s.mem = true) (lo : 0x100 ≤ a)
    (hi : a + 3 < 0x300) : Memory.wf (writeWord a v s).mem = true := by
  simp only [writeWord]
  refine wf_writeByte _ _ _ (wf_writeByte _ _ _ (wf_writeByte _ _ _ (wf_writeByte _ _ _ hm ?_ ?_) ?_ ?_) ?_ ?_) ?_ ?_
    <;> omega

/-- Read after write: the written byte reads as written, every other byte as before. -/
theorem readByte_writeByte (a b : Nat) (v : Byte) (s : State) :
    readByte (writeByte a v s) b = if b = a then v else readByte s b := by
  simp only [readByte, writeByte, memFind_memPut]
  by_cases h : b = a <;> simp [h]

/-- MSGBUF[i] <- v changes that byte alone. -/
theorem readByte_writeMsgByte (i b : Nat) (v : Byte) (s : State) :
    readByte (writeMsgByte i v s) b = if i < 256 ∧ b = 0x200 + i then v else readByte s b := by
  by_cases h : i < 256 <;> simp [writeMsgByte, bufDepth, h, readByte_writeByte, msgBase]

/-- A word write changes its four bytes alone, each to its lane (R51). -/
theorem readByte_writeWord (a b : Nat) (v : Word) (s : State) :
    readByte (writeWord a v s) b =
      if a ≤ b ∧ b < a + 4 then laneByte v (b - a) else readByte s b := by
  simp only [writeWord, readByte_writeByte]
  by_cases h3 : b = a + 3
  · subst h3; simp
  by_cases h2 : b = a + 2
  · subst h2; simp
  by_cases h1 : b = a + 1
  · subst h1; simp
  by_cases h0 : b = a
  · subst h0; simp
  have : ¬ (a ≤ b ∧ b < a + 4) := by omega
  simp [h0, h1, h2, h3, this]

/-- The lanes of a word put together again give the word (R51). -/
theorem wordOfBytes_laneByte (v : Word) :
    wordOfBytes (laneByte v 0) (laneByte v 1) (laneByte v 2) (laneByte v 3) = v := by
  apply BitVec.eq_of_getLsbD_eq
  intro i hi
  simp only [wordOfBytes, laneByte, BitVec.getLsbD_append, BitVec.getLsbD_extractLsb']
  rcases Nat.lt_or_ge i 8 with h | h
  · simp [h]
  rcases Nat.lt_or_ge i 16 with h' | h'
  · simp [show ¬ i < 8 by omega, show i - 8 < 8 by omega, show 8 + (i - 8) = i by omega]
  rcases Nat.lt_or_ge i 24 with h'' | h''
  · simp [show ¬ i < 8 by omega, show ¬ i - 8 < 8 by omega, show i - 8 - 8 < 8 by omega,
      show 16 + (i - 8 - 8) = i by omega]
  · simp [show ¬ i < 8 by omega, show ¬ i - 8 < 8 by omega, show ¬ i - 8 - 8 < 8 by omega,
      show i - 8 - 8 - 8 < 8 by omega, show 24 + (i - 8 - 8 - 8) = i by omega]

/-- A buffer word reads back as it was written (R48, R51). -/
theorem readWord_writeWord (a : Nat) (v : Word) (s : State) : readWord (writeWord a v s) a = v := by
  simp [readWord, readByte_writeWord, wordOfBytes_laneByte]

end Sys2Proof.Machine
end

