-- ==== Sys2Proof/Laws/Procedures.lean ====
section
/-! SUPPORT. What one atomic step of each shared procedure can do, said once: SampleAnalogP, WaitForStartBitP and
ReceiveByteP leave alone everything that `Kept` names, move at most one event, and keep their counters. -/

namespace Sys2Proof.Machine

/-- The state a procedure's step leaves, whether or not it has returned. -/
def Run.state {π α : Type} : Run π α → State
  | .here _ s => s
  | .done _ s => s

@[simp] theorem run_state_here {π α : Type} (p : π) (s : State) : (Run.here p s : Run π α).state = s := rfl

@[simp] theorem run_state_done {π α : Type} (a : α) (s : State) : (Run.done a s : Run π α).state = s := rfl

/-- Everything that the shared procedures never touch: all registers, the buffers, the line, the host's part of
the total order, and the hidden variables of the commands that call them. -/
structure Kept (s t : State) : Prop where
  cmd : t.cmd = s.cmd
  arg0 : t.arg0 = s.arg0
  arg1 : t.arg1 = s.arg1
  status : t.status = s.status
  result : t.result = s.result
  msglen : t.msglen = s.msglen
  bitdur : t.bitdur = s.bitdur
  thresh : t.thresh = s.thresh
  spb : t.spb = s.spb
  spacing : t.spacing = s.spacing
  polldly : t.polldly = s.polldly
  params : t.params = s.params
  mem : t.mem = s.mem
  epoch : t.epoch = s.epoch
  txLevel : t.txLevel = s.txLevel
  agenda : t.agenda = s.agenda
  reads : t.reads = s.reads
  op : t.eng.op = s.eng.op
  a0 : t.eng.a0 = s.eng.a0
  a1 : t.eng.a1 = s.eng.a1
  stopReq : t.eng.stopReq = s.eng.stopReq
  j : t.eng.j = s.eng.j
  calK : t.eng.calK = s.eng.calK
  n : t.eng.n = s.eng.n
  mn : t.eng.mn = s.eng.mn
  mx : t.eng.mx = s.eng.mx
  c : t.eng.c = s.eng.c

theorem Kept.refl (s : State) : Kept s s := by constructor <;> rfl

theorem Kept.trans {s t u : State} (h : Kept s t) (h' : Kept t u) : Kept s u := by
  constructor
  · exact h'.cmd.trans h.cmd
  · exact h'.arg0.trans h.arg0
  · exact h'.arg1.trans h.arg1
  · exact h'.status.trans h.status
  · exact h'.result.trans h.result
  · exact h'.msglen.trans h.msglen
  · exact h'.bitdur.trans h.bitdur
  · exact h'.thresh.trans h.thresh
  · exact h'.spb.trans h.spb
  · exact h'.spacing.trans h.spacing
  · exact h'.polldly.trans h.polldly
  · exact h'.params.trans h.params
  · exact h'.mem.trans h.mem
  · exact h'.epoch.trans h.epoch
  · exact h'.txLevel.trans h.txLevel
  · exact h'.agenda.trans h.agenda
  · exact h'.reads.trans h.reads
  · exact h'.op.trans h.op
  · exact h'.a0.trans h.a0
  · exact h'.a1.trans h.a1
  · exact h'.stopReq.trans h.stopReq
  · exact h'.j.trans h.j
  · exact h'.calK.trans h.calK
  · exact h'.n.trans h.n
  · exact h'.mn.trans h.mn
  · exact h'.mx.trans h.mx
  · exact h'.c.trans h.c

/-- An update of the event log, the environment and the procedures' own hidden variables keeps the rest. -/
theorem kept_of_update (s : State) (env : Env) (events : List Event) (phase : Phase) (run need : Nat) (t0 : Word)
    (acc : Byte) (i k sum : Nat) :
    Kept s { s with
      env := env
      events := events
      eng := { s.eng with phase := phase, run := run, need := need, t0 := t0, acc := acc, i := i, k := k,
                          sum := sum } } := by
  constructor <;> rfl

theorem kept_sampleBegin (s : State) : Kept s (sampleBegin s) := by
  constructor <;> simp

theorem kept_takeSample (s : State) : Kept s (takeSample s) := by
  constructor <;> simp

theorem kept_readClock (s : State) : Kept s (readClock s) := by
  constructor <;> simp

theorem kept_waitFor (us : Nat) (s : State) : Kept s (waitFor us s) := by
  constructor <;> simp

theorem kept_setPhase (ph : Phase) (s : State) : Kept s (setPhase ph s) := by
  constructor <;> simp

theorem kept_sampleStep (p : SampleAt) (s : State) : Kept s (sampleStep p s).state := by
  cases p <;> simp only [sampleStep]
  · split
    · exact kept_takeSample s
    · split <;> (constructor <;> simp)
  · constructor <;> simp

theorem kept_searchJudge (T : Nat) (v : Half) (s : State) : Kept s (searchJudge T v s).state := by
  simp only [searchJudge]
  split
  · constructor <;> simp
  · split <;> (constructor <;> simp)

theorem kept_searchStep (T : Nat) (p : SearchAt) (s : State) : Kept s (searchStep T p s).state := by
  cases p with
  | mark => simp only [searchStep]; constructor <;> simp
  | sampling q =>
    have h := kept_sampleStep q s
    simp only [searchStep]
    split <;> rename_i heq <;> rw [heq] at h
    · exact h
    · exact h.trans (kept_searchJudge T _ _)
  | clock => simp only [searchStep]; split <;> exact kept_readClock s
  | pollWait => exact (kept_waitFor _ s).trans (kept_sampleBegin _)
  | alignWait => exact kept_waitFor _ s

theorem kept_searchStart (T : Nat) (s : State) : Kept s (searchStart T s).state := by
  simp only [searchStart, searchBegin]
  split
  · split <;> (constructor <;> simp)
  · exact Kept.refl s

theorem state_byteFromSearch (r : Run SearchAt StartResult) : (byteFromSearch r).state = r.state := by
  cases r with
  | here q t => rfl
  | done a t => cases a <;> rfl

theorem kept_byteStart (T : Nat) (s : State) : Kept s (byteStart T s).state := by
  rw [byteStart, state_byteFromSearch]
  exact kept_searchStart T s

theorem kept_byteStep (T : Nat) (p : ByteAt) (s : State) : Kept s (byteStep T p s).state := by
  cases p with
  | search q => simp only [byteStep, state_byteFromSearch]; exact kept_searchStep T q s
  | firstWait => simp only [byteStep, dataBegin]; constructor <;> simp
  | data q =>
    have h := kept_sampleStep q s
    simp only [byteStep]
    split <;> rename_i heq <;> rw [heq] at h
    · exact h
    · exact h.trans (by simp only [dataSampled]; constructor <;> simp)
  | dataWait =>
    simp only [byteStep]
    split
    · simp only [dataBegin]; constructor <;> simp
    · constructor <;> simp
  | stop q =>
    have h := kept_sampleStep q s
    simp only [byteStep]
    split <;> rename_i heq <;> rw [heq] at h
    · exact h
    · refine h.trans ?_
      simp only [stopSampled]
      split <;> exact kept_setPhase _ _
  | settleWait => exact kept_waitFor _ s
  | closeWait => exact kept_waitFor _ s

end Sys2Proof.Machine
end

