-- ==== Sys2Proof/Laws/Counters.lean ====
section
/-! SUPPORT. The counters of the shared procedures: every atomic step of theirs keeps the hidden variables in their
ranges (R36), and where it still stands, its counters and the phase R37 gives that place. -/

namespace Sys2Proof.Machine

/-- SampleAnalogP starts with its counters in range. -/
theorem counters_sampleBegin (s : State) : SampleAt.read.counters (sampleBegin s) := by
  simp only [SampleAt.counters, sampleBegin]
  split
  · exact Or.inl ‹_›
  · exact Or.inr ⟨by show 0 < s.spb.toNat; omega, by show 0 ≤ 0 * 65535; omega⟩

theorem widths_sampleBegin (s : State) (w : s.eng.Widths) : (sampleBegin s).eng.Widths := by
  obtain ⟨a, b, c, d, e, f, g, h⟩ := w
  simp only [sampleBegin]
  split
  · exact ⟨a, b, c, d, e, f, g, h⟩
  · exact ⟨a, b, c, d, by simp, f, g, by simp⟩

/-- What one atomic step of SampleAnalogP keeps: its counters and the ranges of R36; it touches e.sum and e.k only. -/
theorem sampleStep_keeps (p : SampleAt) (s : State) (w : s.eng.Widths) (hc : p.counters s) :
    (sampleStep p s).state.eng.Widths ∧ (∀ q t, sampleStep p s = .here q t → q.counters t) := by
  obtain ⟨a, b, c, d, e, f, g, h⟩ := w
  have hv := (sampleValue s).isLt
  have hs := s.spb.isLt
  cases p with
  | read =>
    simp only [sampleStep]
    split
    · exact ⟨⟨a, b, c, d, e, f, g, h⟩, by simp⟩
    · rename_i hspb
      simp only [SampleAt.counters] at hc
      obtain hc | ⟨hk, hsum⟩ := hc
      · omega
      have hk' : s.eng.k * 65535 ≤ 65534 * 65535 := Nat.mul_le_mul_right _ (by omega)
      split
      · refine ⟨⟨a, b, c, d, e, f, g, ?_⟩, ?_⟩
        · simp; omega
        · rintro q t ⟨⟩
          simp only [SampleAt.counters]
          refine ⟨by simpa using ‹_›, ?_⟩
          show s.eng.sum + (sampleValue s).toNat ≤ (s.eng.k + 1) * 65535
          omega
      · refine ⟨⟨a, b, c, d, e, f, g, ?_⟩, by simp⟩
        simp; omega
  | space =>
    simp only [SampleAt.counters] at hc
    simp only [sampleStep]
    refine ⟨⟨a, b, c, d, by simp; omega, f, g, h⟩, ?_⟩
    rintro q t ⟨⟩
    right
    simpa using hc

/-- SampleAnalogP touches no hidden variable but e.sum and e.k. -/
theorem sampleStep_eng (p : SampleAt) (s : State) :
    (sampleStep p s).state.eng = { s.eng with sum := (sampleStep p s).state.eng.sum, k := (sampleStep p s).state.eng.k } := by
  cases p <;> simp only [sampleStep]
  · split
    · simp
    · split <;> simp
  · simp


/-- What one atomic step of WaitForStartBitP keeps: the ranges of R36, and where it still stands, its counters and
the phase R37 gives that place. -/
theorem searchStart_keeps (T : Nat) (s : State) (w : s.eng.Widths) :
    (searchStart T s).state.eng.Widths ∧ (searchStart T s).state.eng.i = s.eng.i ∧
    (∀ q t, searchStart T s = .here q t → q.counters T t ∧ t.eng.phase = q.phase ∧ t.params.rxPresent = true) := by
  simp only [searchStart]
  split
  · rename_i hrx
    simp only [searchBegin]
    split
    · rename_i hT
      have w' : (sampleBegin { s with eng := { s.eng with phase := .startSearch, need := runNeeded T, run := 0 } }).eng.Widths := by
        apply widths_sampleBegin
        obtain ⟨a, b, c, d, e, f, g, h⟩ := w
        exact ⟨by simp, by simp [runNeeded, hT, startRunPoll], c, d, e, f, g, h⟩
      refine ⟨w', by simp, ?_⟩
      rintro q t ⟨⟩
      refine ⟨⟨by simp [runNeeded, hT, startRunPoll], by simp [runNeeded, hT, startRunPoll], counters_sampleBegin _⟩, by simp [SearchAt.phase], by simpa using hrx⟩
    · rename_i hT
      obtain ⟨a, b, c, d, e, f, g, h⟩ := w
      refine ⟨⟨a, by simp [runNeeded, hT, startRunTimed], c, d, e, f, g, h⟩, rfl, ?_⟩
      rintro q t ⟨⟩
      exact ⟨⟨hT, by simp [runNeeded, hT, startRunTimed]⟩, rfl, hrx⟩
  · exact ⟨w, rfl, by simp⟩

theorem searchStep_keeps (T : Nat) (p : SearchAt) (s : State) (w : s.eng.Widths) (hc : p.counters T s)
    (hp : s.eng.phase = p.phase) :
    (searchStep T p s).state.eng.Widths ∧ (searchStep T p s).state.eng.i = s.eng.i ∧
    (∀ q t, searchStep T p s = .here q t → q.counters T t ∧ t.eng.phase = q.phase) ∧
    (∀ a t, searchStep T p s = .done a t → t.eng.phase ≠ .idle ∧ (a = .found → t.eng.phase = .startDetected)) := by
  cases p with
  | mark =>
    obtain ⟨hT, hn⟩ := hc
    have w' : ({ readClock s with eng := { s.eng with t0 := clockValue s, run := 0 } } : State).eng.Widths := by
      obtain ⟨a, b, c, d, e, f, g, h⟩ := w
      exact ⟨by simp, b, c, d, e, f, g, h⟩
    refine ⟨widths_sampleBegin _ w', by simp [searchStep], ?_, by simp [searchStep]⟩
    rintro q t ⟨⟩
    exact ⟨⟨by simp [hT, hn], by simp [hn], counters_sampleBegin _⟩, by simpa [SearchAt.phase] using hp⟩
  | sampling q =>
    obtain ⟨hn, hr, hq⟩ := hc
    obtain ⟨w', hh⟩ := sampleStep_keeps q s w hq
    have he := sampleStep_eng q s
    simp only [searchStep]
    generalize hg : sampleStep q s = r at *
    cases r with
    | here q' t =>
      simp only [run_state_here] at w' he ⊢
      refine ⟨w', by rw [he], ?_, by simp⟩
      rintro _ _ ⟨⟩
      exact ⟨⟨by rw [he]; exact hn, by rw [he]; exact hr, hh _ _ rfl⟩, by rw [he]; exact hp⟩
    | done v t =>
      simp only [run_state_done] at w' he ⊢
      have hrun : t.eng.run = s.eng.run := by rw [he]
      have hneed : t.eng.need = s.eng.need := by rw [he]
      have hph : t.eng.phase = .startSearch := by rw [he]; exact hp
      have hi : t.eng.i = s.eng.i := by rw [he]
      have hle : runAfter v t ≤ 3 := by
        have := w.need_le
        simp only [runAfter]; split <;> omega
      have w'' : ({ t with eng := { t.eng with run := runAfter v t } } : State).eng.Widths := by
        obtain ⟨a, b, c, d, e, f, g, h⟩ := w'
        exact ⟨hle, b, c, d, e, f, g, h⟩
      simp only [searchJudge]
      split
      · rename_i hcf
        refine ⟨?_, by simp [hi], ?_, by simp⟩
        · obtain ⟨a, b, c, d, e, f, g, h⟩ := w''
          exact ⟨a, b, c, d, e, f, g, h⟩
        · rintro _ _ ⟨⟩
          exact ⟨trivial, rfl⟩
      · rename_i hcf
        split
        · refine ⟨w'', by simp [hi], by simp, ?_⟩
          rintro a u ⟨⟩
          simp [hph]
        · rename_i hT
          refine ⟨w'', by simp [hi], ?_, by simp⟩
          rintro _ _ ⟨⟩
          rw [if_neg hT] at hn
          refine ⟨⟨hT, by simp [hneed, hn], by simp; omega⟩, hph⟩
  | clock =>
    obtain ⟨a, b, c⟩ := hc
    simp only [searchStep]
    split
    · refine ⟨by simpa using w, by simp, by simp, ?_⟩
      rintro r u ⟨⟩
      simp [hp, SearchAt.phase]
    · refine ⟨by simpa using w, by simp, ?_, by simp⟩
      rintro q t ⟨⟩
      exact ⟨⟨a, by simpa using b, by simpa using c⟩, by simpa [SearchAt.phase] using hp⟩
  | pollWait =>
    obtain ⟨a, b, c⟩ := hc
    refine ⟨widths_sampleBegin _ (by simpa using w), by simp [searchStep], ?_, by simp [searchStep]⟩
    rintro q t ⟨⟩
    exact ⟨⟨by simp [a, b], by simp; omega, counters_sampleBegin _⟩, by simpa [SearchAt.phase] using hp⟩
  | alignWait =>
    refine ⟨by simpa [searchStep] using w, by simp [searchStep], by simp [searchStep], ?_⟩
    rintro q t ⟨⟩
    simp [hp, SearchAt.phase]

theorem byteStart_keeps (T : Nat) (s : State) (w : s.eng.Widths) :
    (byteStart T s).state.eng.Widths ∧
    (∀ q t, byteStart T s = .here q t → q.counters T t ∧ t.eng.phase = q.phase t.eng.i ∧ t.params.rxPresent = true) ∧
    (∀ a t, byteStart T s = .done a t → a = .fail .noRxPin ∧ t = s) := by
  obtain ⟨w', hi, hh⟩ := searchStart_keeps T s w
  have hnf : ∀ a t, searchStart T s = .done a t → a = .notFound .noRxPin ∧ t = s := by
    intro a t h
    simp only [searchStart, searchBegin] at h
    split at h
    · split at h <;> cases h
    · cases h; exact ⟨rfl, rfl⟩
  rw [byteStart]
  generalize hg : searchStart T s = r at *
  cases r with
  | here q t =>
    refine ⟨w', ?_, by simp [byteFromSearch]⟩
    rintro _ _ ⟨⟩
    obtain ⟨a, b, c⟩ := hh _ _ rfl
    exact ⟨a, b, c⟩
  | done a t =>
    obtain ⟨rfl, rfl⟩ := hnf a t rfl
    refine ⟨w', by simp [byteFromSearch], ?_⟩
    rintro _ _ ⟨⟩
    exact ⟨rfl, rfl⟩

theorem byteStep_keeps (T : Nat) (p : ByteAt) (s : State) (w : s.eng.Widths) (hc : p.counters T s)
    (hp : s.eng.phase = p.phase s.eng.i) :
    (byteStep T p s).state.eng.Widths ∧
    (∀ q t, byteStep T p s = .here q t → q.counters T t ∧ t.eng.phase = q.phase t.eng.i) ∧
    (∀ a t, byteStep T p s = .done a t → t.eng.phase ≠ .idle) := by
  cases p with
  | search q =>
    obtain ⟨w', hi, hh, hd⟩ := searchStep_keeps T q s w hc hp
    simp only [byteStep]
    generalize hg : searchStep T q s = r at *
    cases r with
    | here q' t =>
      refine ⟨w', ?_, by simp [byteFromSearch]⟩
      rintro _ _ ⟨⟩
      exact hh _ _ rfl
    | done a t =>
      obtain ⟨h1, h2⟩ := hd _ _ rfl
      cases a with
      | found =>
        refine ⟨w', ?_, by simp [byteFromSearch]⟩
        rintro _ _ ⟨⟩
        exact ⟨trivial, h2 rfl⟩
      | notFound e =>
        refine ⟨w', by simp [byteFromSearch], ?_⟩
        rintro _ _ ⟨⟩
        exact h1
  | firstWait =>
    refine ⟨?_, ?_, by simp [byteStep]⟩
    · apply widths_sampleBegin
      obtain ⟨a, b, c, d, e, f, g, h⟩ := w
      exact ⟨a, b, by simp, d, e, f, g, h⟩
    · rintro q t ⟨⟩
      exact ⟨counters_sampleBegin _, by simp [dataBegin, ByteAt.phase]⟩
  | data q =>
    obtain ⟨w', hh⟩ := sampleStep_keeps q s w hc
    have he := sampleStep_eng q s
    simp only [byteStep]
    generalize hg : sampleStep q s = r at *
    cases r with
    | here q' t =>
      simp only [run_state_here] at w' he ⊢
      refine ⟨w', ?_, by simp⟩
      rintro _ _ ⟨⟩
      exact ⟨hh _ _ rfl, by rw [he]; exact hp⟩
    | done v t =>
      simp only [run_state_done] at w' he ⊢
      refine ⟨?_, ?_, by simp⟩
      · obtain ⟨a, b, c, d, e, f, g, h⟩ := w'
        exact ⟨a, b, c, d, e, f, g, h⟩
      · rintro _ _ ⟨⟩
        refine ⟨trivial, ?_⟩
        simp only [dataSampled, ByteAt.phase]
        rw [he]; exact hp
  | dataWait =>
    simp only [byteStep]
    split
    · rename_i hi
      refine ⟨?_, ?_, by simp⟩
      · apply widths_sampleBegin
        obtain ⟨a, b, c, d, e, f, g, h⟩ := w
        exact ⟨a, b, by simp [dataBits] at hi ⊢; omega, d, e, f, g, h⟩
      · rintro q t ⟨⟩
        exact ⟨counters_sampleBegin _, by simp [dataBegin, ByteAt.phase]⟩
    · refine ⟨?_, ?_, by simp⟩
      · apply widths_sampleBegin
        obtain ⟨a, b, c, d, e, f, g, h⟩ := w
        exact ⟨a, b, c, d, e, f, g, h⟩
      · rintro q t ⟨⟩
        exact ⟨counters_sampleBegin _, by simp [ByteAt.phase]⟩
  | stop q =>
    obtain ⟨w', hh⟩ := sampleStep_keeps q s w hc
    have he := sampleStep_eng q s
    simp only [byteStep]
    generalize hg : sampleStep q s = r at *
    cases r with
    | here q' t =>
      simp only [run_state_here] at w' he ⊢
      refine ⟨w', ?_, by simp⟩
      rintro _ _ ⟨⟩
      exact ⟨hh _ _ rfl, by rw [he]; exact hp⟩
    | done v t =>
      simp only [run_state_done] at w' he ⊢
      have w2 : ∀ ph, (setPhase ph t).eng.Widths := by
        intro ph
        obtain ⟨a, b, c, d, e, f, g, h⟩ := w'
        exact ⟨a, b, c, d, e, f, g, h⟩
      simp only [stopSampled]
      split
      · refine ⟨w2 _, ?_, by simp⟩
        rintro _ _ ⟨⟩
        exact ⟨trivial, rfl⟩
      · refine ⟨w2 _, ?_, by simp⟩
        rintro _ _ ⟨⟩
        exact ⟨trivial, rfl⟩
  | settleWait =>
    refine ⟨by simpa [byteStep] using w, by simp [byteStep], ?_⟩
    rintro _ _ ⟨⟩
    simp [hp, ByteAt.phase]
  | closeWait =>
    refine ⟨by simpa [byteStep] using w, by simp [byteStep], ?_⟩
    rintro _ _ ⟨⟩
    simp [hp, ByteAt.phase]

end Sys2Proof.Machine
end

