-- ==== Sys2Proof/Laws/Events.lean ====
section
/-! SUPPORT. The events of the shared procedures: every atomic step of theirs is at most one capability event. -/

namespace Sys2Proof.Machine

/-! ### The event, if any, of one atomic step -/

/-- What one atomic step may do to the observed events, the environment and the line: at most one event, with the
environment's answer to it, and the line at a `Drive`'s level (R12, R59, R66). -/
inductive Moved (s t : State) : Prop where
  | silent (events : t.events = s.events) (env : t.env = s.env) (line : t.txLevel = s.txLevel)
  | drove (l : Bool) (events : t.events = s.events ++ [.drive l]) (env : t.env = s.env) (line : t.txLevel = l)
  | waited (us : Nat) (events : t.events = s.events ++ [.wait us]) (env : t.env = s.env)
      (line : t.txLevel = s.txLevel)
  | sampled (events : t.events = s.events ++ [.sample (sampleValue s)]) (env : t.env = s.env.afterSample)
      (line : t.txLevel = s.txLevel)
  | clocked (events : t.events = s.events ++ [.now (clockValue s)]) (env : t.env = s.env.afterClock)
      (line : t.txLevel = s.txLevel)
  | emitted (b : Byte) (events : t.events = s.events ++ [.emit b]) (env : t.env = s.env.afterOffer)
      (line : t.txLevel = s.txLevel)
  | declined (events : t.events = s.events) (env : t.env = s.env.afterOffer) (line : t.txLevel = s.txLevel)

/-- An update after the event that leaves log, environment and line alone. -/
theorem Moved.then {s t u : State} (h : Moved s t) (he : u.events = t.events) (hv : u.env = t.env)
    (hl : u.txLevel = t.txLevel) : Moved s u := by
  cases h with
  | silent a b c => exact .silent (he.trans a) (hv.trans b) (hl.trans c)
  | drove l a b c => exact .drove l (he.trans a) (hv.trans b) (hl.trans c)
  | waited us a b c => exact .waited us (he.trans a) (hv.trans b) (hl.trans c)
  | sampled a b c => exact .sampled (he.trans a) (hv.trans b) (hl.trans c)
  | clocked a b c => exact .clocked (he.trans a) (hv.trans b) (hl.trans c)
  | emitted e a b c => exact .emitted e (he.trans a) (hv.trans b) (hl.trans c)
  | declined a b c => exact .declined (he.trans a) (hv.trans b) (hl.trans c)

theorem moved_sampleStep (p : SampleAt) (s : State) : Moved s (sampleStep p s).state := by
  cases p <;> simp only [sampleStep]
  · split
    · exact .sampled (by simp) (by simp) (by simp)
    · split <;> exact .sampled (by simp) (by simp) (by simp)
  · exact .waited s.spacing.toNat (by simp) (by simp) (by simp)

theorem moved_searchJudge (T : Nat) (v : Half) (s t : State) (h : Moved s t) :
    Moved s (searchJudge T v t).state := by
  simp only [searchJudge]
  split
  · exact h.then (by simp) (by simp) (by simp)
  · split <;> exact h.then (by simp) (by simp) (by simp)

theorem moved_searchStep (T : Nat) (p : SearchAt) (s : State) : Moved s (searchStep T p s).state := by
  cases p with
  | mark => exact .clocked (by simp [searchStep]) (by simp [searchStep]) (by simp [searchStep])
  | sampling q =>
    have h := moved_sampleStep q s
    simp only [searchStep]
    split <;> rename_i heq <;> rw [heq] at h
    · exact h
    · exact moved_searchJudge T _ _ _ h
  | clock => simp only [searchStep]; split <;> exact .clocked (by simp) (by simp) (by simp)
  | pollWait => exact .waited s.polldly.toNat (by simp [searchStep]) (by simp [searchStep]) (by simp [searchStep])
  | alignWait => exact .waited (halfBit s) (by simp [searchStep]) (by simp [searchStep]) (by simp [searchStep])

theorem moved_searchStart (T : Nat) (s : State) : Moved s (searchStart T s).state := by
  simp only [searchStart, searchBegin]
  split
  · split <;> exact .silent (by simp) (by simp) (by simp)
  · exact .silent rfl rfl rfl

theorem moved_byteStart (T : Nat) (s : State) : Moved s (byteStart T s).state := by
  rw [byteStart, state_byteFromSearch]
  exact moved_searchStart T s

theorem moved_byteStep (T : Nat) (p : ByteAt) (s : State) : Moved s (byteStep T p s).state := by
  cases p with
  | search q => simp only [byteStep, state_byteFromSearch]; exact moved_searchStep T q s
  | firstWait => exact .waited s.bitdur.toNat (by simp [byteStep, dataBegin]) (by simp [byteStep, dataBegin]) (by simp [byteStep, dataBegin])
  | data q =>
    have h := moved_sampleStep q s
    simp only [byteStep]
    split <;> rename_i heq <;> rw [heq] at h
    · exact h
    · exact h.then rfl rfl rfl
  | dataWait =>
    simp only [byteStep]
    split <;> exact .waited s.bitdur.toNat (by simp [dataBegin]) (by simp [dataBegin]) (by simp [dataBegin])
  | stop q =>
    have h := moved_sampleStep q s
    simp only [byteStep]
    split <;> rename_i heq <;> rw [heq] at h
    · exact h
    · simp only [stopSampled]
      split <;> exact h.then (by simp) (by simp) (by simp)
  | settleWait => exact .waited s.bitdur.toNat (by simp [byteStep]) (by simp [byteStep]) (by simp [byteStep])
  | closeWait => exact .waited (halfBit s) (by simp [byteStep]) (by simp [byteStep]) (by simp [byteStep])

end Sys2Proof.Machine
end

