-- ==== Sys2Proof/Machine/Fairness.lean ====
section
/-! DEFINITION. The fairness premise of R63 over unending runs of the machine: the clock M of R62 beside the events that
the run issues. A termination claim takes it as a premise; no step of the machine depends on it (log 11). -/

namespace Sys2Proof.Machine

/-- An unending run: every state is what the step answers to the one before it. -/
def isRun (run : Nat → State) : Prop := ∀ n : Nat, step (run n) = .next (run (n + 1))

/-- Step `n` of the run issues event `e` (R10). -/
def issuesAt (run : Nat → State) (n : Nat) (e : Event) : Prop := (run (n + 1)).events = (run n).events ++ [e]

/-- "The engine keeps issuing `Wait` events of positive duration" (R63): after every step there is another. -/
def keepsWaiting (run : Nat → State) : Prop := ∀ n : Nat, ∃ m us : Nat, n ≤ m ∧ 0 < us ∧ issuesAt run m (.wait us)

/-- `M n` is the unwrapped clock of R62 at state `n` of the run: it never goes back, and at every `Now` it is the clock
that Env.clock holds as of that reading (log 11). Between two readings R62 constrains it no further. -/
structure IsClockOf (M : Nat → Nat) (run : Nat → State) : Prop where
  never_back : ∀ n : Nat, M n ≤ M (n + 1)
  at_reading : ∀ (n : Nat) (ms : Word), issuesAt run n (.now ms) → M (n + 1) = (run (n + 1)).env.clock

/-- The fairness premise (R63): "while the engine keeps issuing `Wait` events of positive duration, the unwrapped clock
`M` grows without bound". -/
def clockGrows (run : Nat → State) : Prop :=
  keepsWaiting run → ∃ M : Nat → Nat, IsClockOf M run ∧ ∀ bound : Nat, ∃ n : Nat, bound ≤ M n

end Sys2Proof.Machine
end

