-- ==== Sys2Proof/Laws/Fairness.lean ====
section
/-! SUPPORT. What the fairness premise of R63 gives: in a fair run that keeps waiting, the clock readings grow without
bound; so a timed start-bit search on an idle line ends (R104). -/

namespace Sys2Proof.Machine

/-- The clock of a run never goes back over any number of steps. -/
theorem IsClockOf.mono {M : Nat → Nat} {run : Nat → State} (h : IsClockOf M run) {m n : Nat} (hmn : m ≤ n) :
    M m ≤ M n := monotone_nat_of_le_succ h.never_back hmn

/-- In a fair run that keeps waiting and keeps reading the clock, the readings pass every bound, as late as one likes. -/
theorem clockGrows_readings {run : Nat → State} (fair : clockGrows run) (waits : keepsWaiting run)
    (reads : ∀ n : Nat, ∃ m ms, n ≤ m ∧ issuesAt run m (.now ms)) (bound start : Nat) :
    ∃ n, start ≤ n ∧ bound ≤ (run (n + 1)).env.clock := by
  obtain ⟨M, clock, grows⟩ := fair waits
  obtain ⟨n, hn⟩ := grows bound
  obtain ⟨m, ms, hm, hread⟩ := reads (max n start)
  refine ⟨m, by omega, ?_⟩
  rw [← clock.at_reading m ms hread]
  exact hn.trans (clock.mono (by omega))

/-! ### The timed search of an idle line -/

/-- WAITSTART with timeout ARG0 of `s₀`, SPB = 1, stands at `p` of its search, no low sample seen yet; the entry reading
was `c`, and no reading since has been more than the timeout later. -/
structure IdleSearch (s₀ : State) (c : Nat) (p : SearchAt) (s : State) : Prop where
  busy : s.status.busy = true
  agenda : s.agenda = []
  op : s.eng.op = 0x08
  point : s.eng.point = .waitstart p
  a0 : s.eng.a0 = s₀.arg0
  spb : s.spb = s₀.spb
  thresh : s.thresh = s₀.thresh
  polldly : s.polldly = s₀.polldly
  need : s.eng.need = 3
  run : s.eng.run = 0
  t0 : s.eng.t0 = BitVec.ofNat 32 c
  early : c ≤ s.env.clock
  late : s.env.clock ≤ c + s₀.arg0.toNat

/-- While WAITSTART runs and no turn is to come, a step is one of its meaning. -/
theorem step_waitstart {s : State} (hb : s.status.busy = true) (ha : s.agenda = []) (ho : s.eng.op = 0x08) :
    step s = execWaitstart s := by
  have hd : decodeOpcode s.eng.op = some .waitstart := by rw [ho]; rfl
  simp [step, nextMove, ha, engineMove, hb, hd, exec]

/-- A high sample: the clock reading is next. -/
theorem IdleSearch.sample {s₀ s t : State} {c : Nat} (h : IdleSearch s₀ c (.sampling .read) s)
    (hs : s₀.spb.toNat = 1) (hT : s₀.arg0 ≠ 0) (hv : s₀.thresh.toNat < (sampleValue s).toNat)
    (hst : step s = .next t) : IdleSearch s₀ c .clock t := by
  have hT' : s₀.arg0.toNat ≠ 0 := fun h0 => hT (BitVec.eq_of_toNat_eq (by simpa using h0))
  have hlow : isLow s.thresh (sampleValue s) = false := by
    rw [h.thresh]; simpa [isLow] using hv
  rw [step_waitstart h.busy h.agenda h.op] at hst
  simp [execWaitstart, h.point, waitstartAt, searchStep, sampleStep, h.spb, hs, searchJudge, runAfter, hlow,
    h.need, h.a0, hT'] at hst
  subst hst
  have hc : (s.env.afterSample).clock = s.env.clock := by unfold Env.afterSample; split <;> rfl
  constructor <;> simp [h.busy, h.agenda, h.op, h.thresh, h.polldly, h.t0, hc, h.early, h.late]

/-- At a sample place the step issues a `Sample`, whatever the reading. -/
theorem IdleSearch.sample_event {s₀ s t : State} {c : Nat} (h : IdleSearch s₀ c (.sampling .read) s)
    (hs : s₀.spb.toNat = 1) (hst : step s = .next t) : t.events = s.events ++ [.sample (sampleValue s)] := by
  rw [step_waitstart h.busy h.agenda h.op] at hst
  simp only [execWaitstart, h.point, waitstartAt, searchStep, sampleStep, h.spb, hs, le_refl, if_true,
    searchJudge] at hst
  split at hst <;> rename_i heq <;> cases hst <;> split at heq
  · cases heq; simp
  · split at heq <;> cases heq; simp
  · cases heq
  · split at heq <;> cases heq; simp

/-- At the clock place the step issues a `Now` and the clock advances, whatever the outcome. -/
theorem IdleSearch.clock_event {s₀ s t : State} {c : Nat} (h : IdleSearch s₀ c .clock s) (hst : step s = .next t) :
    t.events = s.events ++ [.now (clockValue s)] ∧ t.env.clock = s.env.clock + clockAdvance s.env := by
  have hclk : (s.env.afterClock).clock = s.env.clock + clockAdvance s.env := by
    unfold Env.afterClock clockAdvance; split <;> rfl
  rw [step_waitstart h.busy h.agenda h.op] at hst
  simp only [execWaitstart, h.point, waitstartAt, searchStep] at hst
  split at hst <;> rename_i heq <;> cases hst <;> split at heq <;> cases heq <;> simp [hclk]

/-- The clock reading: the search goes on with the poll wait, the reading being at most the timeout after the entry's, or
it has failed. -/
theorem IdleSearch.clock {s₀ s t : State} {c : Nat} (h : IdleSearch s₀ c .clock s)
    (hd : clockAdvance s.env + s₀.arg0.toNat < 2 ^ 32) (hst : step s = .next t) :
    IdleSearch s₀ c .pollWait t ∨
      (t.eng.point = .finish (.failure .noStart) ∧ t.status.busy = true ∧ t.agenda = [] ∧ t.eng.op = 0x08) := by
  have hclk : (s.env.afterClock).clock = s.env.clock + clockAdvance s.env := by
    unfold Env.afterClock clockAdvance; split <;> rfl
  have hel : elapsed (clockValue s) s.eng.t0 = s.env.clock + clockAdvance s.env - c := by
    have e := h.early; have l := h.late
    rw [h.t0]; simp only [elapsed, clockValue, BitVec.toNat_sub, BitVec.toNat_ofNat]; omega
  rw [step_waitstart h.busy h.agenda h.op] at hst
  simp only [execWaitstart, h.point, waitstartAt, searchStep, h.a0] at hst
  by_cases hx : s₀.arg0.toNat < elapsed (clockValue s) s.eng.t0
  · right
    rw [if_pos hx] at hst
    cases hst
    exact ⟨rfl, h.busy, h.agenda, h.op⟩
  · left
    rw [if_neg hx] at hst
    cases hst
    have e := h.early; have l := h.late
    rw [hel] at hx
    constructor <;> simp [h.busy, h.agenda, h.op, h.a0, h.spb, h.thresh, h.polldly, h.need, h.run, h.t0, hclk] <;> omega

/-- The poll wait: the next sample is due. -/
theorem IdleSearch.wait {s₀ s t : State} {c : Nat} (h : IdleSearch s₀ c .pollWait s) (hs : s₀.spb.toNat = 1)
    (hst : step s = .next t) :
    IdleSearch s₀ c (.sampling .read) t ∧ t.events = s.events ++ [.wait s₀.polldly.toNat] := by
  rw [step_waitstart h.busy h.agenda h.op] at hst
  simp [execWaitstart, h.point, waitstartAt, searchStep, sampleBegin, h.spb, hs] at hst
  subst hst
  refine ⟨?_, by simp [h.polldly]⟩
  constructor <;> simp [h.busy, h.agenda, h.op, h.a0, h.spb, h.thresh, h.polldly, h.need, h.run, h.t0, h.early, h.late]

/-- The issue and the entry clock reading of a timed WAITSTART (R101). -/
theorem search_entered {s₀ s₁ s₂ : State} (hb : s₀.status.busy = false)
    (ha : s₀.agenda = [.access (.write 0x000 0x00000008)]) (hrx : s₀.params.rxPin ≠ none) (hs : s₀.spb.toNat = 1)
    (hT : s₀.arg0 ≠ 0) (h₁ : step s₀ = .next s₁) (h₂ : step s₁ = .next s₂) :
    IdleSearch s₀ s₂.env.clock (.sampling .read) s₂ := by
  have hT' : s₀.arg0.toNat ≠ 0 := fun h0 => hT (BitVec.eq_of_toNat_eq (by simpa using h0))
  have hp : s₀.params.rxPresent = true := by simpa [Params.rxPresent, Option.isSome_iff_ne_none] using hrx
  have hclk (e : Env) : e.afterClock.clock = e.clock + clockAdvance e := by
    unfold Env.afterClock clockAdvance; split <;> rfl
  have hw : step s₀ = execWaitstart (latch 0x08 { s₀ with agenda := [], cmd := 0x00000008 }) := by
    simp only [step, nextMove, ha, accessMove, access, busWrite, show target 0x000 = some .cmd from rfl,
      Target.readOnly, hb]
    rfl
  rw [hw] at h₁
  simp only [execWaitstart, latch, waitstartStart, searchStart, searchBegin, hp, hT', if_true, if_false] at h₁
  cases h₁
  rw [step_waitstart rfl rfl rfl] at h₂
  simp [execWaitstart, waitstartAt, searchStep, sampleBegin, hs, goto] at h₂
  subst h₂
  constructor <;> simp [runNeeded, hT', startRunTimed, Status.issued, clockValue, hclk]

/-- After a failure of the search the next step completes with NO_START (R105). -/
theorem search_failed {s t : State} (hp : s.eng.point = .finish (.failure .noStart)) (hb : s.status.busy = true)
    (ha : s.agenda = []) (ho : s.eng.op = 0x08) (h : step s = .next t) :
    t.status.busy = false ∧ t.status.ok = false ∧ t.status.err = .noStart := by
  rw [step_waitstart hb ha ho] at h
  simp only [execWaitstart, hp] at h
  cases h
  exact ⟨rfl, rfl, rfl⟩

/-- R63, R104: in a fair run a timed WAITSTART on an idle line ends with NO_START, when no reading of the clock comes so
long after the one before that the 32-bit elapsed time could pass over the timeout. -/
theorem timed_search_ends {run : Nat → State} (hrun : isRun run) (fair : clockGrows run)
    (hb : (run 0).status.busy = false) (ha : (run 0).agenda = [.access (.write 0x000 0x00000008)])
    (hrx : (run 0).params.rxPin ≠ none) (hs : (run 0).spb.toNat = 1) (hT : (run 0).arg0 ≠ 0)
    (hpoll : 0 < (run 0).polldly.toNat)
    (high : ∀ n v, issuesAt run n (.sample v) → (run 0).thresh.toNat < v.toNat)
    (close : ∀ n ms, issuesAt run n (.now ms) →
      (run (n + 1)).env.clock + (run 0).arg0.toNat < (run n).env.clock + 2 ^ 32) :
    ∃ n, 0 < n ∧ (run n).status.busy = false ∧ (run n).status.ok = false ∧ (run n).status.err = .noStart := by
  by_contra never
  set c := (run 2).env.clock with hc
  have sampled {n : Nat} (h : IdleSearch (run 0) c (.sampling .read) (run n)) :
      IdleSearch (run 0) c .clock (run (n + 1)) :=
    h.sample hs hT (high n _ (h.sample_event hs (hrun n))) (hrun n)
  have timed {n : Nat} (h : IdleSearch (run 0) c .clock (run n)) :
      IdleSearch (run 0) c .pollWait (run (n + 1)) := by
    obtain ⟨he, hk⟩ := h.clock_event (hrun n)
    have := close n _ he
    obtain hw | ⟨hp, hb', ha', ho'⟩ := h.clock (by omega) (hrun n)
    · exact hw
    · exact absurd ⟨n + 1 + 1, by omega, search_failed hp hb' ha' ho' (hrun (n + 1))⟩ never
  have waited {n : Nat} (h : IdleSearch (run 0) c .pollWait (run n)) := h.wait hs (hrun n)
  have round (k : Nat) : IdleSearch (run 0) c (.sampling .read) (run (2 + 3 * k)) := by
    induction k with
    | zero => exact search_entered hb ha hrx hs hT (hrun 0) (hrun 1)
    | succ k ih => exact (waited (timed (sampled ih))).1
  obtain ⟨n, hn, hlate⟩ := clockGrows_readings fair
    (fun n => ⟨2 + 3 * n + 2, (run 0).polldly.toNat, by omega, hpoll, (waited (timed (sampled (round n)))).2⟩)
    (fun n => ⟨2 + 3 * n + 1, _, by omega, ((sampled (round n)).clock_event (hrun _)).1⟩)
    (c + (run 0).arg0.toNat + 1) 2
  obtain ⟨k, r, hr, rfl⟩ : ∃ k r, r < 3 ∧ n = 2 + 3 * k + r := ⟨(n - 2) / 3, (n - 2) % 3, by omega, by omega⟩
  have hk : (run (2 + 3 * k + r + 1)).env.clock ≤ c + (run 0).arg0.toNat := by
    interval_cases r
    · exact (sampled (round k)).late
    · exact (timed (sampled (round k))).late
    · exact (waited (timed (sampled (round k)))).1.late
  omega

end Sys2Proof.Machine
end

