-- ==== Sys2Proof/Laws/PerInstr.lean ====
section
/-! SUPPORT. A fact of every command as syntax, one lemma a constructor: its word holds its opcode under a zero RSV
field, and the opcode map reads the command back (R72, R74). -/

namespace Sys2Proof.Laws.CommandWord

open Sys2Proof

/-- The word of `i` has RSV 0 and OP its opcode, and the opcode is `i`'s alone. -/
def Statement (i : Instr) : Prop :=
  rsvField (encode i) = 0 ∧ opField (encode i) = opcode i ∧ decodeOpcode (opcode i) = some i

theorem setbd : Statement .setbd := by unfold Statement; decide
theorem setspb : Statement .setspb := by unfold Statement; decide
theorem setthr : Statement .setthr := by unfold Statement; decide
theorem sendbit : Statement .sendbit := by unfold Statement; decide
theorem send : Statement .send := by unfold Statement; decide
theorem sample : Statement .sample := by unfold Statement; decide
theorem calib : Statement .calib := by unfold Statement; decide
theorem waitstart : Statement .waitstart := by unfold Statement; decide
theorem rxbyte : Statement .rxbyte := by unfold Statement; decide
theorem rxmsg : Statement .rxmsg := by unfold Statement; decide
theorem rxloop : Statement .rxloop := by unfold Statement; decide

end Sys2Proof.Laws.CommandWord
end

