-- ==== Sys2Proof/Laws/Step.lean ====
section
/-! SUPPORT. What one atomic step can be, said once: a settled turn, or a command's meaning at the state its turn
leaves; and the one access that issues a command. Proofs about `step` start here and unfold it no more. -/

namespace Sys2Proof.Machine

/-- A step that answers a next state is a settled turn, or a command's meaning. -/
theorem step_cases {s t : State} (h : step s = .next t) :
    nextMove s = .settled t ∨ ∃ i u, nextMove s = .run i u ∧ exec i u = .next t := by
  simp only [step] at h
  split at h
  · cases h
    exact .inl ‹_›
  · exact .inr ⟨_, _, ‹_›, h⟩
  · cases h

/-- The engine's turn runs the command that e.op holds, at the state unchanged, or is settled with nothing done. -/
theorem engineMove_cases (s : State) :
    (s.status.busy = false ∧ engineMove s = .settled s) ∨
    (s.status.busy = true ∧ ∃ i, decodeOpcode s.eng.op = some i ∧ engineMove s = .run i s) ∨
    (s.status.busy = true ∧ decodeOpcode s.eng.op = none ∧ engineMove s = .stray) := by
  cases hb : s.status.busy with
  | false => exact .inl ⟨rfl, by simp [engineMove, hb]⟩
  | true =>
    cases hd : decodeOpcode s.eng.op with
    | some i => exact .inr (.inl ⟨rfl, i, rfl, by simp [engineMove, hb, hd]⟩)
    | none => exact .inr (.inr ⟨rfl, rfl, by simp [engineMove, hb, hd]⟩)

/-- Address decode finds a TXBUF word only below 64 (R41). -/
theorem target_txbuf {off : Offset} {m : Nat} (h : target off = some (.txbuf m)) : m < 64 := by
  simp only [target] at h
  split at h
  · cases h
  split at h
  · simp only [registerAt] at h
    split at h <;> cases h
  split at h
  · cases h
    omega
  split at h <;> cases h

/-- Address decode finds CMD at offset 0x000 alone (R41). -/
theorem target_cmd {off : Offset} (h : target off = some .cmd) : off = 0x000 := by
  simp only [target] at h
  split at h
  · cases h
  split at h
  · apply BitVec.eq_of_toNat_eq
    revert h
    generalize off.toNat = n
    intro h
    simp only [registerAt] at h
    split at h <;> first | rfl | cases h
  split at h
  · cases h
  split at h <;> cases h

/-- The access that issues a command (R50): a write to CMD while idle, of a word that decodes to the command, with
operands that R77 accepts; the command is latched and nothing else happens before its rule starts. -/
theorem access_issues {a : Access} {s u : State} {i : Instr} (h : access a s = .issued i u) :
    ∃ w, a = .write 0x000 w ∧ s.status.busy = false ∧ decodeWord w = .ok i ∧
      operandsAccepted i s.arg0 s.arg1 = true ∧ u = latch (opField w) { s with cmd := w } := by
  cases a with
  | read off => cases h
  | write off v =>
    simp only [access, busWrite] at h
    split at h
    · cases h
    rename_i tg htg
    split at h
    · cases h
    split at h
    · cases h
    rename_i hro hbz
    cases tg <;> simp only [writeTarget] at h <;> try cases h
    simp only [writeCmd] at h
    split at h
    · cases h
    split at h
    · cases h
      exact ⟨v, by rw [target_cmd htg], by simpa using hbz, ‹_›, ‹_›, rfl⟩
    · cases h

end Sys2Proof.Machine
end

