-- ==== Sys2Proof/Laws/Timing.lean ====
section
/-! SUPPORT. The laws of event sequences: requested waiting, counts, the line and the reference timing model over two
sequences one after the other, and how many events the transmit rules name. -/

namespace Sys2Proof.Machine

@[simp] theorem requestedWait_nil : requestedWait [] = 0 := rfl

@[simp] theorem requestedWait_cons (e : Event) (es : List Event) :
    requestedWait (e :: es) = e.requested + requestedWait es := by simp [requestedWait]

@[simp] theorem requestedWait_append (es fs : List Event) :
    requestedWait (es ++ fs) = requestedWait es + requestedWait fs := by simp [requestedWait]

@[simp] theorem driveCount_append (es fs : List Event) : driveCount (es ++ fs) = driveCount es + driveCount fs := by
  simp [driveCount]

@[simp] theorem waitCount_append (es fs : List Event) : waitCount (es ++ fs) = waitCount es + waitCount fs := by
  simp [waitCount]

@[simp] theorem virtualTime_append (τ : Nat) (es fs : List Event) :
    virtualTime τ (es ++ fs) = virtualTime (virtualTime τ es) fs := by
  simp [virtualTime, Nat.add_assoc]

/-! ### The reference timing model -/

@[simp] theorem channelAllows_none (τ : Nat) (v : Half) : channelAllows none τ v = true := rfl

@[simp] theorem channelAllows_some (f : Nat → Half) (τ : Nat) (v : Half) :
    channelAllows (some f) τ v = decide (v = f τ) := rfl

/-- The second sequence starts at the virtual time at which the first ends. -/
theorem followsReference_append (c0 : Nat) (channel : Option (Nat → Half)) (τ : Nat) (es fs : List Event) :
    followsReference c0 channel τ (es ++ fs) =
      (followsReference c0 channel τ es && followsReference c0 channel (virtualTime τ es) fs) := by
  induction es generalizing τ with
  | nil => simp [followsReference, virtualTime]
  | cons e es ih =>
    cases e <;>
      simp [followsReference, ih, virtualTime, Event.requested, Nat.add_assoc, Bool.and_assoc]

/-- A run that follows the reference for some channel follows it where no channel is assumed. -/
theorem followsReference_unassumed {c0 τ : Nat} {f : Nat → Half} {es : List Event}
    (h : followsReference c0 (some f) τ es = true) : followsReference c0 none τ es = true := by
  induction es generalizing τ with
  | nil => rfl
  | cons e es ih =>
    cases e <;> simp only [followsReference, channelAllows_none, channelAllows_some, Bool.and_eq_true,
      Bool.true_and] at h ⊢
    · exact ih h
    · exact ih h
    · exact ih h.2
    · exact ⟨h.1, ih h.2⟩
    · exact ih h

/-! ### The line -/

/-- Before the events begin the line is where it was. -/
theorem lineLevelAt_before {t τ : Nat} (h : t < τ) (level : Bool) (es : List Event) :
    lineLevelAt t τ level es = level := by
  induction es generalizing τ level with
  | nil => rfl
  | cons e es ih =>
    cases e with
    | drive l => simp only [lineLevelAt, if_neg (Nat.not_le.mpr h)]; exact ih h level
    | wait us => exact ih (Nat.lt_add_right us h) level
    | sample _ => exact ih h level
    | now _ => exact ih h level
    | emit _ => exact ih h level

/-- The second sequence starts at the time and with the level that the first leaves. -/
theorem lineLevelAt_append (t τ : Nat) (level : Bool) (es fs : List Event) :
    lineLevelAt t τ level (es ++ fs) = lineLevelAt t (virtualTime τ es) (lineLevelAt t τ level es) fs := by
  induction es generalizing τ level with
  | nil => rfl
  | cons e es ih =>
    cases e <;> simp [lineLevelAt, ih, virtualTime, Event.requested, Nat.add_assoc]

/-! ### The transmit rules' sequences (R89, R91) -/

@[simp] theorem counts_bitEvents (bd : Nat) (l : Bool) :
    driveCount (bitEvents bd l) = 1 ∧ waitCount (bitEvents bd l) = 1 ∧ (bitEvents bd l).length = 2 ∧
      requestedWait (bitEvents bd l) = bd := ⟨rfl, rfl, rfl, by simp [bitEvents, Event.requested]⟩

@[simp] theorem counts_frameEvents (bd : Nat) (c : Byte) :
    driveCount (frameEvents bd c) = 10 ∧ waitCount (frameEvents bd c) = 11 ∧ (frameEvents bd c).length = 21 ∧
      requestedWait (frameEvents bd c) = 11 * bd :=
  ⟨rfl, rfl, rfl, by simp [frameEvents, bitEvents, dataBits, List.range_succ, Event.requested]; omega⟩

/-- A string of N bytes: 10N + 1 drives, 11N + 1 waits, no other event, (11N + 1)·bd of requested waiting (R91, R144). -/
theorem counts_sendEvents (bd : Nat) (bytes : List Byte) :
    driveCount (sendEvents bd bytes) = 10 * bytes.length + 1 ∧
    waitCount (sendEvents bd bytes) = 11 * bytes.length + 1 ∧
    (sendEvents bd bytes).length = 21 * bytes.length + 2 ∧
    requestedWait (sendEvents bd bytes) = (11 * bytes.length + 1) * bd := by
  induction bytes with
  | nil => exact ⟨rfl, rfl, rfl, by simp [sendEvents, bitEvents, Event.requested]⟩
  | cons c rest ih =>
    obtain ⟨d, w, l, r⟩ := ih
    obtain ⟨d', w', l', r'⟩ := counts_frameEvents bd c
    have h : sendEvents bd (c :: rest) = frameEvents bd c ++ sendEvents bd rest := by simp [sendEvents]
    refine ⟨?_, ?_, ?_, ?_⟩
    · rw [h, driveCount_append, d, d', List.length_cons]; omega
    · rw [h, waitCount_append, w, w', List.length_cons]; omega
    · rw [h, List.length_append, l, l', List.length_cons]; omega
    · rw [h, requestedWait_append, r, r', List.length_cons]; ring

end Sys2Proof.Machine
end

