-- ==== Sys2Proof/Tests/Slice0.lean ====
section
/-! SUPPORT. The model's own tests: the refusals of WellFormed, every command's decoding from a word written out from
R72 and R74, small one-step tests whose expected values come from the rules' own examples and corner cases (named at
each), and for every statement with hypotheses a concrete state that meets them. -/

namespace Sys2Proof.Tests

open Sys2Proof Sys2Proof.Machine

/-! ## WellFormed refuses each kind of ill-formed term -/

theorem test_wf_send_257_refused : legalOperands .send 257 0 = false := by decide
theorem test_wf_send_256_legal : legalOperands .send 256 0 = true := by decide
theorem test_wf_rxmsg_257_refused : legalOperands .rxmsg 257 0 = false := by decide
theorem test_wf_misaligned_read_refused : Access.wf (.read 0x002) = false := by decide
theorem test_wf_misaligned_write_refused : Access.wf (.write 0x101 0) = false := by decide
theorem test_wf_line_misaligned_refused : Asm.wf (.write 0x013 0) = false ∧ Asm.wf (.read 0x013) = false := by decide
theorem test_wf_command_line_refused : Asm.wf (.command .rxmsg 257 0) = false := by decide
theorem test_wf_long_string_refused (bytes : List Byte) (h : bytes.length = 257) :
    Asm.wf (.txload bytes) = false ∧ Asm.wf (.sendStr bytes) = false :=
  ⟨decide_eq_false (by omega), decide_eq_false (by omega)⟩
theorem test_wf_params_bias_refused :
    Params.wf ⟨none, none, 0, 0, 0⟩ = false ∧ Params.wf ⟨none, none, 0, 2 ^ 31 + 1, 0⟩ = false := by decide

/-! ## Decoding: RSV (bits 31:8, all 0), then OP (bits 7:0), from R72 and R74 -/

theorem test_decode_setbd : decodeWord 0b00000000000000000000000000000001#32 = .ok .setbd := by decide
theorem test_decode_setspb : decodeWord 0b00000000000000000000000000000010#32 = .ok .setspb := by decide
theorem test_decode_setthr : decodeWord 0b00000000000000000000000000000011#32 = .ok .setthr := by decide
theorem test_decode_sendbit : decodeWord 0b00000000000000000000000000000100#32 = .ok .sendbit := by decide
theorem test_decode_send : decodeWord 0b00000000000000000000000000000101#32 = .ok .send := by decide
theorem test_decode_sample : decodeWord 0b00000000000000000000000000000110#32 = .ok .sample := by decide
theorem test_decode_calib : decodeWord 0b00000000000000000000000000000111#32 = .ok .calib := by decide
theorem test_decode_waitstart : decodeWord 0b00000000000000000000000000001000#32 = .ok .waitstart := by decide
theorem test_decode_rxbyte : decodeWord 0b00000000000000000000000000001001#32 = .ok .rxbyte := by decide
theorem test_decode_rxmsg : decodeWord 0b00000000000000000000000000001010#32 = .ok .rxmsg := by decide
theorem test_decode_rxloop : decodeWord 0b00000000000000000000000000001011#32 = .ok .rxloop := by decide

/-- R76: opcode 0x00, the opcode after the last, and a legal opcode under a nonzero RSV are refused, each by name. -/
theorem test_decode_refusals :
    decodeWord 0b00000000000000000000000000000000#32 = .error .reservedOpcode ∧
    decodeWord 0b00000000000000000000000000001100#32 = .error .reservedOpcode ∧
    decodeWord 0b00000000000000000000000100000101#32 = .error .reservedField ∧
    decodeWord 0b10000000000000000000000000000001#32 = .error .reservedField ∧
    decodeBytes [5, 0, 0] = .error .truncated := by decide

/-- The table's numbering of bits, and numbers wider than a command word. -/
theorem test_decode_table_word :
    decodeTableWord 32 0x0A = some .rxmsg ∧ decodeTableWord 32 0x0C = none ∧
    decodeTableWord 32 (2 ^ 32 + 1) = none ∧ decodeTableWord 64 1 = none := by decide

/-! ## A small state, and one command's next step -/

/-- An idle machine with both pins, THRESH_RESET 500 and LOOP_TIMEOUT_BIAS_MS 10, at its reset values. -/
def base : State := { State.resetOf ⟨some 1, some 2, 500, 10, 0⟩ with env := ⟨0, [], [], [], 0⟩ }

/-- `base` without pins. -/
def bare : State := { base with params := ⟨none, none, 500, 10, 0⟩ }

/-- `s` with command `i` issued with operands `a0` and `a1`. -/
def issue (i : Instr) (a0 a1 : Word) (s : State) : State := State.issued i { s with arg0 := a0, arg1 := a1 }

/-- `s` running command `i` at place `p` and phase `ph`. -/
def running (i : Instr) (p : Point) (ph : Phase) (a0 a1 : Word) (s : State) : State :=
  let u := issue i a0 a1 s
  { u with eng := { u.eng with point := p, phase := ph } }

/-- `s` with analog readings to come. -/
def reading (l : List Half) (s : State) : State := { s with env := { s.env with samples := l } }

/-- `s` with the host about to make access `a`. -/
def hosting (a : Access) (s : State) : State := { s with agenda := [.access a] }

/-- What an outcome leaves; `base` where it is no next state. -/
def left : Host.Outcome State Fault Refusal → State
  | .next t => t
  | .fault _ => base
  | .refused _ => base

/-! ## One step of each command -/

/-- R85's example: from reset, SETBD 100. -/
theorem test_setbd_100 :
    let t := left (exec .setbd (issue .setbd 100 0 base))
    t.bitdur = 100 ∧ t.spacing = 50 ∧ t.polldly = 50 ∧ t.status.ok = true ∧ t.status.busy = false := by decide

/-- R85's corner case: SETBD 0 leaves all three registers. -/
theorem test_setbd_0 :
    let t := left (exec .setbd (issue .setbd 0 0 base))
    t.bitdur = 1000 ∧ t.spacing = 500 ∧ t.polldly = 250 ∧ t.status.ok = true := by decide

/-- R86's example: from reset, SETSPB 4. -/
theorem test_setspb_4 :
    let t := left (exec .setspb (issue .setspb 4 0 base))
    t.spb = 4 ∧ t.spacing = 200 ∧ t.polldly = 250 := by decide

/-- R86's corner cases: 0 stores 1, above 65535 stores 65535 and SPACING falls to its floor. -/
theorem test_setspb_0_and_70000 :
    (left (exec .setspb (issue .setspb 0 0 base))).spb = 1 ∧
    (left (exec .setspb (issue .setspb 70000 0 base))).spb = 65535 ∧
    (left (exec .setspb (issue .setspb 70000 0 base))).spacing = 5 := by decide

/-- R87: SETTHR 0x12345 saturates; the timing is not recomputed. -/
theorem test_setthr_saturates :
    let t := left (exec .setthr (issue .setthr 0x12345 0 { base with spacing := 9 }))
    t.thresh = 65535 ∧ t.spacing = 9 := by decide

/-- R90's example: SENDBIT 0 drives low; any nonzero operand drives high. -/
theorem test_sendbit_level :
    (left (exec .sendbit (running .sendbit (.sendbit .drive) .tx 0 0 base))).events = [.drive false] ∧
    (left (exec .sendbit (running .sendbit (.sendbit .drive) .tx 0xFFFFFFFF 0 base))).events = [.drive true] := by
  decide

/-- R90: without a transmit pin SENDBIT completes in the issuing step, no event. -/
theorem test_sendbit_without_pin :
    let t := left (exec .sendbit (issue .sendbit 1 0 bare))
    t.events = [] ∧ t.status.ok = true ∧ t.status.busy = false ∧ t.status.err = .noError := by decide

/-- R91: byte 0x41 has data bit 0 high and data bit 1 low, least-significant first. -/
theorem test_send_data_bits :
    let s := running .send (.send .dataDrive) .tx 1 0 base
    (left (exec .send { s with eng := { s.eng with c := 0x41, i := 0 } })).events = [.drive true] ∧
    (left (exec .send { s with eng := { s.eng with c := 0x41, i := 1 } })).events = [.drive false] := by decide

/-- R91: SEND 0 with a transmit pin has only the final idle-high bit to send. -/
theorem test_send_0_goes_to_idle_bit :
    (left (exec .send (issue .send 0 0 base))).eng.point = .send .idleDrive := by decide

/-- R97's example: readings 10, 11, 13 average to 11 at the last reading. -/
theorem test_sample_average :
    let s := reading [13] { running .sample (.sample .read) .sample 0 0 base with spb := 3 }
    (left (exec .sample { s with eng := { s.eng with k := 2, sum := 21 } })).eng.point =
      .finish ⟨true, .noError, some 11, none⟩ := by decide

/-- R97: without a receive pin RESULT is 0 and OK is 1. -/
theorem test_sample_without_pin :
    let t := left (exec .sample (issue .sample 0 0 { bare with result := 9 }))
    t.result = 0 ∧ t.status.ok = true ∧ t.events = [] := by decide

/-- R98's example: samples 3, 4, 100, 50 give THRESH 51. -/
theorem test_calib_midpoint :
    let s := reading [50] (running .calib (.calib (.sampling .read)) .cal 4 100 base)
    (left (exec .calib { s with eng := { s.eng with mn := 3, mx := 100, calK := 3 } })).thresh = 51 := by decide

/-- R98's boundary: a range of 9 gives the minimum, a range of 10 the midpoint. -/
theorem test_calib_narrow_boundary :
    let s := running .calib (.calib (.sampling .read)) .cal 2 100 base
    let u := { s with eng := { s.eng with mn := 20, mx := 20, calK := 1 } }
    (left (exec .calib (reading [29] u))).thresh = 20 ∧ (left (exec .calib (reading [30] u))).thresh = 25 := by decide

/-- R105: T = 0 with a sample equal to THRESH is low and confirms. -/
theorem test_waitstart_equal_is_low :
    let s := reading [500] (running .waitstart (.waitstart (.sampling .read)) .startSearch 0 0 base)
    (left (exec .waitstart { s with eng := { s.eng with need := 1 } })).eng.point = .waitstart .alignWait := by decide

/-- R104: the search fails only when the elapsed time is strictly above T, across a wrap of the clock. -/
theorem test_waitstart_timeout_is_strict :
    let s := running .waitstart (.waitstart .clock) .startSearch 5 0 base
    let u := { s with eng := { s.eng with need := 3, t0 := 0xFFFFFFFE } }
    (left (exec .waitstart { u with env := ⟨0, [], [3], [], 0⟩ })).eng.point = .waitstart .pollWait ∧
    (left (exec .waitstart { u with env := ⟨0, [], [4], [], 0⟩ })).eng.point = .finish (.failure .noStart) := by decide

/-- R107: a stop sample equal to THRESH is a desync. -/
theorem test_rxbyte_stop_equal_is_desync :
    let s := reading [500] (running .rxbyte (.rxbyte (.stop .read)) .stopCheck 0 0 base)
    (left (exec .rxbyte s)).eng.phase = .desync := by decide

/-- R106: data sample i sets bit i when above THRESH, and leaves it 0 when equal. -/
theorem test_rxbyte_data_bit :
    let s := running .rxbyte (.rxbyte (.data .read)) (.data 6) 0 0 base
    let u := { s with eng := { s.eng with acc := 1, i := 6 } }
    (left (exec .rxbyte (reading [501] u))).eng.acc = 0x41 ∧ (left (exec .rxbyte (reading [500] u))).eng.acc = 1 := by
  decide

/-- R109: RXMSG with maxChars 0 fails with EMPTY, LEN 0 and END MAXCHARS, at once. -/
theorem test_rxmsg_empty :
    let t := left (exec .rxmsg (issue .rxmsg 0 7 base))
    t.status.ok = false ∧ t.status.err = .empty ∧ t.msglen = ⟨0, .maxChars⟩ ∧ t.events = [] := by decide

/-- R109: a line feed as byte number M ends with LINEFEED and LEN M, and stands in MSGBUF. -/
theorem test_rxmsg_line_feed_last :
    let s := running .rxmsg (.rxmsg .closeWait) .decoded 3 0 base
    let t := left (exec .rxmsg { s with eng := { s.eng with acc := 0x0A, n := 2 } })
    t.eng.point = .finish ⟨true, .noError, none, some ⟨3, .lineFeed⟩⟩ ∧ msgByte t 2 = 0x0A := by decide

/-- R112, R113: a stop request ends the loop at the iteration check. -/
theorem test_rxloop_stop :
    let s := running .rxloop (.rxloop .check) .loopBackoff 0 0 base
    let t := left (exec .rxloop { s with eng := { s.eng with stopReq := true } })
    t.status.busy = false ∧ t.status.ok = true ∧ t.eng.stopReq = false ∧ t.events = [] := by decide

/-- R112, R64: the byte waits in LOOP_EMIT until the sink accepts it. -/
theorem test_rxloop_emit :
    let s := running .rxloop (.rxloop .emit) .loopEmit 0 0 base
    let u := { s with eng := { s.eng with acc := 0x68 } }
    (left (exec .rxloop { u with env := ⟨0, [], [], [false], 0⟩ })).events = [] ∧
    (left (exec .rxloop { u with env := ⟨0, [], [], [true], 0⟩ })).events = [.emit 0x68] := by decide

/-! ## Host accesses -/

/-- R50, R76: an illegal word is held in CMD and rejected with code 8. -/
theorem test_illegal_command :
    let t := left (step (hosting (.write 0x000 0x0C) base))
    t.cmd = 0x0C ∧ t.status.word = 0x80 := by decide

/-- R45, R47, R117: a write while busy, and a write to a read-only register while busy. -/
theorem test_refused_writes :
    let s := running .sendbit (.sendbit .wait) .tx 0 0 base
    (left (step (hosting (.write 0x100 1) s))).status.hcause = .busyWrite ∧
    (left (step (hosting (.write 0x020 1) s))).status.hcause = .roWrite ∧
    (left (step (hosting (.write 0x01C 1) s))).status.hcause = .badAddress := by decide

/-- R81: TXLOAD of five bytes is two words, little-endian, the missing bytes 0. -/
theorem test_txload :
    asmTurns (.txload [1, 2, 3, 4, 5]) =
      [.access (.write 0x100 0x04030201), .access (.write 0x104 0x00000005)] := by decide

/-! ## Witnesses: for every statement with hypotheses, states that meet them all, clause by clause -/

/-- Whether every listed offset satisfies `p`. -/
def every (l : List Offset) (p : Offset → Bool) : Bool := l.all p

/-- Mapped aligned offsets at the ends of their ranges, with a read of one of them next. -/
theorem witness_MappedReadHasNoSideEffect :
    (hosting (.read 0x2FC) base).agenda = .access (.read 0x2FC) :: [] ∧
    every [0x000, 0x018, 0x020, 0x034, 0x100, 0x1FC, 0x200, 0x2FC]
      (fun off => off.toNat % 4 = 0 ∧ ¬ unmappedOffset off.toNat) = true := by decide

theorem witness_BadReadReturnsZeroAndIsRefused :
    (hosting (.read 0x300) base).agenda = .access (.read 0x300) :: [] ∧
    every [0x01C, 0x038, 0x0FC, 0x300, 0xFFC] (fun off => unmappedOffset off.toNat) = true ∧
    every [0x001, 0x2FE, 0xFFF] (fun off => off.toNat % 4 ≠ 0) = true := by decide

/-- A running machine, for the clause of BUSY_WRITE. -/
def busy : State := running .sendbit (.sendbit .wait) .tx 0 0 base

theorem witness_WritesAreRefusedInOrder :
    (hosting (.write 0x1FC 7) busy).agenda = .access (.write 0x1FC 7) :: [] ∧ busy.status.busy = true ∧
    every [0x01C, 0x038, 0x0FC, 0x300, 0xFFC] (fun off => unmappedOffset off.toNat) = true ∧
    every [0x010, 0x018, 0x020, 0x034, 0x200, 0x2FC]
      (fun off => off.toNat % 4 = 0 ∧ readOnlyOffset off.toNat) = true ∧
    every [0x000, 0x008, 0x100, 0x1FC] (fun off => off.toNat % 4 = 0 ∧ writableOffset off.toNat) = true := by decide

/-- No offset falls under two clauses of WritesAreRefusedInOrder. -/
theorem write_clauses_apart (off : Offset) :
    ¬ (unmappedOffset off.toNat ∧ readOnlyOffset off.toNat) ∧
    ¬ (unmappedOffset off.toNat ∧ writableOffset off.toNat) ∧
    ¬ (readOnlyOffset off.toNat ∧ writableOffset off.toNat) ∧
    ¬ unmappedOffset 0x00C ∧ ¬ readOnlyOffset 0x00C ∧ ¬ writableOffset 0x00C := by
  unfold unmappedOffset readOnlyOffset writableOffset
  omega

theorem witness_IdleWriteStoresOperandOrBuffer :
    base.status.busy = false ∧ (hosting (.write 0x004 9) base).agenda = .access (.write 0x004 9) :: [] ∧
    (hosting (.write 0x008 9) base).agenda = .access (.write 0x008 9) :: [] ∧
    (hosting (.write 0x1FC 9) base).agenda = .access (.write (BitVec.ofNat 12 (0x100 + 4 * 63)) 9) :: [] := by decide

theorem witness_BufferWordReadsBack :
    let s := { base with agenda := [.access (.write 0x1FC 9), .access (.read 0x1FC)] }
    s.status.busy = false ∧ s.agenda = [.access (.write (BitVec.ofNat 12 (0x100 + 4 * 63)) 9),
      .access (.read (BitVec.ofNat 12 (0x100 + 4 * 63)))] := by decide

/-- An illegal opcode, an illegal RSV, an operand one above the depth, and one at it. -/
theorem witness_CmdWriteRejectsOrIssues :
    base.status.busy = false ∧ (hosting (.write 0x000 0x0C) base).agenda = .access (.write 0x000 0x0C) :: [] ∧
    0x0B < ((0x0C : Word).extractLsb' 0 8).toNat ∧ ((0x100 : Word).extractLsb' 0 8).toNat = 0 ∧
    (0x101 : Word).extractLsb' 8 24 ≠ 0 ∧
    (0x05 : Word) = encode .send ∧ 256 < ({ base with arg0 := 257 } : State).arg0.toNat ∧
    (0x0A : Word) = encode .rxmsg ∧ ¬ 256 < ({ base with arg0 := 256 } : State).arg0.toNat := by decide

theorem witness_CtrlWriteStopsAndClears :
    (hosting (.write 0x00C 3) busy).agenda = .access (.write 0x00C 3) :: [] := by decide

theorem witness_ConfigurationCommandsAreAtomic :
    base.status.busy = false ∧
    (hosting (.write 0x000 1) base).agenda = .access (.write 0x000 (encode .setbd)) :: [] ∧
    (hosting (.write 0x000 2) base).agenda = .access (.write 0x000 (encode .setspb)) :: [] ∧
    (hosting (.write 0x000 3) base).agenda = .access (.write 0x000 (encode .setthr)) :: [] := by decide

theorem witness_EngineTurnRunsLatchedCommand :
    busy.status.busy = true ∧ busy.eng.op = opcode .sendbit ∧ busy.agenda = [] ∧
    ({ busy with agenda := [.engine] } : State).agenda = .engine :: [] := by decide

theorem witness_PlacedWordIsRunNext :
    ¬ ((Instr.send = .send ∨ Instr.send = .rxmsg) ∧ 256 < ({ base with arg0 := 256 } : State).arg0.toNat) := by decide

theorem witness_ResetTurnRestoresResetValues :
    ({ busy with agenda := [.reset] } : State).agenda = .reset :: [] := by decide

theorem witness_CompletionIsOneStep :
    (running .rxmsg (.finish (.failure .desync)) .desync 3 0 base).eng.point = .finish (.failure .desync) ∧
    Instr.rxmsg ≠ .setbd ∧ Instr.rxmsg ≠ .setspb ∧ Instr.rxmsg ≠ .setthr := by decide

theorem witness_SetbdStoresAndRecomputes :
    (issue .setbd 0 0 base).eng.a0 = 0 ∧ (issue .setbd 1 0 base).eng.a0 ≠ 0 := by decide

theorem witness_SendbitStepByStep :
    (issue .sendbit 1 0 bare).eng.point = .idle ∧ bare.params.txPin = none ∧
    (issue .sendbit 1 0 base).eng.point = .idle ∧ base.params.txPin ≠ none ∧
    (running .sendbit (.sendbit .drive) .tx 1 0 base).eng.point = .sendbit .drive ∧
    busy.eng.point = .sendbit .wait := by decide

/-- `s` running command `i` at `p`, for the clauses that name a place. -/
theorem witness_place (i : Instr) (p : Point) (ph : Phase) (a0 a1 : Word) (s : State) :
    (running i p ph a0 a1 s).eng.point = p ∧ (running i p ph a0 a1 s).params = s.params := ⟨rfl, rfl⟩

/-- The clauses that ask for more than a place, at the ends of their ranges. -/
theorem witness_SendStepByStep :
    (issue .send 3 0 bare).eng.point = .idle ∧ bare.params.txPin = none ∧ base.params.txPin ≠ none ∧
    (issue .send 0 0 base).eng.a0 = 0 ∧ (issue .send 1 0 base).eng.a0 ≠ 0 ∧
    (let s := running .send (.send .dataWait) .tx 2 0 base
     let u := { s with eng := { s.eng with i := 6 } }
     let v := { s with eng := { s.eng with i := 7 } }
     u.eng.point = .send .dataWait ∧ u.eng.i < 7 ∧ v.eng.point = .send .dataWait ∧ 7 ≤ v.eng.i) ∧
    (let s := running .send (.send .gapWait) .tx 2 0 base
     let u := { s with eng := { s.eng with j := 1 } }
     s.eng.point = .send .gapWait ∧ s.eng.j + 1 < s.eng.a0.toNat ∧
     u.eng.point = .send .gapWait ∧ u.eng.a0.toNat ≤ u.eng.j + 1) := by decide

/-- Two readings a sample: the first is not the last, the second is; and with one reading a sample it is the last. -/
def two : State := { base with spb := 2 }

theorem witness_last_reading :
    ¬ (two.lastReading) ∧ State.lastReading { two with eng := { two.eng with k := 1 } } ∧ base.lastReading := by
  decide

theorem witness_OversamplingWaitsBetweenReadings :
    SampleIn .rxloop (fun p => .rxloop (.byte (.stop p))) ∧
    (running .rxloop (.rxloop (.byte (.stop .read))) .stopCheck 0 0 two).eng.point = .rxloop (.byte (.stop .read)) ∧
    ¬ (running .rxloop (.rxloop (.byte (.stop .read))) .stopCheck 0 0 two).lastReading ∧
    (running .rxloop (.rxloop (.byte (.stop .space))) .stopCheck 0 0 two).eng.point =
      .rxloop (.byte (.stop .space)) := by
  exact ⟨.rxloopStop, by decide⟩

theorem witness_SampleStepByStep :
    (issue .sample 0 0 bare).eng.point = .idle ∧ bare.params.rxPin = none ∧ base.params.rxPin ≠ none ∧
    (running .sample (.sample .read) .sample 0 0 base).lastReading := by
  decide

theorem witness_CalibStepByStep :
    (issue .calib 1 0 bare).eng.point = .idle ∧ bare.params.rxPin = none ∧
    (issue .calib 0 0 base).eng.a0 = 0 ∧ (issue .calib 1 0 base).eng.a0 ≠ 0 ∧ base.params.rxPin ≠ none ∧
    (let s := running .calib (.calib (.sampling .read)) .cal 2 0 base
     let u := { s with eng := { s.eng with calK := 1 } }
     s.eng.point = .calib (.sampling .read) ∧ s.lastReading ∧ s.eng.calK + 1 < s.eng.a0.toNat ∧
     u.eng.point = .calib (.sampling .read) ∧ u.lastReading ∧ u.eng.a0.toNat ≤ u.eng.calK + 1) := by
  decide

/-- A search that needs three lows and has two: a low confirms, a high does not. -/
def searching (i : Instr) (p : Point) (v : Half) (a0 : Word) : State :=
  let s := reading [v] (running i p .startSearch a0 a0 base)
  { s with eng := { s.eng with need := 3, run := 2 } }

theorem witness_StartSearchStepByStep :
    SearchIn .rxbyte (fun s => s.eng.a0.toNat) (fun q => .rxbyte (.search q)) ∧
    (let s := searching .rxbyte (.rxbyte (.search (.sampling .read))) 500 4
     s.eng.point = .rxbyte (.search (.sampling .read)) ∧ s.lastReading ∧ s.eng.need ≤ s.runNow) ∧
    (let s := searching .rxbyte (.rxbyte (.search (.sampling .read))) 501 4
     s.lastReading ∧ s.runNow < s.eng.need ∧ s.eng.a0.toNat ≠ 0) ∧
    (let s := { searching .rxbyte (.rxbyte (.search .clock)) 0 4 with env := ⟨0, [], [4], [], 0⟩ }
     s.eng.point = .rxbyte (.search .clock) ∧ (clockValue s - s.eng.t0).toNat ≤ s.eng.a0.toNat) := by
  exact ⟨.rxbyte, by decide⟩

theorem witness_WaitstartStepByStep :
    (issue .waitstart 0 0 bare).eng.point = .idle ∧ bare.params.rxPin = none ∧ base.params.rxPin ≠ none ∧
    (let s := searching .waitstart (.waitstart (.sampling .read)) 501 0
     s.eng.point = .waitstart (.sampling .read) ∧ s.lastReading ∧ s.runNow < s.eng.need ∧ s.eng.a0 = 0) ∧
    (let s := { searching .waitstart (.waitstart .clock) 0 4 with env := ⟨0, [], [5], [], 0⟩ }
     s.eng.point = .waitstart .clock ∧ s.eng.a0.toNat < (clockValue s - s.eng.t0).toNat) := by
  decide

/-- Data bits 6 and 7, and readings at THRESH and one above it. -/
theorem witness_ByteReceptionStepByStep :
    ByteIn .rxmsg Point.rxmsg ∧
    (let s := reading [500] (running .rxmsg (.rxmsg (.data .read)) (.data 0) 1 0 base)
     s.eng.point = .rxmsg (.data .read) ∧ s.lastReading ∧ s.oversample.toNat ≤ s.thresh.toNat) ∧
    (let s := reading [501] (running .rxmsg (.rxmsg (.data .read)) (.data 0) 1 0 base)
     s.lastReading ∧ s.thresh.toNat < s.oversample.toNat) ∧
    (let s := reading [500] (running .rxmsg (.rxmsg (.stop .read)) .stopCheck 1 0 base)
     s.eng.point = .rxmsg (.stop .read) ∧ s.lastReading ∧ s.oversample.toNat ≤ s.thresh.toNat) ∧
    (let s := reading [501] (running .rxmsg (.rxmsg (.stop .read)) .stopCheck 1 0 base)
     s.lastReading ∧ s.thresh.toNat < s.oversample.toNat) ∧
    (let s := running .rxmsg (.rxmsg .dataWait) (.data 6) 1 0 base
     let u := { s with eng := { s.eng with i := 6 } }
     let v := { s with eng := { s.eng with i := 7 } }
     u.eng.point = .rxmsg .dataWait ∧ u.eng.i + 1 < 8 ∧ v.eng.point = .rxmsg .dataWait ∧ 7 ≤ v.eng.i) := by
  exact ⟨.rxmsg, by decide⟩

theorem witness_RxbyteStepByStep :
    (issue .rxbyte 0 0 bare).eng.point = .idle ∧ bare.params.rxPin = none ∧ base.params.rxPin ≠ none ∧
    (let s := searching .rxbyte (.rxbyte (.search (.sampling .read))) 501 0
     s.eng.point = .rxbyte (.search (.sampling .read)) ∧ s.lastReading ∧ s.runNow < s.eng.need ∧ s.eng.a0 = 0) ∧
    (let s := { searching .rxbyte (.rxbyte (.search .clock)) 0 4 with env := ⟨0, [], [5], [], 0⟩ }
     s.eng.point = .rxbyte (.search .clock) ∧ s.eng.a0.toNat < (clockValue s - s.eng.t0).toNat) := by
  decide

/-- The last byte of MSGBUF, a line feed, the maxChars-th byte and one before it. -/
theorem witness_RxmsgStepByStep :
    (issue .rxmsg 0 0 base).eng.a0 = 0 ∧ (issue .rxmsg 1 0 bare).eng.a0 ≠ 0 ∧ bare.params.rxPin = none ∧
    (issue .rxmsg 1 0 base).eng.point = .idle ∧ base.params.rxPin ≠ none ∧
    (let s := running .rxmsg (.rxmsg .closeWait) .decoded 256 0 base
     let u := { s with eng := { s.eng with n := 255, acc := 0x0A } }
     let v := { s with eng := { s.eng with n := 255, acc := 0x0B } }
     let w := { s with eng := { s.eng with n := 254, acc := 0x0B } }
     u.eng.point = .rxmsg .closeWait ∧ u.eng.n < 256 ∧ u.eng.acc = 0x0A ∧
     v.eng.n < 256 ∧ v.eng.acc ≠ 0x0A ∧ v.eng.a0.toNat ≤ v.eng.n + 1 ∧
     w.eng.n < 256 ∧ w.eng.acc ≠ 0x0A ∧ w.eng.n + 1 < w.eng.a0.toNat ∧ w.params.rxPin ≠ none) ∧
    (let s := searching .rxmsg (.rxmsg (.search (.sampling .read))) 501 0
     s.eng.point = .rxmsg (.search (.sampling .read)) ∧ s.lastReading ∧ s.runNow < s.eng.need ∧ s.eng.a1 = 0) ∧
    (let s := { searching .rxmsg (.rxmsg (.search .clock)) 0 4 with env := ⟨0, [], [5], [], 0⟩ }
     s.eng.point = .rxmsg (.search .clock) ∧ s.eng.a1.toNat < (clockValue s - s.eng.t0).toNat) := by
  decide

/-- LoopT of `base` is 2 + 10: an elapsed time of 13 ms exceeds it. -/
theorem witness_RxloopStepByStep :
    (issue .rxloop 0 0 base).eng.point = .idle ∧
    (let s := running .rxloop (.rxloop .check) .loopBackoff 0 0 base
     let u := { s with eng := { s.eng with stopReq := true } }
     s.eng.point = .rxloop .check ∧ s.eng.stopReq = false ∧ s.params.rxPin ≠ none ∧ 1 ≤ s.params.loopBias ∧
     u.eng.point = .rxloop .check ∧ u.eng.stopReq = true) ∧
    (running .rxloop (.rxloop .check) .loopBackoff 0 0 bare).params.rxPin = none ∧
    (let s := { searching .rxloop (.rxloop (.byte (.search .clock))) 0 0 with env := ⟨0, [], [13], [], 0⟩ }
     s.eng.point = .rxloop (.byte (.search .clock)) ∧
     2 * s.bitdur.toNat / 1000 + s.params.loopBias < (clockValue s - s.eng.t0).toNat) ∧
    (let s := running .rxloop (.rxloop .emit) .loopEmit 0 0 base
     sinkAccepts { s with env := ⟨0, [], [], [true], 0⟩ } = true ∧
     sinkAccepts { s with env := ⟨0, [], [], [false], 0⟩ } = false) := by decide

theorem witness_SendTransmitsFramesThenIdles :
    let s := hosting (.write 0x000 5) { base with arg0 := 256 }
    s.status.busy = false ∧ s.agenda = [.access (.write 0x000 0x00000005)] ∧ s.params.txPin ≠ none ∧
    s.arg0.toNat ≤ 256 := by decide

/-- The string of no bytes and the longest. -/
theorem witness_SendEventCounts :
    let s := hosting (.write 0x000 5) { base with arg0 := 0 }
    let u := hosting (.write 0x000 5) { base with arg0 := 256 }
    s.status.busy = false ∧ s.agenda = [.access (.write 0x000 0x00000005)] ∧ s.params.txPin ≠ none ∧
    s.arg0.toNat ≤ 256 ∧ u.agenda = [.access (.write 0x000 0x00000005)] ∧ u.arg0.toNat ≤ 256 := by decide

/-- Bit duration 1 and the ends of each clause's interval. -/
theorem witness_FrameOccupiesElevenBitDurations :
    1 ≤ 1 ∧ (7 ≤ 7 ∧ 7 < 7 + 1) ∧ (7 < 8 ∧ 5 + (7 + 1) * 1 ≤ 13 ∧ 13 < 5 + (7 + 2) * 1) ∧
    (5 + 9 * 1 ≤ 15 ∧ 15 < 5 + 11 * 1) := by decide

theorem witness_SampleAveragesItsReadings :
    let s := reading ([10, 11, 13] ++ [7]) (hosting (.write 0x000 6) { base with spb := 3 })
    s.status.busy = false ∧ s.agenda = [.access (.write 0x000 0x00000006)] ∧ s.params.rxPin ≠ none ∧
    1 ≤ s.spb.toNat ∧ ([10, 11, 13] : List Half).length = s.spb.toNat ∧
    s.env.samples = [10, 11, 13] ++ [7] := by decide

theorem witness_CalibSetsThresholdFromItsSamples :
    let g : List (List Half) := [[3, 4], [100, 101]]
    let s := reading (g.flatten ++ [7]) (hosting (.write 0x000 7) { two with arg0 := 2 })
    s.status.busy = false ∧ s.agenda = [.access (.write 0x000 0x00000007)] ∧ s.params.rxPin ≠ none ∧
    1 ≤ s.spb.toNat ∧ 1 ≤ s.arg0.toNat ∧ g.length = s.arg0.toNat ∧ (∀ x ∈ g, x.length = s.spb.toNat) ∧
    s.env.samples = g.flatten ++ [7] ∧ (∃ x ∈ g, averageOf x = 3) ∧ (∀ x ∈ g, 3 ≤ averageOf x) ∧
    (∃ x ∈ g, averageOf x = 100) ∧ (∀ x ∈ g, averageOf x ≤ 100) := by decide

theorem witness_SentByteIsReceivedExactly :
    let s := hosting (.write 0x000 9) base
    let u := reading (frameSamples 501 500 0x41 ++ [7]) s
    let v := { s with arg0 := 1, env := ⟨0, 500 :: 500 :: (frameSamples 501 500 0x41 ++ [7]), [0, 0, 0, 9], [], 0⟩ }
    s.status.busy = false ∧ s.agenda = [.access (.write 0x000 0x00000009)] ∧ s.params.rxPin ≠ none ∧
    s.spb.toNat = 1 ∧ (500 : Half).toNat ≤ s.thresh.toNat ∧ s.thresh.toNat < (501 : Half).toNat ∧
    u.arg0 = 0 ∧ u.env.samples = frameSamples 501 500 0x41 ++ [7] ∧
    v.arg0 ≠ 0 ∧ v.env.samples = 500 :: 500 :: (frameSamples 501 500 0x41 ++ [7]) ∧
    v.env.clockSteps = 0 :: 0 :: 0 :: [9] := by decide

theorem witness_LowStopSampleIsDesync :
    let d : List Half := [900, 100, 100, 100, 100, 100, 900, 100]
    let s := reading (100 :: (d ++ 500 :: [7])) (hosting (.write 0x000 9) base)
    s.status.busy = false ∧ s.agenda = [.access (.write 0x000 0x00000009)] ∧ s.params.rxPin ≠ none ∧
    s.spb.toNat = 1 ∧ s.arg0 = 0 ∧ (100 : Half).toNat ≤ s.thresh.toNat ∧ (500 : Half).toNat ≤ s.thresh.toNat ∧
    d.length = 8 ∧ s.env.samples = 100 :: (d ++ 500 :: [7]) := by decide

theorem witness_SingleShotSamplesAtBitIntervals :
    let ch : Nat → Half := fun τ => if τ < 1000 then 0 else 900
    let s := reading (ch 13 :: ((List.range 9).map (fun i => ch (13 + 500 + 1000 + i * 1000)) ++ [7]))
      (hosting (.write 0x000 9) base)
    s.status.busy = false ∧ s.agenda = [.access (.write 0x000 0x00000009)] ∧ s.params.rxPin ≠ none ∧
    s.spb.toNat = 1 ∧ s.arg0 = 0 ∧ (ch 13).toNat ≤ s.thresh.toNat ∧
    s.env.samples = ch 13 :: ((List.range 9).map
      (fun i => ch (13 + s.bitdur.toNat / 2 + s.bitdur.toNat + i * s.bitdur.toNat)) ++ [7]) := by decide

/-- V-RX-6: the search starts at 9800 on the idle line, the frame of 0x41 at 10000; the first low sample, after one high,
is at 10050, and the elapsed time reaches 1 ms before the third low sample. -/
def late_line (τ : Nat) : Half := channelSample 900 100 (lineLevelAt τ 10000 true (frameEvents 1000 0x41))

/-- The state of V-RX-6: RXBYTE 100 with the readings of that line and a clock of 9 ms at the start. -/
def late : State :=
  { hosting (.write 0x000 9) base with
    arg0 := 100
    env := ⟨0, (List.range 4).map (fun j => late_line (9800 + 250 * j)) ++
      ((List.range 9).map (fun i => late_line (10050 + 2000 + i * 1000)) ++ [7]), [9, 0, 1, 0, 5], [], 0⟩ }

theorem witness_TimedReceptionReadsOneBitLate :
    late.status.busy = false ∧ late.agenda = [.access (.write 0x000 0x00000009)] ∧ late.params.rxPin ≠ none ∧
    late.bitdur.toNat = 1000 ∧ late.polldly.toNat = 250 ∧ late.spb.toNat = 1 ∧ late.arg0 ≠ 0 ∧
    (100 : Half).toNat ≤ late.thresh.toNat ∧ late.thresh.toNat < (900 : Half).toNat ∧
    (∀ τ : Nat, 9800 ≤ τ → τ < 10000 + 11000 →
      late_line τ = channelSample 900 100 (lineLevelAt τ 10000 true (frameEvents 1000 0x41))) ∧
    10050 = 9800 + 250 * 1 ∧ 10000 ≤ 10050 ∧ 10050 < 10000 + 250 ∧ (10050 + 250) / 1000 - 9800 / 1000 ≤ late.arg0.toNat ∧
    late.env.samples = (List.range (1 + 3)).map (fun j => late_line (9800 + 250 * j)) ++
      ((List.range 9).map (fun i => late_line (10050 + 2000 + i * 1000)) ++ [7]) ∧
    late.env.clock + 9 = 0 + 9800 / 1000 ∧
    late.env.clockSteps =
      9 :: 0 :: ((List.range (1 + 1)).map (fun j => (9800 + 250 * (j + 1)) / 1000 - (9800 + 250 * j) / 1000) ++ [5]) :=
  ⟨by decide, by decide, by decide, by decide, by decide, by decide, by decide, by decide, by decide, fun _ _ _ => rfl,
    by decide, by decide, by decide, by decide, rfl, by decide, by decide⟩

/-- Elapsed times 2 and 5 do not exceed the timeout 5, the third, 6, does. -/
def timing_out : State :=
  { hosting (.write 0x000 8) base with arg0 := 5, env := ⟨100, [501, 900, 900, 7], [17, 2, 3, 1, 9], [], 0⟩ }

theorem witness_TimedSearchFailsWhenElapsedExceeds :
    timing_out.status.busy = false ∧ timing_out.agenda = [.access (.write 0x000 0x00000008)] ∧
    timing_out.params.rxPin ≠ none ∧ timing_out.spb.toNat = 1 ∧ timing_out.arg0 ≠ 0 ∧
    (∀ v ∈ ([501, 900, 900] : List Half), timing_out.thresh.toNat < v.toNat) ∧
    ([501, 900, 900] : List Half).length = [2, 3, 1].length ∧
    timing_out.env.samples = [501, 900, 900] ++ [7] ∧ timing_out.env.clockSteps = 17 :: ([2, 3, 1] ++ [9]) ∧
    (∀ k : Nat, k < [2, 3, 1].length → ([2, 3, 1].take k).sum ≤ timing_out.arg0.toNat) ∧
    timing_out.arg0.toNat < [2, 3, 1].sum ∧ [2, 3, 1].sum < 2 ^ 32 :=
  ⟨by decide, by decide, by decide, by decide, by decide, by rintro v h; fin_cases h <;> decide, by decide, by decide,
    by decide, by decide, by decide, by norm_num⟩

/-- A message that is full and one that ends with a line feed. -/
theorem witness_MessageIsReceivedExactly :
    let s := hosting (.write 0x000 10) { base with arg0 := 2 }
    let u := reading (([0x68, 0x69] : List Byte).flatMap (frameSamples 501 500) ++ [7]) s
    let v := reading (([0x0A] : List Byte).flatMap (frameSamples 501 500) ++ [7]) s
    s.status.busy = false ∧ s.agenda = [.access (.write 0x000 0x0000000A)] ∧ s.params.rxPin ≠ none ∧
    s.spb.toNat = 1 ∧ s.arg1 = 0 ∧ s.arg0.toNat ≤ 256 ∧ (500 : Half).toNat ≤ s.thresh.toNat ∧
    s.thresh.toNat < (501 : Half).toNat ∧
    ([0x68, 0x69] : List Byte).length = s.arg0.toNat ∧ ([0x68, 0x69] : List Byte).dropLast.all (fun b => b ≠ 0x0A) = true ∧
    u.env.samples = ([0x68, 0x69] : List Byte).flatMap (frameSamples 501 500) ++ [7] ∧
    ([0x0A] : List Byte).length ≤ s.arg0.toNat ∧ ([0x0A] : List Byte).getLast? = some 0x0A ∧
    v.env.samples = ([0x0A] : List Byte).flatMap (frameSamples 501 500) ++ [7] := by decide

theorem witness_LoopWithoutPinBacksOffForever :
    let s := running .rxloop (.rxloop .check) .loopBackoff 0 0 bare
    s.status.busy = true ∧ s.eng.op = 0x0B ∧ s.eng.point = .rxloop .check ∧ s.eng.stopReq = false ∧
    s.params.rxPin = none ∧ s.agenda = [] := by decide

theorem witness_TxloadFillsTransmitBuffer :
    let s := { base with agenda := asmTurns (.txload [1, 2, 3, 4, 5]) }
    s.status.busy = false ∧ ([1, 2, 3, 4, 5] : List Byte).length ≤ 256 ∧
    s.agenda = asmTurns (.txload [1, 2, 3, 4, 5]) := by decide

/-- Every command's meaning answers a next state: the frame statements' premise is met by each of them. -/
theorem witness_frames (i : Instr) : ∃ t, exec i (issue i 1 1 base) = .next t := by cases i <;> exact ⟨_, rfl⟩

/-! ### States of the invariant -/

/-- The idle machine has the invariant. -/
theorem witness_inv_idle : base.Inv where
  timing := ⟨by decide, by decide, by decide, by decide⟩
  params_wf := by decide
  mem_wf := by decide
  hcause_iff := by decide
  msglen_le := by decide
  busy_iff := by decide
  running := fun h => absurd h (by decide)
  phase := rfl
  pins := trivial
  counters := trivial
  widths := ⟨by decide, by decide, by decide, by decide, by decide, by decide, by decide, by decide⟩
  stop := by decide

/-- `base` running command `i` at place `p`, with e.need `need`. -/
def at_place (i : Instr) (p : Point) (ph : Phase) (need : Nat) : State :=
  let s := running i p ph 1 1 base
  { s with eng := { s.eng with need := need } }

/-- A running command has the invariant where its place, phase, pins and counters fit, whatever the environment. -/
theorem inv_running (i : Instr) (p : Point) (ph : Phase) (need : Nat) (env : Env) (hn : need ≤ 3) (hp : p ≠ .idle)
    (hw : p.within i) (hph : (at_place i p ph need).eng.phaseFits) (hpin : (at_place i p ph need).pinFits)
    (hc : State.countersFit { at_place i p ph need with env := env }) :
    State.Inv { at_place i p ph need with env := env } where
  timing := by have h := witness_inv_idle.timing; exact ⟨h.1, h.2, h.3, h.4⟩
  params_wf := witness_inv_idle.params_wf
  mem_wf := witness_inv_idle.mem_wf
  hcause_iff := witness_inv_idle.hcause_iff
  msglen_le := witness_inv_idle.msglen_le
  busy_iff := ⟨fun _ => hp, fun _ => rfl⟩
  running := fun _ => ⟨i, by cases i <;> rfl, hw, by cases i <;> rfl, rfl, rfl⟩
  phase := hph
  pins := by cases p <;> exact hpin
  counters := hc
  widths := by have h := witness_inv_idle.widths; exact ⟨h.1, hn, h.3, h.4, h.5, h.6, h.7, h.8⟩
  stop := fun h => by cases h

/-- A Drive, a Sample, a Now and an Emit about to be issued, each in a state of the invariant. -/
theorem witness_EventsAreIssuedWhereAllowed :
    (∃ s, State.Inv s ∧ ∃ t l, step s = .next t ∧ t.events = s.events ++ [.drive l]) ∧
    (∃ s, State.Inv s ∧ ∃ t v, step s = .next t ∧ t.events = s.events ++ [.sample v]) ∧
    (∃ s, State.Inv s ∧ ∃ t m, step s = .next t ∧ t.events = s.events ++ [.now m]) ∧
    (∃ s, State.Inv s ∧ ∃ t b, step s = .next t ∧ t.events = s.events ++ [.emit b]) :=
  ⟨⟨_, inv_running .sendbit (.sendbit .drive) .tx 0 base.env (by decide) (by decide) rfl rfl rfl trivial,
      _, _, rfl, rfl⟩,
    ⟨_, inv_running .sample (.sample .read) .sample 0 base.env (by decide) (by decide) rfl rfl rfl
      (Or.inl (by decide)), _, _, rfl, rfl⟩,
    ⟨_, inv_running .waitstart (.waitstart .mark) .startSearch 3 base.env (by decide) (by decide) rfl rfl rfl
      ⟨by decide, rfl⟩, _, _, rfl, rfl⟩,
    ⟨_, inv_running .rxloop (.rxloop .emit) .loopEmit 3 ⟨0, [], [], [true], 0⟩ (by decide) (by decide) rfl rfl rfl
      trivial, _, _, rfl, rfl⟩⟩

/-- A running command, for the statements about running commands, with no reset next. -/
theorem witness_running :
    ∃ s : State, s.Inv ∧ s.status.busy = true ∧ s.eng.op = opcode .sendbit ∧ (∀ rest, s.agenda ≠ .reset :: rest) ∧
      (∃ t, exec .sendbit s = .next t) ∧ (∃ t, step s = .next t) := by
  refine ⟨_, inv_running .sendbit (.sendbit .drive) .tx 0 base.env (by decide) (by decide) rfl rfl rfl trivial,
    rfl, rfl, ?_, ⟨_, rfl⟩, ⟨_, rfl⟩⟩
  intro rest h
  cases h

theorem witness_HostAccessesLeaveEngineAlone :
    (∃ t, step (hosting (.write 0x00C 3) busy) = .next t) ∧
    (∀ w : Word, Access.write 0x00C 3 ≠ .write 0x000 w) := ⟨⟨_, rfl⟩, fun w h => by simp at h⟩

theorem witness_ClockReadingsAreMonotone :
    let s := { searching .rxbyte (.rxbyte (.search .clock)) 0 4 with env := ⟨0, [], [4], [], 0⟩ }
    ∃ t, step s = .next t ∧ t.events = s.events ++ [.now 4] := ⟨_, rfl, rfl⟩

theorem witness_DerivedTimingStaysConsistent : base.Timing := witness_inv_idle.timing

/-! ## Time: R63 and R65 -/

/-- V-CAL-1's trace fits the reference timing model where no channel is assumed: two readings at one instant may differ. -/
theorem test_reference_without_channel :
    followsReference 0 none 0 [.sample 100, .wait 0, .sample 109] = true := by decide

/-- V-RX-6's first rows: the clock at 9800 and 10050 µs reads 9 and 10 ms; 9 again at 10050 would not fit. -/
theorem test_reference_clock :
    followsReference 0 none 9800 [.now 9, .sample 900, .now 9, .wait 250, .sample 100, .now 10] = true ∧
    followsReference 0 none 9800 [.now 9, .sample 900, .now 9, .wait 250, .sample 100, .now 9] = false := by decide

/-- V-RX-6's line: idle high before the frame, then start bit, bit 0 of 0x41, bit 1, stop bit. -/
theorem test_line_of_frame :
    [9999, 10000, 10999, 11000, 12000, 19000].map (fun t => lineLevelAt t 10000 true (frameEvents 1000 0x41)) =
      [true, false, false, true, false, true] := by decide

/-- V-LOOP-3's run at an iteration check or a backoff wait, after `k` waits. -/
def looping (p : LoopAt) (k : Nat) : State :=
  { running .rxloop (.rxloop p) .loopBackoff 0 0 bare with events := List.replicate k (.wait 250) }

/-- V-LOOP-3 as an unending run. -/
def loop_run (n : Nat) : State := looping (if n % 2 = 0 then .check else .backoff) (n / 2)

theorem loop_run_even (k : Nat) : loop_run (2 * k) = looping .check k := by
  simp [loop_run]

theorem loop_run_odd (k : Nat) : loop_run (2 * k + 1) = looping .backoff k := by
  have h : (2 * k + 1) / 2 = k := by omega
  simp [loop_run, h]

theorem loop_run_isRun : isRun loop_run := by
  intro n
  obtain ⟨k, rfl | rfl⟩ : ∃ k, n = 2 * k ∨ n = 2 * k + 1 := ⟨n / 2, by omega⟩
  · rw [loop_run_even, loop_run_odd]
    rfl
  · rw [loop_run_odd, show 2 * k + 1 + 1 = 2 * (k + 1) by ring, loop_run_even]
    simp only [looping, List.replicate_succ']
    rfl

/-- The premise of R63 asks something of a run and can be met: V-LOOP-3 keeps waiting, and its clock may grow. -/
theorem witness_clockGrows : isRun loop_run ∧ keepsWaiting loop_run ∧ clockGrows loop_run := by
  refine ⟨loop_run_isRun, fun n => ⟨2 * n + 1, 250, by omega, by decide, ?_⟩, fun _ => ⟨id, ⟨?_, ?_⟩, ?_⟩⟩
  · rw [issuesAt, loop_run_odd, show 2 * n + 1 + 1 = 2 * (n + 1) by ring, loop_run_even]
    exact List.replicate_succ'
  · exact fun n => Nat.le_succ n
  · intro n ms h
    have hm : Event.now ms ∈ (loop_run (n + 1)).events := by rw [h]; simp
    exact absurd (List.eq_of_mem_replicate hm) (by simp)
  · exact fun bound => ⟨bound, le_refl bound⟩

end Sys2Proof.Tests
end

/-! The statements of the scope family: completion is one step (R16), the parameters never change (R6), every
event is issued where it is allowed (R12). All three rest on one reading of `exec`: a command's first step, or the
advance of the place the engine stands at. -/

namespace Sys2Proof.Machine

/-! ### What an atomic step of a command can be -/

/-- The state that a command's first atomic step leaves (R82 for the configuration commands, which have no other). -/
def startState (i : Instr) (s : State) : State :=
  match i with
  | .setbd =>
    complete .success
      (if s.eng.a0 = 0 then setPhase .config s else storeBitdur s.eng.a0 (setPhase .config s))
  | .setspb => complete .success (storeSpb (spbOf s.eng.a0) (setPhase .config s))
  | .setthr => complete .success (setThresh (saturate16 s.eng.a0) (setPhase .config s))
  | .sendbit => sendbitStart s
  | .send => sendStart s
  | .sample => sampleStart s
  | .calib => calibStart s
  | .waitstart => waitstartStart s
  | .rxbyte => rxbyteStart s
  | .rxmsg => rxmsgStart s
  | .rxloop => rxloopStart s

/-- The state that the atomic step of place `p` leaves. -/
def advance (p : Point) (s : State) : State :=
  match p with
  | .idle => s
  | .finish c => complete c s
  | .sendbit q => sendbitAt q s
  | .send q => sendAt q s
  | .sample q => sampleAt q s
  | .calib q => calibAt q s
  | .waitstart q => waitstartAt q s
  | .rxbyte q => rxbyteAt q s
  | .rxmsg q => rxmsgAt q s
  | .rxloop q => rxloopAt q s

/-- A command's step is its first one, or the one of the engine's place. -/
theorem exec_cases (i : Instr) (s : State) :
    exec i s = .next (startState i s) ∨ exec i s = .next (advance s.eng.point s) := by
  cases i with
  | setbd | setspb | setthr => exact .inl rfl
  | sendbit | send | sample | calib | waitstart | rxbyte | rxmsg | rxloop =>
    cases hp : s.eng.point <;> simp [exec, execSendbit, execSend, execSample, execCalib, execWaitstart,
      execRxbyte, execRxmsg, execRxloop, hp, startState, advance]

/-- From no place at all a command makes its first step. -/
theorem exec_of_idle {s : State} (i : Instr) (h : s.eng.point = .idle) : exec i s = .next (startState i s) := by
  cases i with
  | setbd | setspb | setthr => rfl
  | sendbit | send | sample | calib | waitstart | rxbyte | rxmsg | rxloop =>
    simp [exec, execSendbit, execSend, execSample, execCalib, execWaitstart, execRxbyte, execRxmsg, execRxloop, h,
      startState]

/-- At a completion every command but the configuration ones completes (R16). -/
theorem exec_of_finish {i : Instr} {s : State} {c : Completion} (h : s.eng.point = .finish c) (hbd : i ≠ .setbd)
    (hspb : i ≠ .setspb) (hthr : i ≠ .setthr) : exec i s = .next (complete c s) := by
  cases i with
  | setbd => exact absurd rfl hbd
  | setspb => exact absurd rfl hspb
  | setthr => exact absurd rfl hthr
  | sendbit | send | sample | calib | waitstart | rxbyte | rxmsg | rxloop =>
    simp [exec, execSendbit, execSend, execSample, execCalib, execWaitstart, execRxbyte, execRxmsg, execRxloop, h]

/-- At a place of its own a command makes the step of that place. -/
theorem exec_of_within {i : Instr} {s : State} (h : s.eng.point.within i) :
    exec i s = .next (advance s.eng.point s) := by
  cases hp : s.eng.point with
  | idle => simp [hp, Point.within] at h
  | finish c =>
    simp only [hp, Point.within] at h
    obtain ⟨-, -, hbd, hspb, hthr, -⟩ := h
    exact exec_of_finish hp hbd hspb hthr
  | sendbit q | send q | sample q | calib q | waitstart q | rxbyte q | rxmsg q | rxloop q =>
    simp only [hp, Point.within] at h
    simp [h, exec, execSendbit, execSend, execSample, execCalib, execWaitstart, execRxbyte, execRxmsg, execRxloop, hp,
      advance]

/-- The opcode map read backwards (R74). -/
theorem eq_opcode_of_decodeOpcode {op : Byte} {i : Instr} (h : decodeOpcode op = some i) : op = opcode i := by
  apply BitVec.eq_of_toNat_eq
  simp only [decodeOpcode] at h
  generalize op.toNat = n at *
  split at h <;> cases h <;> rfl

/-! ### Parameters and events of the operations that branch -/

@[simp] theorem params_sampleStep (p : SampleAt) (s : State) : (sampleStep p s).state.params = s.params :=
  (kept_sampleStep p s).params

@[simp] theorem params_searchStep (T : Nat) (p : SearchAt) (s : State) :
    (searchStep T p s).state.params = s.params := (kept_searchStep T p s).params

@[simp] theorem params_byteStep (T : Nat) (p : ByteAt) (s : State) : (byteStep T p s).state.params = s.params :=
  (kept_byteStep T p s).params

@[simp] theorem searchStart_silent (T : Nat) (s : State) :
    (searchStart T s).state.params = s.params ∧ (searchStart T s).state.events = s.events := by
  refine ⟨(kept_searchStart T s).params, ?_⟩
  simp only [searchStart, searchBegin]
  split
  · split <;> simp
  · rfl

@[simp] theorem byteStart_silent (T : Nat) (s : State) :
    (byteStart T s).state.params = s.params ∧ (byteStart T s).state.events = s.events := by
  simp [byteStart, state_byteFromSearch]

@[simp] theorem searchJudge_silent (T : Nat) (v : Half) (s : State) :
    (searchJudge T v s).state.params = s.params ∧ (searchJudge T v s).state.events = s.events := by
  refine ⟨(kept_searchJudge T v s).params, ?_⟩
  simp only [searchJudge]
  split
  · simp
  · split <;> simp

@[simp] theorem stopSampled_silent (v : Half) (s : State) :
    (stopSampled v s).state.params = s.params ∧ (stopSampled v s).state.events = s.events := by
  simp only [stopSampled]; split <;> simp

@[simp] theorem sendNext_silent (s : State) :
    (sendNext s).params = s.params ∧ (sendNext s).events = s.events := by
  simp only [sendNext]; split <;> simp

@[simp] theorem calibSampled_silent (v : Half) (s : State) :
    (calibSampled v s).params = s.params ∧ (calibSampled v s).events = s.events := by
  simp only [calibSampled]; split <;> simp

@[simp] theorem messageNext_silent (s : State) :
    (messageNext s).state.params = s.params ∧ (messageNext s).state.events = s.events := by
  have h := byteStart_silent s.eng.a1.toNat s
  simp only [messageNext]
  split
  · split <;> rename_i heq <;> simpa [heq] using h
  · simp

@[simp] theorem messageByte_silent (b : Byte) (s : State) :
    (messageByte b s).state.params = s.params ∧ (messageByte b s).state.events = s.events := by
  simp only [messageByte]; split <;> simp [appendByte]

/-! ### A command's step in terms of the procedure it is inside -/

@[simp] theorem sampleAt_state (p : SampleAt) (s : State) :
    (sampleAt p s).params = (sampleStep p s).state.params ∧
    (sampleAt p s).events = (sampleStep p s).state.events := by
  simp only [sampleAt]; split <;> simp [*]

@[simp] theorem calibAt_sampling_state (p : SampleAt) (s : State) :
    (calibAt (.sampling p) s).params = (sampleStep p s).state.params ∧
    (calibAt (.sampling p) s).events = (sampleStep p s).state.events := by
  simp only [calibAt]; split <;> simp [*]

@[simp] theorem waitstartAt_state (p : SearchAt) (s : State) :
    (waitstartAt p s).params = (searchStep s.eng.a0.toNat p s).state.params ∧
    (waitstartAt p s).events = (searchStep s.eng.a0.toNat p s).state.events := by
  simp only [waitstartAt]; split <;> simp [*]

@[simp] theorem rxbyteAt_state (p : ByteAt) (s : State) :
    (rxbyteAt p s).params = (byteStep s.eng.a0.toNat p s).state.params ∧
    (rxbyteAt p s).events = (byteStep s.eng.a0.toNat p s).state.events := by
  simp only [rxbyteAt]; split <;> simp [*]

@[simp] theorem messageStep_state (p : ByteAt) (s : State) :
    (messageStep p s).state.params = (byteStep s.eng.a1.toNat p s).state.params ∧
    (messageStep p s).state.events = (byteStep s.eng.a1.toNat p s).state.events := by
  simp only [messageStep]; split <;> simp [*]

@[simp] theorem rxmsgAt_state (p : ByteAt) (s : State) :
    (rxmsgAt p s).params = (messageStep p s).state.params ∧
    (rxmsgAt p s).events = (messageStep p s).state.events := by
  simp only [rxmsgAt]; split <;> simp only [*] <;> simp

@[simp] theorem loopFromByte_state (r : Run ByteAt ByteResult) :
    (loopFromByte r).params = r.state.params ∧ (loopFromByte r).events = r.state.events := by
  cases r with
  | here q t => simp [loopFromByte]
  | done a t => cases a <;> simp [loopFromByte]

@[simp] theorem loopCheck_silent (s : State) :
    (loopCheck s).params = s.params ∧ (loopCheck s).events = s.events := by
  simp only [loopCheck]; split <;> simp

/-! ### First steps -/

/-- A command's first step keeps the parameters and issues no event: its first event is a step of its own (R66). -/
theorem startState_silent (i : Instr) (s : State) :
    (startState i s).params = s.params ∧ (startState i s).events = s.events := by
  cases i with
  | setbd => simp only [startState]; split <;> simp [storeBitdur]
  | setspb => simp [startState, storeSpb]
  | setthr => simp [startState]
  | sendbit => simp only [startState, sendbitStart]; split <;> simp
  | send => simp only [startState, sendStart]; split <;> simp
  | sample => simp only [startState, sampleStart]; split <;> simp
  | calib => simp only [startState, calibStart]; split <;> simp
  | waitstart =>
    have h := searchStart_silent s.eng.a0.toNat s
    simp only [startState, waitstartStart]
    split <;> rename_i heq <;> simpa [heq] using h
  | rxbyte =>
    have h := byteStart_silent s.eng.a0.toNat s
    simp only [startState, rxbyteStart]
    split <;> rename_i heq <;> simpa [heq] using h
  | rxmsg =>
    have h := messageNext_silent { s with eng := { s.eng with n := 0 } }
    simp only [startState, rxmsgStart]
    split <;> rename_i heq <;> simpa [heq] using h
  | rxloop => simp [startState, rxloopStart]

/-! ### Turns -/

/-- The state an access leaves, whether or not it has issued a command. -/
def Effect.state : Effect → State
  | .done s => s
  | .issued _ s => s

@[simp] theorem effect_state_done (s : State) : (Effect.done s).state = s := rfl

@[simp] theorem effect_state_issued (i : Instr) (s : State) : (Effect.issued i s).state = s := rfl

@[simp] theorem busRead_silent (off : Offset) (s : State) :
    (busRead off s).params = s.params ∧ (busRead off s).events = s.events := by
  simp only [busRead]; split <;> simp

@[simp] theorem requestStop_silent (s : State) :
    (requestStop s).params = s.params ∧ (requestStop s).events = s.events := by
  simp only [requestStop]; split <;> simp

@[simp] theorem writeCtrl_silent (v : Word) (s : State) :
    (writeCtrl v s).params = s.params ∧ (writeCtrl v s).events = s.events := by
  simp only [writeCtrl, clearHostErr]
  split <;> split <;> simp

@[simp] theorem writeCmd_silent (w : Word) (s : State) :
    (writeCmd w s).state.params = s.params ∧ (writeCmd w s).state.events = s.events := by
  simp only [writeCmd]
  split
  · simp [rejectCommand]
  · split <;> simp [latch, rejectCommand]

/-- A host access keeps the parameters and is no event (R10, R56). -/
theorem access_silent (a : Access) (s : State) :
    (access a s).state.params = s.params ∧ (access a s).state.events = s.events := by
  cases a with
  | read off => simp [access]
  | write off v =>
    simp only [access, busWrite]
    split
    · simp
    rename_i tg _
    split
    · simp
    split
    · simp
    cases tg <;> simp [writeTarget]

/-- A turn that runs no command keeps the parameters and issues no event. -/
theorem nextMove_settled {s t : State} (h : nextMove s = .settled t) :
    t.params = s.params ∧ t.events = s.events := by
  have engine (u : State) (hu : engineMove u = .settled t) : t = u := by
    obtain ⟨-, hm⟩ | ⟨-, i, -, hm⟩ | ⟨-, -, hm⟩ := engineMove_cases u <;> rw [hm] at hu <;> cases hu
    rfl
  simp only [nextMove] at h
  split at h
  · rw [engine _ h]; simp
  · rw [engine _ h]; simp
  · rename_i a rest _
    have ha := access_silent a { s with agenda := rest }
    simp only [accessMove] at h
    split at h <;> cases h
    rename_i heq
    simpa [heq] using ha
  · cases h
    simp only [pollRound]
    split <;> simp
  · cases h
    simp

/-- A turn that runs a command is the engine's, at the state unchanged, or the access that issues it (R50, R66). -/
theorem nextMove_run {s u : State} {i : Instr} (h : nextMove s = .run i u) :
    (∃ rest, s.status.busy = true ∧ decodeOpcode s.eng.op = some i ∧ u = { s with agenda := rest }) ∨
    (∃ w rest, s.agenda = .access (.write 0x000 w) :: rest ∧ s.status.busy = false ∧ decodeWord w = .ok i ∧
      operandsAccepted i s.arg0 s.arg1 = true ∧ u = latch (opField w) { s with agenda := rest, cmd := w }) := by
  have engine (v : State) (hv : engineMove v = .run i u) :
      v.status.busy = true ∧ decodeOpcode v.eng.op = some i ∧ u = v := by
    obtain ⟨-, hm⟩ | ⟨hb, j, hd, hm⟩ | ⟨-, -, hm⟩ := engineMove_cases v <;> rw [hm] at hv <;> cases hv
    exact ⟨hb, hd, rfl⟩
  simp only [nextMove] at h
  split at h
  · obtain ⟨hb, hd, rfl⟩ := engine _ h
    exact .inl ⟨u.agenda, hb, hd, rfl⟩
  · rename_i rest _
    exact .inl ⟨rest, engine _ h⟩
  · rename_i a rest hag
    simp only [accessMove] at h
    split at h <;> cases h
    rename_i heq
    obtain ⟨w, rfl, hb, hw, hops, rfl⟩ := access_issues heq
    exact .inr ⟨w, rest, hag, hb, hw, hops, rfl⟩
  · cases h
  · cases h

/-! ### O18 -/

/-- Settles O18: `complete` is the completion R16 names, and every command that stands at one performs it. -/
theorem completionIsOneStep : Obligations.CompletionIsOneStep := by
  intro i s c hp hbd hspb hthr
  rw [exec_of_finish hp hbd hspb hthr]
  rfl

/-! ### O58 -/

theorem params_advance (p : Point) (s : State) : (advance p s).params = s.params := by
  cases p with
  | idle | finish c | sample q | waitstart q | rxbyte q | rxmsg q => simp [advance]
  | sendbit q => cases q <;> simp [advance, sendbitAt]
  | send q =>
    cases q with
    | dataWait => simp only [advance, sendAt]; split <;> simp
    | startDrive | startWait | dataDrive | stopDrive | stopWait | gapWait | idleDrive | idleWait =>
      simp [advance, sendAt]
  | calib q =>
    cases q with
    | sampling r => simp [advance]
    | gapWait => simp [advance, calibAt]
  | rxloop q =>
    cases q with
    | emit => simp only [advance, rxloopAt]; split <;> simp
    | check | byte r | backoff => simp [advance, rxloopAt]

/-- No step of a command changes the parameters (R6). -/
theorem params_exec {i : Instr} {s t : State} (h : exec i s = .next t) : t.params = s.params := by
  obtain he | he := exec_cases i s <;> rw [he] at h <;> cases h
  · exact (startState_silent i s).1
  · exact params_advance _ s

/-- Settles O58: a settled turn and a command's step each keep the parameters. -/
theorem parametersNeverChange : Obligations.ParametersNeverChange := by
  intro s t hst
  obtain hm | ⟨i, u, hm, hx⟩ := step_cases hst
  · exact (nextMove_settled hm).1
  · rw [params_exec hx]
    obtain ⟨rest, -, -, rfl⟩ | ⟨w, rest, -, -, -, -, rfl⟩ := nextMove_run hm <;> rfl

/-! ### O51: where each event may be issued -/

/-- The event may be issued from `s`: the pin it needs is there and the engine stands where R12, R61, R62 and R64 have
it. -/
def allowsEvent (s : State) : Event → Prop
  | .drive _ => s.params.txPresent = true
  | .wait _ => True
  | .sample _ => s.params.rxPresent = true
  | .now _ => s.params.rxPresent = true ∧ s.eng.phase = .startSearch
  | .emit b => s.eng.op = 0x0B ∧ s.eng.phase = .loopEmit ∧ b = s.eng.acc

/-- From `s` to `t` no event was issued, or one that `s` allows. -/
inductive IssuesAllowed (s t : State) : Prop where
  | silent (events : t.events = s.events)
  | issued (e : Event) (events : t.events = s.events ++ [e]) (allowed : allowsEvent s e)

/-- An update after the event adds no other. -/
theorem IssuesAllowed.then {s t u : State} (h : IssuesAllowed s t) (hu : u.events = t.events) :
    IssuesAllowed s u := by
  cases h with
  | silent he => exact .silent (hu.trans he)
  | issued e he ha => exact .issued e (hu.trans he) ha

theorem IssuesAllowed.allows {s t : State} {e : Event} (h : IssuesAllowed s t)
    (he : t.events = s.events ++ [e]) : allowsEvent s e := by
  cases h with
  | silent hs => simp [hs] at he
  | issued e' hs ha =>
    obtain rfl : e' = e := by simpa [hs] using he
    exact ha

theorem issuesAllowed_wait {s t : State} (us : Nat) (h : t.events = s.events ++ [.wait us]) : IssuesAllowed s t :=
  .issued (.wait us) h trivial

theorem issuesAllowed_sampleStep (p : SampleAt) {s : State} (hrx : s.params.rxPresent = true) :
    IssuesAllowed s (sampleStep p s).state := by
  cases p with
  | read =>
    refine .issued (.sample (sampleValue s)) ?_ hrx
    simp only [sampleStep]
    split
    · simp
    · split <;> simp
  | space => exact issuesAllowed_wait s.spacing.toNat (by simp [sampleStep])

theorem issuesAllowed_searchStep (T : Nat) (p : SearchAt) {s : State} (hrx : s.params.rxPresent = true)
    (hph : s.eng.phase = p.phase) : IssuesAllowed s (searchStep T p s).state := by
  cases p with
  | mark => exact .issued (.now (clockValue s)) (by simp [searchStep]) ⟨hrx, hph⟩
  | sampling q =>
    refine (issuesAllowed_sampleStep q hrx).then ?_
    simp only [searchStep]
    split <;> simp [*]
  | clock =>
    refine .issued (.now (clockValue s)) ?_ ⟨hrx, hph⟩
    simp only [searchStep]
    split <;> simp
  | pollWait => exact issuesAllowed_wait s.polldly.toNat (by simp [searchStep])
  | alignWait => exact issuesAllowed_wait (halfBit s) (by simp [searchStep])

theorem issuesAllowed_byteStep (T : Nat) (p : ByteAt) {s : State} (hrx : s.params.rxPresent = true)
    (hph : s.eng.phase = p.phase s.eng.i) : IssuesAllowed s (byteStep T p s).state := by
  cases p with
  | search q =>
    simp only [byteStep, state_byteFromSearch]
    exact issuesAllowed_searchStep T q hrx hph
  | firstWait => exact issuesAllowed_wait s.bitdur.toNat (by simp [byteStep, dataBegin])
  | data q =>
    refine (issuesAllowed_sampleStep q hrx).then ?_
    simp only [byteStep]
    split <;> simp [*, dataSampled]
  | dataWait =>
    refine issuesAllowed_wait s.bitdur.toNat ?_
    simp only [byteStep]
    split <;> simp [dataBegin]
  | stop q =>
    refine (issuesAllowed_sampleStep q hrx).then ?_
    simp only [byteStep]
    split <;> simp [*]
  | settleWait => exact issuesAllowed_wait s.bitdur.toNat (by simp [byteStep])
  | closeWait => exact issuesAllowed_wait (halfBit s) (by simp [byteStep])

theorem issuesAllowed_sendbitAt (p : BitAt) {s : State} (htx : s.params.txPresent = true) :
    IssuesAllowed s (sendbitAt p s) := by
  cases p with
  | drive => exact .issued (.drive (bitLevel s.eng.a0)) (by simp [sendbitAt]) htx
  | wait => exact issuesAllowed_wait s.bitdur.toNat (by simp [sendbitAt])

theorem issuesAllowed_sendAt (p : SendAt) {s : State} (htx : s.params.txPresent = true) :
    IssuesAllowed s (sendAt p s) := by
  cases p with
  | startDrive => exact .issued (.drive false) (by simp [sendAt]) htx
  | dataDrive => exact .issued (.drive (dataLevel s.eng.c s.eng.i)) (by simp [sendAt]) htx
  | stopDrive | idleDrive => exact .issued (.drive true) (by simp [sendAt]) htx
  | dataWait =>
    refine issuesAllowed_wait s.bitdur.toNat ?_
    simp only [sendAt]
    split <;> simp
  | startWait | stopWait | gapWait | idleWait => exact issuesAllowed_wait s.bitdur.toNat (by simp [sendAt])

theorem issuesAllowed_calibAt (p : CalAt) {s : State} (hrx : s.params.rxPresent = true) :
    IssuesAllowed s (calibAt p s) := by
  cases p with
  | sampling q => exact (issuesAllowed_sampleStep q hrx).then (by simp)
  | gapWait => exact issuesAllowed_wait s.eng.a1.toNat (by simp [calibAt])

theorem issuesAllowed_rxloopAt {p : LoopAt} {s : State} (hp : s.eng.point = .rxloop p) (pins : s.pinFits)
    (phase : s.eng.phaseFits) (op : s.eng.op = 0x0B) : IssuesAllowed s (rxloopAt p s) := by
  simp only [State.pinFits, hp] at pins
  simp only [Engine.phaseFits, hp] at phase
  cases p with
  | check => exact .silent (by simp [rxloopAt])
  | byte q => exact (issuesAllowed_byteStep (loopTimeout s) q pins phase).then (by simp [rxloopAt])
  | emit =>
    simp only [rxloopAt]
    split
    · exact .issued (.emit s.eng.acc) (by simp) ⟨op, phase, rfl⟩
    · exact .silent (by simp)
  | backoff => exact issuesAllowed_wait s.polldly.toNat (by simp [rxloopAt])

/-- The step of the engine's place issues only what is allowed, where pin and phase fit the place. -/
theorem issuesAllowed_advance {s : State} (pins : s.pinFits) (phase : s.eng.phaseFits)
    (op : ∀ p, s.eng.point = .rxloop p → s.eng.op = 0x0B) : IssuesAllowed s (advance s.eng.point s) := by
  have pins' := pins
  have phase' := phase
  unfold State.pinFits at pins'
  unfold Engine.phaseFits at phase'
  cases hp : s.eng.point <;> simp only [hp] at pins' phase' <;> simp only [advance]
  case idle | finish => exact .silent (by simp)
  case sendbit p => exact issuesAllowed_sendbitAt p pins'
  case send p => exact issuesAllowed_sendAt p pins'
  case sample p => exact (issuesAllowed_sampleStep p pins').then (by simp)
  case calib p => exact issuesAllowed_calibAt p pins'
  case waitstart p => exact (issuesAllowed_searchStep s.eng.a0.toNat p pins' phase').then (by simp)
  case rxbyte p => exact (issuesAllowed_byteStep s.eng.a0.toNat p pins' phase').then (by simp)
  case rxmsg p => exact (issuesAllowed_byteStep s.eng.a1.toNat p pins' phase').then (by simp)
  case rxloop p => exact issuesAllowed_rxloopAt hp pins phase (op p hp)

/-- A running command's step issues only what is allowed, with the invariant. -/
theorem issuesAllowed_exec {s t : State} {i : Instr} (inv : s.Inv) (hb : s.status.busy = true)
    (hd : decodeOpcode s.eng.op = some i) (hx : exec i s = .next t) : IssuesAllowed s t := by
  obtain ⟨j, hj, hwithin, -⟩ := inv.running hb
  obtain rfl : j = i := by simpa [hj] using hd
  rw [exec_of_within hwithin] at hx
  cases hx
  refine issuesAllowed_advance inv.pins inv.phase fun p hp => ?_
  obtain rfl : j = .rxloop := by simpa [hp, Point.within] using hwithin
  exact eq_opcode_of_decodeOpcode hd

/-- The turns to come are no part of the invariant. -/
theorem State.Inv.withAgenda {s : State} (inv : s.Inv) (rest : List Turn) :
    State.Inv { s with agenda := rest } := by
  obtain ⟨⟨b, c, d, e⟩, pw, mw, hc, ml, bi, ru, ph, pi, co, wi, st⟩ := inv
  exact ⟨⟨b, c, d, e⟩, pw, mw, hc, ml, bi, ru, ph, pi, co, wi, st⟩

/-- Every atomic step issues no event or an allowed one, with the invariant: a settled turn and the issue of a command
are silent, and a running command advances the place whose pin and phase the invariant fixes. -/
theorem issuesAllowed_step {s t : State} (inv : s.Inv) (hst : step s = .next t) : IssuesAllowed s t := by
  obtain hm | ⟨i, u, hm, hx⟩ := step_cases hst
  · exact .silent (nextMove_settled hm).2
  obtain ⟨rest, hb, hd, rfl⟩ | ⟨w, rest, -, -, -, -, rfl⟩ := nextMove_run hm
  · cases issuesAllowed_exec (inv.withAgenda rest) hb hd hx with
    | silent he => exact .silent he
    | issued e he ha =>
      refine .issued e he ?_
      cases e <;> exact ha
  · rw [exec_of_idle i rfl] at hx
    cases hx
    exact .silent (startState_silent i _).2

theorem txPresent_iff (p : Params) : p.txPresent = true ↔ p.txPin ≠ none := by
  simp [Params.txPresent, Option.isSome_iff_ne_none]

theorem rxPresent_iff (p : Params) : p.rxPresent = true ↔ p.rxPin ≠ none := by
  simp [Params.rxPresent, Option.isSome_iff_ne_none]

/-- Settles O51: what `allowsEvent` says of the one event of a step, event by event. -/
theorem eventsAreIssuedWhereAllowed : Obligations.EventsAreIssuedWhereAllowed := by
  intro s t e inv hst hev
  have ha : allowsEvent s e := (issuesAllowed_step inv hst).allows hev
  refine ⟨?_, ?_, ?_, ?_⟩
  · rintro l rfl
    exact (txPresent_iff s.params).1 ha
  · rintro v rfl
    exact (rxPresent_iff s.params).1 ha
  · rintro m rfl
    obtain ⟨hrx, hph⟩ := ha
    exact ⟨(rxPresent_iff s.params).1 hrx, hph⟩
  · rintro b rfl
    exact ha

end Sys2Proof.Machine

/-! The statements of the state family: every step keeps the machine's invariant (R32, R36, R37), which commands write
which registers and buffer bytes (R24 to R34), the words of STATUS, MSGLEN and CAPS (R23, R26, R33), and the reset
values (R38). A step of a command is read twice: by what it writes outside its own hidden variables (`Leaves`), and by
the place it leaves the engine at (`Placed`). -/

namespace Sys2Proof.Machine

/-! ### What a step of a command leaves outside its hidden variables -/

/-- The state with the line, the environment, the event log and the hidden variables that a rule works with blanked
out: registers, buffers, the host's part of the total order, the latched command and the stop request remain. -/
def State.outer (s : State) : State :=
  { s with
    txLevel := true
    env := Env.start
    events := []
    eng := { Engine.reset with op := s.eng.op, a0 := s.eng.a0, a1 := s.eng.a1, stopReq := s.eng.stopReq } }

theorem Kept.outer {s t : State} (h : Kept s t) : t.outer = s.outer := by
  simp [State.outer, h.cmd, h.arg0, h.arg1, h.status, h.result, h.msglen, h.bitdur, h.thresh, h.spb, h.spacing,
    h.polldly, h.params, h.mem, h.epoch, h.agenda, h.reads, h.op, h.a0, h.a1, h.stopReq]

@[simp] theorem outer_goto (p : Point) (s : State) : (goto p s).outer = s.outer := rfl

@[simp] theorem outer_setPhase (ph : Phase) (s : State) : (setPhase ph s).outer = s.outer := rfl

@[simp] theorem outer_setThresh (v : Half) (s : State) : (setThresh v s).outer = setThresh v s.outer := rfl

@[simp] theorem outer_writeMsgByte (n : Nat) (b : Byte) (s : State) :
    (writeMsgByte n b s).outer = writeMsgByte n b s.outer := by
  simp only [writeMsgByte]; split <;> rfl

@[simp] theorem outer_sampleBegin (s : State) : (sampleBegin s).outer = s.outer := (kept_sampleBegin s).outer

@[simp] theorem outer_sampleStep (p : SampleAt) (s : State) : (sampleStep p s).state.outer = s.outer :=
  (kept_sampleStep p s).outer

@[simp] theorem outer_searchStart (T : Nat) (s : State) : (searchStart T s).state.outer = s.outer :=
  (kept_searchStart T s).outer

@[simp] theorem outer_searchStep (T : Nat) (p : SearchAt) (s : State) : (searchStep T p s).state.outer = s.outer :=
  (kept_searchStep T p s).outer

@[simp] theorem outer_byteStart (T : Nat) (s : State) : (byteStart T s).state.outer = s.outer :=
  (kept_byteStart T s).outer

@[simp] theorem outer_byteStep (T : Nat) (p : ByteAt) (s : State) : (byteStep T p s).state.outer = s.outer :=
  (kept_byteStep T p s).outer

@[simp] theorem outer_messageNext (s : State) : (messageNext s).state.outer = s.outer := by
  have h := outer_byteStart s.eng.a1.toNat s
  simp only [messageNext]
  split
  · split <;> rename_i heq <;> simpa [heq] using h
  · rfl

/-- What a completion of command `i` may carry: RESULT only on success of SAMPLE or RXBYTE, MSGLEN only for RXMSG and of
at most 256 bytes (R24 to R26). -/
structure Completion.Fits (i : Instr) (c : Completion) : Prop where
  result : c.result.isSome = true → c.ok = true ∧ (i = .sample ∨ i = .rxbyte)
  msglen : ∀ m, c.msglen = some m → i = .rxmsg ∧ m.len.toNat ≤ 256

theorem fits_success (i : Instr) : Completion.success.Fits i := ⟨by simp, by simp⟩

theorem fits_failure (i : Instr) (e : Err) : (Completion.failure e).Fits i := ⟨by simp, by simp⟩

theorem fits_withResult {i : Instr} (v : Half) (hi : i = .sample ∨ i = .rxbyte) :
    (Completion.withResult v).Fits i := ⟨by simp [hi], by simp⟩

theorem fits_startCompletion (i : Instr) (r : StartResult) : (startCompletion r).Fits i := by
  cases r with
  | found => exact fits_success i
  | notFound e => exact fits_failure i e

theorem fits_byteCompletion (r : ByteResult) : (byteCompletion r).Fits .rxbyte := by
  cases r with
  | byte b => exact fits_withResult _ (.inr rfl)
  | fail e => exact fits_failure _ e

theorem fits_messageCompletion {n : Nat} (hn : n ≤ 256) (ending : Ending) (e : Err) :
    (messageCompletion n ending e).Fits .rxmsg := by
  refine ⟨by simp [messageCompletion], ?_⟩
  rintro m ⟨⟩
  refine ⟨rfl, ?_⟩
  rw [BitVec.toNat_ofNat]
  exact (Nat.mod_le _ _).trans hn

theorem fits_messageNext {s t : State} {c : Completion} (h : messageNext s = .done c t) (hn : s.eng.n ≤ 256) :
    c.Fits .rxmsg := by
  have kn := (kept_byteStart s.eng.a1.toNat s).n
  simp only [messageNext] at h
  split at h
  · split at h <;> cases h <;> rename_i heq <;> rw [heq, run_state_done] at kn <;>
      exact fits_messageCompletion (kn ▸ hn) _ _
  · cases h
    exact fits_messageCompletion hn _ _

/-- `u` is `s` after the write, if any, that one atomic step of command `i` makes to a configuration register or a
buffer byte (R85 to R87, R98, R109). -/
inductive Writes : Instr → State → State → Prop where
  | nothing {i : Instr} {s : State} : Writes i s s
  | bitdur {s : State} (h : s.eng.a0 ≠ 0) : Writes .setbd s (storeBitdur s.eng.a0 s)
  | spb {s : State} : Writes .setspb s (storeSpb (spbOf s.eng.a0) s)
  | thresh {s : State} : Writes .setthr s (setThresh (saturate16 s.eng.a0) s)
  | calibrated {s : State} (v : Half) : Writes .calib s (setThresh v s)
  | message {s : State} (b : Byte) (h : s.eng.point = .rxmsg .closeWait) :
      Writes .rxmsg s (writeMsgByte s.eng.n b s)

/-- What one atomic step of command `i` leaves: the engine at a place, a completion in the first step, the completion
the engine stands at, or RXLOOP ended by a stop request. -/
inductive Leaves (i : Instr) (s t : State) : Prop where
  | goes {u : State} (w : Writes i s u) (outer : t.outer = u.outer) (place : t.eng.point ≠ .idle)
  | completes {c : Completion} {u v : State} (w : Writes i s u) (outer : v.outer = u.outer) (fits : c.Fits i)
      (loop : i ≠ .rxloop) (events : v.events = s.events) (eq : t = complete c v)
  | finishes {c : Completion} (place : s.eng.point = .finish c) (eq : t = complete c s)
  | stops (loop : i = .rxloop) (eq : t = complete .success { s with eng := { s.eng with stopReq := false } })

/-- A step that writes and then moves to a place leaves the engine there. -/
theorem Leaves.to {i : Instr} {s t u : State} {p : Point} (w : Writes i s u) (outer : t.outer = u.outer)
    (place : p ≠ .idle := by simp) : Leaves i s (goto p t) :=
  .goes w outer place

theorem leaves_startState (i : Instr) (s : State) : Leaves i s (startState i s) := by
  cases i with
  | setbd =>
    simp only [startState]
    split
    · exact .completes .nothing rfl (fits_success _) (by simp) rfl rfl
    · exact .completes (.bitdur ‹_›) rfl (fits_success _) (by simp) rfl rfl
  | setspb => exact .completes .spb rfl (fits_success _) (by simp) rfl rfl
  | setthr => exact .completes .thresh rfl (fits_success _) (by simp) rfl rfl
  | sendbit =>
    simp only [startState, sendbitStart]
    split
    · exact .to .nothing rfl
    · exact .completes .nothing rfl (fits_success _) (by simp) rfl rfl
  | send =>
    simp only [startState, sendStart, sendNext]
    split
    · split <;> exact .to .nothing rfl
    · exact .completes .nothing rfl (fits_success _) (by simp) rfl rfl
  | sample =>
    simp only [startState, sampleStart]
    split
    · exact .to .nothing (by rw [outer_sampleBegin]; rfl)
    · exact .completes .nothing rfl (fits_withResult _ (.inl rfl)) (by simp) rfl rfl
  | calib =>
    simp only [startState, calibStart]
    split
    · exact .to .nothing (by rw [outer_sampleBegin]; rfl)
    · exact .completes .nothing rfl (fits_success _) (by simp) rfl rfl
  | waitstart =>
    have ho := outer_searchStart s.eng.a0.toNat s
    have he := (searchStart_silent s.eng.a0.toNat s).2
    simp only [startState, waitstartStart]
    split <;> rename_i heq <;> rw [heq] at ho he
    · exact .to .nothing ho
    · exact .completes .nothing ho (fits_startCompletion _ _) (by simp) he rfl
  | rxbyte =>
    have ho := outer_byteStart s.eng.a0.toNat s
    have he := (byteStart_silent s.eng.a0.toNat s).2
    simp only [startState, rxbyteStart]
    split <;> rename_i heq <;> rw [heq] at ho he
    · exact .to .nothing ho
    · exact .completes .nothing ho (fits_byteCompletion _) (by simp) he rfl
  | rxmsg =>
    have ho := outer_messageNext { s with eng := { s.eng with n := 0 } }
    have he := (messageNext_silent { s with eng := { s.eng with n := 0 } }).2
    simp only [startState, rxmsgStart]
    split <;> rename_i heq <;> rw [heq] at ho he
    · exact .to .nothing ho
    · exact .completes .nothing ho (fits_messageNext heq (Nat.zero_le _)) (by simp) he rfl
  | rxloop => exact .to .nothing rfl

theorem leaves_sendAt (p : SendAt) (s : State) : Leaves .send s (sendAt p s) := by
  cases p with
  | dataWait => simp only [sendAt]; split <;> exact .to .nothing rfl
  | gapWait => simp only [sendAt, sendNext]; split <;> exact .to .nothing rfl
  | startDrive | startWait | dataDrive | stopDrive | stopWait | idleDrive | idleWait =>
    exact .to .nothing rfl

theorem leaves_sampleAt (p : SampleAt) (s : State) : Leaves .sample s (sampleAt p s) := by
  have ho := outer_sampleStep p s
  simp only [sampleAt]
  split <;> rename_i heq <;> rw [heq] at ho <;> exact .to .nothing ho

theorem leaves_calibAt (p : CalAt) (s : State) : Leaves .calib s (calibAt p s) := by
  cases p with
  | sampling q =>
    have ho := outer_sampleStep q s
    simp only [calibAt]
    split <;> rename_i heq <;> rw [heq] at ho
    · exact .to .nothing ho
    · rename_i v t
      rw [run_state_done] at ho
      simp only [calibSampled]
      split
      · exact .to .nothing ho
      · refine .to (.calibrated (calibrated (minHalf t.eng.mn v) (maxHalf t.eng.mx v))) ?_
        rw [outer_setThresh, outer_setThresh, ← ho]
        rfl
  | gapWait => exact .to .nothing (by rw [outer_sampleBegin]; rfl)

theorem leaves_waitstartAt (p : SearchAt) (s : State) : Leaves .waitstart s (waitstartAt p s) := by
  have ho := outer_searchStep s.eng.a0.toNat p s
  simp only [waitstartAt]
  split <;> rename_i heq <;> rw [heq] at ho <;> exact .to .nothing ho

theorem leaves_rxbyteAt (p : ByteAt) (s : State) : Leaves .rxbyte s (rxbyteAt p s) := by
  have ho := outer_byteStep s.eng.a0.toNat p s
  simp only [rxbyteAt]
  split <;> rename_i heq <;> rw [heq] at ho <;> exact .to .nothing ho

/-- ReceiveByteP returns a byte at the end of its closing wait only (R106). -/
theorem closeWait_of_byteStep_byte {T : Nat} {p : ByteAt} {s t : State} {b : Byte}
    (h : byteStep T p s = .done (.byte b) t) : p = .closeWait := by
  cases p with
  | search q =>
    simp only [byteStep] at h
    generalize searchStep T q s = r at h
    cases r with
    | here q' u => cases h
    | done a u => cases a <;> cases h
  | data q => simp only [byteStep] at h; split at h <;> cases h
  | stop q =>
    simp only [byteStep, stopSampled] at h
    split at h
    · cases h
    · split at h <;> cases h
  | dataWait => simp only [byteStep] at h; split at h <;> cases h
  | firstWait | settleWait => cases h
  | closeWait => rfl

theorem outer_appendByte (b : Byte) (s : State) : (appendByte b s).outer = writeMsgByte s.eng.n b s.outer := by
  simp only [appendByte, writeMsgByte]; split <;> rfl

theorem outer_messageByte (b : Byte) (s : State) :
    (messageByte b s).state.outer = writeMsgByte s.eng.n b s.outer := by
  rw [← outer_appendByte]
  simp only [messageByte]
  split
  · rfl
  · exact outer_messageNext _

theorem writes_messageStep (p : ByteAt) {s : State} (hp : s.eng.point = .rxmsg p) :
    ∃ u, Writes .rxmsg s u ∧ (messageStep p s).state.outer = u.outer := by
  have hk := kept_byteStep s.eng.a1.toNat p s
  simp only [messageStep]
  split <;> rename_i heq <;> rw [heq] at hk
  · exact ⟨s, .nothing, hk.outer⟩
  · exact ⟨s, .nothing, hk.outer⟩
  · rename_i b t
    obtain rfl := closeWait_of_byteStep_byte heq
    refine ⟨_, .message b hp, ?_⟩
    rw [outer_messageByte, outer_writeMsgByte, ← hk.outer]
    exact congrArg (writeMsgByte · b t.outer) hk.n

theorem leaves_rxmsgAt (p : ByteAt) {s : State} (hp : s.eng.point = .rxmsg p) :
    Leaves .rxmsg s (rxmsgAt p s) := by
  obtain ⟨u, hw, ho⟩ := writes_messageStep p hp
  simp only [rxmsgAt]
  split <;> rename_i heq <;> rw [heq] at ho <;> exact .to hw ho

theorem outer_loopFromByte (r : Run ByteAt ByteResult) : (loopFromByte r).outer = r.state.outer := by
  cases r with
  | here q t => rfl
  | done a t => cases a <;> rfl

theorem loopFromByte_point_ne_idle (r : Run ByteAt ByteResult) : (loopFromByte r).eng.point ≠ .idle := by
  cases r with
  | here q t => simp [loopFromByte]
  | done a t => cases a <;> simp [loopFromByte]

theorem leaves_rxloopAt (p : LoopAt) {s : State} (hp : s.eng.point = .rxloop p) : Leaves .rxloop s (rxloopAt p s) := by
  cases p with
  | check =>
    simp only [rxloopAt, loopCheck]
    split
    · exact .stops rfl rfl
    · exact .goes .nothing (by rw [outer_loopFromByte, outer_byteStart]) (loopFromByte_point_ne_idle _)
  | byte q =>
    exact .goes .nothing (by rw [rxloopAt, outer_loopFromByte, outer_byteStep]) (loopFromByte_point_ne_idle _)
  | emit =>
    simp only [rxloopAt]
    split
    · exact .to .nothing rfl
    · exact .goes .nothing rfl (by simp [hp])
  | backoff => exact .to .nothing rfl

/-- The step of a place of command `i`. -/
theorem leaves_advance {i : Instr} {s : State} (hw : s.eng.point.within i) :
    Leaves i s (advance s.eng.point s) := by
  cases hp : s.eng.point <;> simp only [hp, Point.within] at hw
  case finish c => exact .finishes hp rfl
  all_goals subst hw
  case sendbit p => cases p <;> exact .to .nothing rfl
  case send p => exact leaves_sendAt p s
  case sample p => exact leaves_sampleAt p s
  case calib p => exact leaves_calibAt p s
  case waitstart p => exact leaves_waitstartAt p s
  case rxbyte p => exact leaves_rxbyteAt p s
  case rxmsg p => exact leaves_rxmsgAt p hp
  case rxloop p => exact leaves_rxloopAt p hp

/-- A command's step is its first one, a completion, or the step of a place of its own. -/
theorem exec_places (i : Instr) (s : State) :
    exec i s = .next (startState i s) ∨
    (∃ c, s.eng.point = .finish c ∧ exec i s = .next (complete c s)) ∨
    (s.eng.point.within i ∧ exec i s = .next (advance s.eng.point s)) := by
  by_cases hw : s.eng.point.within i
  · exact .inr (.inr ⟨hw, exec_of_within hw⟩)
  cases i with
  | setbd | setspb | setthr => exact .inl rfl
  | sendbit | send | sample | calib | waitstart | rxbyte | rxmsg | rxloop =>
    cases hp : s.eng.point <;> simp [hp, Point.within] at hw <;>
      simp [exec, execSendbit, execSend, execSample, execCalib, execWaitstart, execRxbyte, execRxmsg, execRxloop, hp,
        startState]

theorem leaves_exec {i : Instr} {s t : State} (h : exec i s = .next t) : Leaves i s t := by
  obtain he | ⟨c, hp, he⟩ | ⟨hw, he⟩ := exec_places i s <;> rw [he] at h <;> cases h
  · exact leaves_startState i s
  · exact .finishes hp rfl
  · exact leaves_advance hw

/-! ### O47, O49: the writers of the configuration and of the buffers -/

/-- The part of the state that `Writes` speaks of, and that no completion touches: STATUS, RESULT, MSGLEN and the engine
are blanked out too. -/
def State.stored (s : State) : State :=
  { s.outer with
    status := ⟨false, false, .noError, false, .clear⟩
    result := 0
    msglen := ⟨0, .maxChars⟩
    eng := Engine.reset }

theorem stored_eq_of_outer_eq {s t : State} (h : t.outer = s.outer) : t.stored = s.stored := by
  simp only [State.stored, h]

theorem Leaves.stored {i : Instr} {s t : State} (h : Leaves i s t) : ∃ u, Writes i s u ∧ t.stored = u.stored := by
  cases h with
  | goes w ho _ => exact ⟨_, w, stored_eq_of_outer_eq ho⟩
  | completes w ho _ _ _ ht =>
    subst ht
    exact ⟨_, w, (stored_eq_of_outer_eq ho :)⟩
  | finishes _ ht => exact ⟨s, .nothing, ht ▸ rfl⟩
  | stops _ ht => exact ⟨s, .nothing, ht ▸ rfl⟩

/-- A buffer byte depends on the memory and the count of resets alone. -/
theorem readByte_eq_of_stored_eq {s t : State} (h : t.stored = s.stored) (a : Nat) :
    readByte t a = readByte s a :=
  (congrArg (readByte · a) h :)

theorem configuration_eq_of_stored_eq {s t : State} (h : t.stored = s.stored) :
    t.bitdur = s.bitdur ∧ t.spb = s.spb ∧ t.thresh = s.thresh ∧ t.spacing = s.spacing ∧ t.polldly = s.polldly :=
  ⟨(congrArg State.bitdur h :), (congrArg State.spb h :), (congrArg State.thresh h :),
    (congrArg State.spacing h :), (congrArg State.polldly h :)⟩

/-- Settles O47: the writes of each command name the registers it may change. -/
theorem configurationHasItsWriters : Obligations.ConfigurationHasItsWriters := by
  intro i s t hx
  obtain ⟨u, hw, hu⟩ := (leaves_exec hx).stored
  obtain ⟨hbitdur, hspb, hthresh, hspacing, hpolldly⟩ := configuration_eq_of_stored_eq hu
  rw [hbitdur, hspb, hthresh, hspacing, hpolldly]
  cases hw <;> simp [storeBitdur, storeSpb]

/-- Settles O49: of the commands' writes only RXMSG's is one to a buffer, and that one stands at its closing wait. -/
theorem commandsWriteOnlyMessageBytes : Obligations.CommandsWriteOnlyMessageBytes := by
  intro i s t hx
  obtain ⟨u, hw, hu⟩ := (leaves_exec hx).stored
  simp only [readByte_eq_of_stored_eq hu]
  cases hw with
  | message b hp =>
    simp only [readByte_writeMsgByte]
    refine ⟨fun h => absurd rfl h, fun _ => ⟨fun a ha => if_neg fun hb => ha hb.2, fun h => absurd hp h⟩⟩
  | nothing | bitdur | spb | thresh | calibrated =>
    exact ⟨fun _ _ => rfl, fun _ => ⟨fun _ _ => rfl, fun _ _ => rfl⟩⟩

/-! ### O48: results at completion -/

/-- What the place and the counters say of the completion a running command stands at. -/
theorem fits_of_finish {i : Instr} {s : State} {c : Completion} (hc : s.countersFit) (hw : s.eng.point.within i)
    (hp : s.eng.point = .finish c) : c.Fits i := by
  simp only [State.countersFit, hp] at hc
  simp only [hp, Point.within] at hw
  obtain ⟨hr, hm, -⟩ := hw
  exact ⟨hr, fun m h => ⟨hm (by simp [h]), hc m h⟩⟩

/-- A running command stands at a place of its own. -/
theorem within_of_running {i : Instr} {s : State} (inv : s.Inv) (hb : s.status.busy = true)
    (hd : decodeOpcode s.eng.op = some i) : s.eng.point.within i := by
  obtain ⟨j, hj, hw, -⟩ := inv.running hb
  obtain rfl : j = i := by simpa [hj] using hd
  exact hw

theorem decodeOpcode_opcode (i : Instr) : decodeOpcode (opcode i) = some i := by
  cases i <;> rfl

/-- What a completion of command `i` may change of RESULT and MSGLEN (R24 to R26). -/
theorem Completion.Fits.results {i : Instr} {c : Completion} (h : c.Fits i) (s : State) :
    (i ≠ .sample → i ≠ .rxbyte → (complete c s).result = s.result) ∧
    (i ≠ .rxmsg → (complete c s).msglen = s.msglen) ∧
    ((complete c s).status.ok = false → (complete c s).result = s.result) := by
  simp only [complete_fields, status_completed_fields]
  refine ⟨fun h1 h2 => ?_, fun h1 => ?_, fun h1 => ?_⟩
  · cases hr : c.result with
    | none => rfl
    | some v =>
      obtain ⟨-, h3 | h3⟩ := h.result (by simp [hr])
      · exact absurd h3 h1
      · exact absurd h3 h2
  · cases hm : c.msglen with
    | none => rfl
    | some m => exact absurd (h.msglen m hm).1 h1
  · cases hr : c.result with
    | none => rfl
    | some v =>
      obtain ⟨h2, -⟩ := h.result (by simp [hr])
      simp [h2] at h1

theorem Writes.results {i : Instr} {s u : State} (w : Writes i s u) :
    u.status = s.status ∧ u.result = s.result ∧ u.msglen = s.msglen := by
  cases w <;> simp [storeBitdur, storeSpb]

/-- Settles O48: a step that leaves the engine at a place writes no result, and every completion fits its command. -/
theorem resultsAreWrittenAtCompletion : Obligations.ResultsAreWrittenAtCompletion := by
  intro i s t inv hb hop hx
  have completed {c : Completion} {v : State} (hc : c.Fits i) (he : v.events = s.events)
      (hr : v.result = s.result) (hm : v.msglen = s.msglen) (ht : t = complete c v) :
      t.status.busy = false ∧ t.eng.point = .idle ∧ t.eng.phase = .idle ∧ t.events = s.events ∧
        (i ≠ .sample → i ≠ .rxbyte → t.result = s.result) ∧ (i ≠ .rxmsg → t.msglen = s.msglen) ∧
        (t.status.ok = false → t.result = s.result) := by
    subst ht
    rw [← hr, ← hm]
    exact ⟨rfl, rfl, rfl, he, hc.results v⟩
  cases leaves_exec hx with
  | goes w ho _ =>
    obtain ⟨hst, hr, hm⟩ := w.results
    exact .inl ⟨(congrArg State.status ho).trans hst, (congrArg State.result ho).trans hr,
      (congrArg State.msglen ho).trans hm⟩
  | completes w ho hc _ he ht =>
    obtain ⟨-, hr, hm⟩ := w.results
    exact .inr (completed hc he ((congrArg State.result ho).trans hr) ((congrArg State.msglen ho).trans hm) ht)
  | finishes hp ht =>
    have hw := within_of_running inv hb (hop ▸ decodeOpcode_opcode i)
    exact .inr (completed (fits_of_finish inv.counters hw hp) rfl rfl rfl ht)
  | stops _ ht =>
    exact .inr (completed (v := { s with eng := { s.eng with stopReq := false } }) (fits_success i) rfl rfl rfl ht)

/-! ### What a settled turn can do -/

/-- What a host access that issues no command leaves (R42 to R50). -/
inductive Accessed (s : State) : State → Prop where
  | read (off : Offset) (v : Word) : Accessed s { s with reads := s.reads ++ [(off, v)] }
  | badRead (off : Offset) (v : Word) : Accessed s (refuse .badAddress { s with reads := s.reads ++ [(off, v)] })
  | refused (c : HCause) (h : c ≠ .clear) : Accessed s (refuse c s)
  | rejected (w : Word) (e : Err) (idle : s.status.busy = false) : Accessed s (rejectCommand e { s with cmd := w })
  | arg0 (v : Word) : Accessed s { s with arg0 := v }
  | arg1 (v : Word) : Accessed s { s with arg1 := v }
  | ctrl (v : Word) : Accessed s (writeCtrl v s)
  | text (m : Nat) (v : Word) (h : m < 64) (idle : s.status.busy = false) :
      Accessed s (writeWord (txBase + 4 * m) v s)

theorem accessed_busRead (off : Offset) (s : State) : Accessed s (busRead off s) := by
  simp only [busRead]
  split
  · exact .read off _
  · exact .badRead off _

theorem accessed_writeCmd {w : Word} {s t : State} (idle : s.status.busy = false) (h : writeCmd w s = .done t) :
    Accessed s t := by
  simp only [writeCmd] at h
  split at h
  · cases h
    exact .rejected w _ idle
  · split at h <;> cases h
    exact .rejected w _ idle

/-- A host access that issues no command is one of these. -/
theorem accessed_of_access {a : Access} {s t : State} (h : access a s = .done t) : Accessed s t := by
  cases a with
  | read off =>
    cases h
    exact accessed_busRead off s
  | write off v =>
    simp only [access, busWrite] at h
    split at h
    · cases h
      exact .refused _ (by simp)
    rename_i tg htg
    split at h
    · cases h
      exact .refused _ (by simp)
    rename_i hro
    split at h
    · cases h
      exact .refused _ (by simp)
    rename_i hbusy
    cases tg with
    | status | result | msglen | bitdur | thresh | spb | spacing | polldly | caps | msgbuf m =>
      simp [Target.readOnly] at hro
    | cmd => exact accessed_writeCmd (by simpa using hbusy) h
    | arg0 =>
      cases h
      exact .arg0 v
    | arg1 =>
      cases h
      exact .arg1 v
    | ctrl =>
      cases h
      exact .ctrl v
    | txbuf m =>
      cases h
      exact .text m v (target_txbuf htg) (by simpa using hbusy)

theorem eq_of_engineMove_settled {s t : State} (h : engineMove s = .settled t) : t = s := by
  obtain ⟨-, hm⟩ | ⟨-, i, -, hm⟩ | ⟨-, -, hm⟩ := engineMove_cases s <;> rw [hm] at h <;> cases h
  rfl

/-- A settled turn is a reset, or at most one host access; the turns to come change with it. -/
theorem settled_cases {s t : State} (h : nextMove s = .settled t) :
    (∃ rest, t = resetMachine { s with agenda := rest }) ∨
    (∃ rest, t = { s with agenda := rest }) ∨
    (∃ rest next u, Accessed { s with agenda := rest } u ∧ t = { u with agenda := next }) := by
  simp only [nextMove] at h
  split at h
  · exact .inr (.inl ⟨s.agenda, eq_of_engineMove_settled h⟩)
  · exact .inr (.inl ⟨_, eq_of_engineMove_settled h⟩)
  · rename_i a rest _
    simp only [accessMove] at h
    split at h <;> cases h
    exact .inr (.inr ⟨rest, t.agenda, t, accessed_of_access ‹_›, rfl⟩)
  · rename_i rest _
    cases h
    have ha := accessed_busRead 0x010 { s with agenda := rest }
    simp only [pollRound]
    split <;> exact .inr (.inr ⟨rest, _, _, ha, rfl⟩)
  · cases h
    exact .inl ⟨_, rfl⟩

/-! ### O56: the derived delays -/

theorem toNat_spacingOf (b : Word) (n : Half) : (spacingOf b n).toNat = max 5 (b.toNat / (n.toNat + 1)) := by
  have h := Nat.div_le_self b.toNat (n.toNat + 1)
  have hb := b.isLt
  rw [spacingOf, spacingFloor, BitVec.toNat_ofNat]
  omega

theorem toNat_pollDelayOf (b : Word) : (pollDelayOf b).toNat = max 50 (b.toNat / 4) := by
  have hb := b.isLt
  rw [pollDelayOf, pollFloor, pollDivisor, BitVec.toNat_ofNat]
  omega

/-- RecomputeTiming makes the delays consistent with whatever positive BITDUR and SPB are held (R83). -/
theorem timing_recomputeTiming {s : State} (hb : 1 ≤ s.bitdur.toNat) (hn : 1 ≤ s.spb.toNat) :
    (recomputeTiming s).Timing := ⟨hb, hn, toNat_spacingOf _ _, toNat_pollDelayOf _⟩

/-- SETSPB never stores 0 (R86). -/
theorem spbOf_pos (n : Word) : 1 ≤ (spbOf n).toNat := by
  simp only [spbOf, saturate16]
  split
  · decide
  · rename_i h
    have hn : n.toNat ≠ 0 := fun h0 => h (BitVec.eq_of_toNat_eq h0)
    split
    · decide
    · rw [BitVec.toNat_ofNat]
      omega

theorem State.Timing.congr {s t : State} (h : s.Timing)
    (he : t.bitdur = s.bitdur ∧ t.spb = s.spb ∧ t.spacing = s.spacing ∧ t.polldly = s.polldly) : t.Timing := by
  obtain ⟨hb, hn, hs, hp⟩ := he
  obtain ⟨b, n, sp, pd⟩ := h
  exact ⟨hb ▸ b, hn ▸ n, by rw [hs, hb, hn, sp], by rw [hp, hb, pd]⟩

theorem Writes.timing {i : Instr} {s u : State} (w : Writes i s u) (h : s.Timing) : u.Timing := by
  cases w with
  | nothing => exact h
  | bitdur ha =>
    refine timing_recomputeTiming (s := { s with bitdur := s.eng.a0 }) (Nat.one_le_iff_ne_zero.2 ?_) h.spb_pos
    exact fun h0 => ha (BitVec.eq_of_toNat_eq h0)
  | spb => exact timing_recomputeTiming (s := { s with spb := spbOf s.eng.a0 }) h.bitdur_pos (spbOf_pos _)
  | thresh | calibrated | message => exact h.congr (by simp)

theorem timing_exec {i : Instr} {s t : State} (hx : exec i s = .next t) (h : s.Timing) : t.Timing := by
  obtain ⟨u, hw, hu⟩ := (leaves_exec hx).stored
  obtain ⟨hbitdur, hspb, -, hspacing, hpolldly⟩ := configuration_eq_of_stored_eq hu
  exact (hw.timing h).congr ⟨hbitdur, hspb, hspacing, hpolldly⟩

@[simp] theorem requestStop_configuration (s : State) :
    (requestStop s).bitdur = s.bitdur ∧ (requestStop s).spb = s.spb ∧ (requestStop s).thresh = s.thresh ∧
    (requestStop s).spacing = s.spacing ∧ (requestStop s).polldly = s.polldly := by
  simp only [requestStop]; split <;> simp

@[simp] theorem writeCtrl_configuration (v : Word) (s : State) :
    (writeCtrl v s).bitdur = s.bitdur ∧ (writeCtrl v s).spb = s.spb ∧ (writeCtrl v s).thresh = s.thresh ∧
    (writeCtrl v s).spacing = s.spacing ∧ (writeCtrl v s).polldly = s.polldly := by
  simp only [writeCtrl, clearHostErr]
  split <;> split <;> simp

theorem Accessed.timing {s t : State} (a : Accessed s t) (h : s.Timing) : t.Timing := by
  cases a <;> exact h.congr (by simp [rejectCommand])

/-- Reset restores a consistent configuration (R38). -/
theorem timing_resetOf (p : Params) : (State.resetOf p).Timing :=
  timing_recomputeTiming (s := State.resetOf p) (by decide : 1 ≤ (BitVec.ofNat 32 bitdurReset).toNat)
    (by decide : 1 ≤ (BitVec.ofNat 16 spbReset).toNat)

theorem State.Timing.withAgenda {s : State} (h : s.Timing) (rest : List Turn) :
    State.Timing { s with agenda := rest } := h.congr ⟨rfl, rfl, rfl, rfl⟩

theorem timing_step {s t : State} (h : s.Timing) (hst : step s = .next t) : t.Timing := by
  obtain hm | ⟨i, u, hm, hx⟩ := step_cases hst
  · obtain ⟨rest, rfl⟩ | ⟨rest, rfl⟩ | ⟨rest, next, u, ha, rfl⟩ := settled_cases hm
    · exact (timing_resetOf s.params).congr ⟨rfl, rfl, rfl, rfl⟩
    · exact h.withAgenda rest
    · exact (ha.timing (h.withAgenda rest)).withAgenda next
  · refine timing_exec hx ?_
    obtain ⟨rest, -, -, rfl⟩ | ⟨w, rest, -, -, -, -, rfl⟩ := nextMove_run hm <;>
      exact h.congr ⟨rfl, rfl, rfl, rfl⟩

/-- Settles O56: every write that touches BITDUR or SPB recomputes both delays. -/
theorem derivedTimingStaysConsistent : Obligations.DerivedTimingStaysConsistent :=
  ⟨timing_resetOf _, fun _ _ h hst => timing_step h hst⟩

/-! ### O17: the reset values -/

/-- Settles O17: every value is the one State.reset names. -/
theorem resetStateValues : Obligations.ResetStateValues := by
  refine ⟨rfl, rfl, rfl, ?_, rfl, ?_, rfl, rfl, ?_, ?_, rfl, rfl, rfl, rfl, rfl, rfl, fun a => rfl⟩ <;> decide

/-! ### O15: the placed word -/

theorem decodeWord_encode (i : Instr) : decodeWord (encode i) = .ok i := by
  cases i <;> rfl

theorem opField_encode (i : Instr) : opField (encode i) = opcode i := by
  cases i <;> rfl

/-- The operand check of R77 in the words of the statements. -/
theorem operandsAccepted_of {i : Instr} {a0 : Word} (a1 : Word)
    (h : ¬ ((i = .send ∨ i = .rxmsg) ∧ 256 < a0.toNat)) : operandsAccepted i a0 a1 = true := by
  cases i with
  | send => simpa [operandsAccepted, legalOperands] using h
  | rxmsg => simpa [operandsAccepted, legalOperands] using h
  | setbd | setspb | setthr | sendbit | sample | calib | waitstart | rxbyte | rxloop => rfl

/-- An idle write of a command's word to CMD, with legal operands, issues the command (R50). -/
theorem access_issue {i : Instr} {s : State} (idle : s.status.busy = false)
    (h : ¬ ((i = .send ∨ i = .rxmsg) ∧ 256 < s.arg0.toNat)) :
    access (.write 0x000 (encode i)) s = .issued i (State.issued i s) := by
  have ht : target 0x000 = some .cmd := rfl
  have hl : latch (opcode i) { s with cmd := encode i } = State.issued i s := rfl
  simp only [access, busWrite, ht, Target.readOnly, idle, Bool.false_and, Bool.false_eq_true, if_false, writeTarget,
    writeCmd, decodeWord_encode, operandsAccepted_of s.arg1 h, if_true, opField_encode, hl]

/-- The step whose turn is such a write starts the command's rule at the state R50 names. -/
theorem step_issue {i : Instr} {s : State} {rest : List Turn}
    (turn : s.agenda = .access (.write 0x000 (encode i)) :: rest) (idle : s.status.busy = false)
    (h : ¬ ((i = .send ∨ i = .rxmsg) ∧ 256 < s.arg0.toNat)) :
    step s = exec i (State.issued i { s with agenda := rest }) := by
  have ha := access_issue (s := { s with agenda := rest }) idle h
  simp only [step, nextMove, turn, accessMove, ha]

/-- Settles O15: the placed word is issued at once, and the placing only idles the engine. -/
theorem placedWordIsRunNext : Obligations.PlacedWordIsRunNext := by
  intro s i nbits h
  have hw : BitVec.ofNat 32 (encode i).toNat = encode i := by simp
  rw [State.withFetchWord, hw]
  exact step_issue (s := placeCommand (encode i) s) rfl rfl h

/-! ### O7: the words of STATUS, MSGLEN and CAPS -/

@[simp] theorem getLsbD_bitWord (b : Bool) (n : Nat) : (bitWord b).getLsbD n = (decide (n = 0) && b) := by
  cases b
  · simp [bitWord]
  · cases n <;> simp [bitWord]

@[simp] theorem getElem_bitWord (b : Bool) (n : Nat) (h : n < 32) : (bitWord b)[n] = (decide (n = 0) && b) :=
  getLsbD_bitWord b n

/-- The flags of STATUS, and the two bits between OK and ERR (R23). -/
theorem statusWord_flags (st : Status) :
    st.word.getLsbD 0 = st.busy ∧ st.word.getLsbD 1 = st.ok ∧ st.word.extractLsb' 2 2 = 0 ∧
    st.word.getLsbD 8 = st.hostErr := by
  refine ⟨by simp [Status.word], by simp [Status.word], ?_, by simp [Status.word]⟩
  apply BitVec.eq_of_getLsbD_eq
  intro n hn
  simp [Status.word, hn, show 2 + n < 4 by omega, show 2 + n < 8 by omega, show 2 + n < 9 by omega]

theorem statusWord_err (st : Status) : st.word.extractLsb' 4 4 = st.err.code := by
  apply BitVec.eq_of_getLsbD_eq
  intro n hn
  simp [Status.word, hn, show 4 + n < 8 by omega, show 4 + n < 9 by omega, show 4 + n < 32 by omega]

/-- Bits at and above 9 of STATUS are those of HCAUSE's code alone (R23). -/
theorem getLsbD_statusWord_high (st : Status) (n : Nat) (hn : n < 23) :
    st.word.getLsbD (9 + n) = st.hcause.code.getLsbD n := by
  have herr : st.err.code.getLsbD (9 + n - 4) = false := st.err.code.getLsbD_of_ge _ (by omega)
  simp [Status.word, herr, show 9 + n < 32 by omega, show 9 + n - 8 ≠ 0 by omega]

theorem statusWord_hcause (st : Status) :
    st.word.extractLsb' 9 2 = st.hcause.code ∧ st.word.extractLsb' 11 21 = 0 := by
  refine ⟨?_, ?_⟩ <;> apply BitVec.eq_of_getLsbD_eq <;> intro n hn
  · simp only [BitVec.getLsbD_extractLsb', hn, decide_true, Bool.true_and]
    exact getLsbD_statusWord_high st n (by omega)
  · simp only [BitVec.getLsbD_extractLsb', hn, decide_true, Bool.true_and]
    rw [show 11 + n = 9 + (2 + n) by omega, getLsbD_statusWord_high st _ (by omega),
      BitVec.getLsbD_of_ge _ _ (by omega)]
    simp

theorem msgLenWord_fields (m : MsgLen) :
    m.word.extractLsb' 0 9 = m.len ∧ m.word.extractLsb' 9 7 = 0 ∧ m.word.extractLsb' 16 2 = m.ending.code ∧
    m.word.extractLsb' 18 14 = 0 := by
  refine ⟨?_, ?_, ?_, ?_⟩ <;> apply BitVec.eq_of_getLsbD_eq <;> intro n hn
  · simp [MsgLen.word, hn, show n < 16 by omega, show n < 32 by omega]
  · simp [MsgLen.word, show 9 + n < 16 by omega]
  · have hlen : m.len.getLsbD (16 + n) = false := m.len.getLsbD_of_ge _ (by omega)
    simp [MsgLen.word, hn, hlen, show 16 + n < 32 by omega]
  · have hlen : m.len.getLsbD (18 + n) = false := m.len.getLsbD_of_ge _ (by omega)
    have hend : m.ending.code.getLsbD (18 + n - 16) = false := m.ending.code.getLsbD_of_ge _ (by omega)
    simp [MsgLen.word, hlen, hend]

theorem capsWord_fields (p : Params) :
    (capsWord p).getLsbD 0 = p.txPin.isSome ∧ (capsWord p).getLsbD 1 = p.rxPin.isSome ∧
    (capsWord p).extractLsb' 2 30 = 0 := by
  refine ⟨by simp [capsWord, Params.txPresent], by simp [capsWord, Params.rxPresent], ?_⟩
  apply BitVec.eq_of_getLsbD_eq
  intro n hn
  simp [capsWord]

/-- Settles O7: the fields word by word, and the codes as Flags.lean tables them. -/
theorem statusWordLayout : Obligations.StatusWordLayout := by
  refine ⟨fun st => ?_, fun m => ?_, capsWord_fields⟩
  · obtain ⟨hbusy, hok, hgap, hhost⟩ := statusWord_flags st
    obtain ⟨hcause, hhigh⟩ := statusWord_hcause st
    refine ⟨hbusy, hok, hgap, ?_, hhost, ?_, hhigh⟩
    · rw [statusWord_err]
      cases st.err <;> rfl
    · rw [hcause]
      cases st.hcause <;> rfl
  · obtain ⟨hlen, hgap, hend, hhigh⟩ := msgLenWord_fields m
    refine ⟨hlen, hgap, ?_, hhigh⟩
    rw [hend]
    cases m.ending <;> rfl

/-! ### Where a step leaves the engine -/

/-- The engine stands at a place of command `i`, or at none, with the phase, the pin, the counters and the widths that
State.Inv asks of that place. -/
structure Placed (i : Instr) (s : State) : Prop where
  within : s.eng.point = .idle ∨ s.eng.point.within i
  phase : s.eng.phaseFits
  pins : s.pinFits
  counters : s.countersFit
  widths : s.eng.Widths

theorem placed_goto {i : Instr} {p : Point} {t : State} (within : p.within i) (w : t.eng.Widths)
    (phase : (goto p t).eng.phaseFits) (pins : (goto p t).pinFits) (counters : (goto p t).countersFit) :
    Placed i (goto p t) := ⟨.inr within, phase, pins, counters, { w with }⟩

theorem placed_complete {i : Instr} (c : Completion) {s : State} (w : s.eng.Widths) : Placed i (complete c s) :=
  ⟨.inl rfl, rfl, trivial, trivial, { w with }⟩

/-- The commands that come to stand at a completion: all but the configuration commands, which complete at once, and
RXLOOP, which its iteration check ends. -/
def finishing (i : Instr) : Prop := i ≠ .setbd ∧ i ≠ .setspb ∧ i ≠ .setthr ∧ i ≠ .rxloop

theorem placed_finish {i : Instr} {c : Completion} {t : State} (fits : c.Fits i) (w : t.eng.Widths)
    (phase : t.eng.phase ≠ .idle) (run : finishing i := by simp [finishing]) :
    Placed i (goto (.finish c) t) := by
  refine placed_goto ⟨fits.result, fun h => ?_, run⟩ w phase trivial fun m hm => (fits.msglen m hm).2
  obtain ⟨m, hm⟩ := Option.isSome_iff_exists.1 h
  exact (fits.msglen m hm).1

/-! ### The places of the transmit commands -/

theorem placed_sendNext {s : State} (w : s.eng.Widths) (phase : s.eng.phase = .tx)
    (pin : s.params.txPresent = true) : Placed .send (sendNext s) := by
  simp only [sendNext]
  split
  · exact placed_goto rfl { w with } phase pin ‹_›
  · exact placed_goto rfl w phase pin trivial

theorem placed_sendbitAt (p : BitAt) {s : State} (w : s.eng.Widths) (phase : s.eng.phase = .tx)
    (pin : s.params.txPresent = true) : Placed .sendbit (sendbitAt p s) := by
  cases p with
  | drive => exact placed_goto rfl w phase pin trivial
  | wait => exact placed_finish (fits_success _) w (by simp [phase])

theorem placed_sendAt (p : SendAt) {s : State} (w : s.eng.Widths) (phase : s.eng.phase = .tx)
    (pin : s.params.txPresent = true) (legal : s.eng.a0.toNat ≤ 256)
    (counters : p ≠ .idleDrive → p ≠ .idleWait → s.eng.j < s.eng.a0.toNat) : Placed .send (sendAt p s) := by
  cases p with
  | startDrive | dataDrive | stopDrive | stopWait =>
    exact placed_goto rfl w phase pin (counters (by simp) (by simp))
  | startWait => exact placed_goto rfl { w with i_le := Nat.zero_le _ } phase pin (counters (by simp) (by simp))
  | dataWait =>
    have hc := counters (by simp) (by simp)
    simp only [sendAt]
    split
    · rename_i hi
      exact placed_goto rfl { w with i_le := Nat.le_of_lt_succ hi } phase pin hc
    · exact placed_goto rfl w phase pin hc
  | gapWait =>
    have hc := counters (by simp) (by simp)
    exact placed_sendNext { w with j_le := Nat.le_trans hc legal } phase pin
  | idleDrive => exact placed_goto rfl w phase pin trivial
  | idleWait => exact placed_finish (fits_success _) w (by simp [phase])

/-! ### The places of SAMPLE and CALIB -/

theorem Kept.rxPresent {s t : State} (h : Kept s t) (pin : s.params.rxPresent = true) :
    t.params.rxPresent = true := by
  rw [h.params, pin]

/-- SampleAnalogP keeps the ranges of R36, its counters, the phase and the receive pin. -/
theorem sampleStep_places (p : SampleAt) {s : State} (w : s.eng.Widths) (counters : p.counters s)
    (pin : s.params.rxPresent = true) :
    (sampleStep p s).state.eng.Widths ∧ (sampleStep p s).state.eng.phase = s.eng.phase ∧
    (sampleStep p s).state.params.rxPresent = true ∧ ∀ q t, sampleStep p s = .here q t → q.counters t := by
  obtain ⟨hw, hc⟩ := sampleStep_keeps p s w counters
  exact ⟨hw, by rw [sampleStep_eng], by rw [params_sampleStep, pin], hc⟩

theorem placed_sampleAt (p : SampleAt) {s : State} (w : s.eng.Widths) (phase : s.eng.phase = .sample)
    (pin : s.params.rxPresent = true) (counters : p.counters s) : Placed .sample (sampleAt p s) := by
  obtain ⟨hw, hph, hpin, hc⟩ := sampleStep_places p w counters pin
  simp only [sampleAt]
  split <;> rename_i heq <;> simp only [heq, run_state_here, run_state_done] at hw hph hpin
  · have hq := hc _ _ heq
    exact placed_goto rfl hw (hph.trans phase) hpin hq
  · exact placed_finish (fits_withResult _ (.inl rfl)) hw (by simp [hph, phase])

theorem placed_calibSampled (v : Half) {s : State} (w : s.eng.Widths) (phase : s.eng.phase = .cal)
    (pin : s.params.rxPresent = true) : Placed .calib (calibSampled v s) := by
  simp only [calibSampled]
  split
  · exact placed_goto rfl { w with } phase pin ‹_›
  · exact placed_finish (fits_success _) { w with } (by simp [phase])

/-- CALIB at the first reading of a calibration sample. -/
theorem placed_calibBegin {s : State} (w : s.eng.Widths) (phase : s.eng.phase = .cal)
    (pin : s.params.rxPresent = true) (lt : s.eng.calK < s.eng.a0.toNat) :
    Placed .calib (goto (.calib (.sampling .read)) (sampleBegin s)) := by
  have hk := kept_sampleBegin s
  exact placed_goto rfl (widths_sampleBegin s w) ((sampleBegin_eng s).1.trans phase) (hk.rxPresent pin)
    ⟨hk.calK ▸ hk.a0 ▸ lt, counters_sampleBegin s⟩

theorem placed_calibAt (p : CalAt) {s : State} (w : s.eng.Widths) (phase : s.eng.phase = .cal)
    (pin : s.params.rxPresent = true) (counters : (goto (.calib p) s).countersFit) : Placed .calib (calibAt p s) := by
  cases p with
  | sampling q =>
    obtain ⟨hlt, hq⟩ := counters
    obtain ⟨hw, hph, hpin, hc⟩ := sampleStep_places q w hq pin
    have hk := kept_sampleStep q s
    simp only [calibAt]
    split <;> rename_i heq <;> simp only [heq, run_state_here, run_state_done] at hw hph hpin hk
    · have hq' := hc _ _ heq
      exact placed_goto rfl hw (hph.trans phase) hpin ⟨hk.calK ▸ hk.a0 ▸ hlt, hq'⟩
    · exact placed_calibSampled _ hw (hph.trans phase) hpin
  | gapWait =>
    have hlt : s.eng.calK + 1 < s.eng.a0.toNat := counters
    exact placed_calibBegin { w with calK_lt := hlt.trans s.eng.a0.isLt } phase pin hlt

/-! ### The places of the receive commands -/

theorem placed_waitstartAt (p : SearchAt) {s : State} (w : s.eng.Widths) (phase : s.eng.phase = p.phase)
    (pin : s.params.rxPresent = true) (counters : p.counters s.eng.a0.toNat s) :
    Placed .waitstart (waitstartAt p s) := by
  obtain ⟨hw, -, hc, hd⟩ := searchStep_keeps _ p s w counters phase
  have hk := kept_searchStep s.eng.a0.toNat p s
  simp only [waitstartAt]
  split <;> rename_i heq <;> simp only [heq, run_state_here, run_state_done] at hw hk
  · obtain ⟨hq, hph⟩ := hc _ _ heq
    rw [← hk.a0] at hq
    exact placed_goto rfl hw hph (hk.rxPresent pin) hq
  · exact placed_finish (fits_startCompletion _ _) hw (hd _ _ heq).1

theorem placed_rxbyteAt (p : ByteAt) {s : State} (w : s.eng.Widths) (phase : s.eng.phase = p.phase s.eng.i)
    (pin : s.params.rxPresent = true) (counters : p.counters s.eng.a0.toNat s) :
    Placed .rxbyte (rxbyteAt p s) := by
  obtain ⟨hw, hc, hd⟩ := byteStep_keeps _ p s w counters phase
  have hk := kept_byteStep s.eng.a0.toNat p s
  simp only [rxbyteAt]
  split <;> rename_i heq <;> simp only [heq, run_state_here, run_state_done] at hw hk
  · obtain ⟨hq, hph⟩ := hc _ _ heq
    rw [← hk.a0] at hq
    exact placed_goto rfl hw hph (hk.rxPresent pin) hq
  · exact placed_finish (fits_byteCompletion _) hw (hd _ _ heq)

/-- Inside ReceiveByteP the phase is never IDLE (R37). -/
theorem ByteAt.phase_ne_idle (p : ByteAt) (i : Nat) : p.phase i ≠ .idle := by
  cases p with
  | search q => cases q <;> simp [ByteAt.phase, SearchAt.phase]
  | firstWait | data q | dataWait | stop q | settleWait | closeWait => simp [ByteAt.phase]

/-- What RXMSG's loop leaves from `s`, inside ReceiveByteP or ended: fewer than maxChars bytes accumulated where it goes
on; where it ends a completion that fits, and no phase IDLE of its own making. -/
structure MessagePlaced (s : State) (r : Run ByteAt Completion) : Prop where
  widths : r.state.eng.Widths
  here : ∀ q t, r = .here q t → t.eng.n < t.eng.a0.toNat ∧ q.counters t.eng.a1.toNat t ∧
    t.eng.phase = q.phase t.eng.i ∧ t.params.rxPresent = true
  done : ∀ c t, r = .done c t → c.Fits .rxmsg ∧ (t.eng.phase = .idle → s.eng.phase = .idle)

theorem messagePlaced_here {s t : State} {q : ByteAt} (w : t.eng.Widths) (lt : t.eng.n < t.eng.a0.toNat)
    (counters : q.counters t.eng.a1.toNat t) (phase : t.eng.phase = q.phase t.eng.i)
    (pin : t.params.rxPresent = true) : MessagePlaced s (.here q t) :=
  ⟨w, by rintro _ _ ⟨⟩; exact ⟨lt, counters, phase, pin⟩, by simp⟩

theorem messagePlaced_done {s t : State} {c : Completion} (fits : c.Fits .rxmsg) (w : t.eng.Widths)
    (phase : t.eng.phase = .idle → s.eng.phase = .idle) : MessagePlaced s (.done c t) :=
  ⟨w, by simp, by rintro _ _ ⟨⟩; exact ⟨fits, phase⟩⟩

theorem messagePlaced_messageNext {s : State} (w : s.eng.Widths) : MessagePlaced s (messageNext s) := by
  obtain ⟨hw, hc, hd⟩ := byteStart_keeps s.eng.a1.toNat s w
  have hk := kept_byteStart s.eng.a1.toNat s
  simp only [messageNext]
  split
  · rename_i hlt
    split <;> rename_i heq <;> simp only [heq, run_state_here, run_state_done] at hw hk
    · obtain ⟨hq, hph, hpin⟩ := hc _ _ heq
      exact messagePlaced_here hw (hk.n ▸ hk.a0 ▸ hlt) (hk.a1 ▸ hq) hph hpin
    all_goals
      obtain ⟨-, rfl⟩ := hd _ _ heq
      exact messagePlaced_done (fits_messageCompletion w.n_le _ _) w id
  · exact messagePlaced_done (fits_messageCompletion w.n_le _ _) w id

@[simp] theorem appendByte_eng (b : Byte) (s : State) :
    (appendByte b s).eng = { s.eng with n := s.eng.n + 1 } := rfl

theorem messagePlaced_messageByte (b : Byte) {s : State} (w : s.eng.Widths) (lt : s.eng.n < 256) :
    MessagePlaced s (messageByte b s) := by
  have hw : (appendByte b s).eng.Widths := { w with n_le := lt }
  simp only [messageByte]
  split
  · exact messagePlaced_done (fits_messageCompletion lt _ _) hw id
  · obtain ⟨hw', hh, hd⟩ := messagePlaced_messageNext hw
    exact ⟨hw', hh, hd⟩

theorem messagePlaced_messageStep (p : ByteAt) {s : State} (w : s.eng.Widths)
    (phase : s.eng.phase = p.phase s.eng.i) (pin : s.params.rxPresent = true)
    (counters : p.counters s.eng.a1.toNat s) (lt : s.eng.n < s.eng.a0.toNat) (legal : s.eng.a0.toNat ≤ 256) :
    MessagePlaced s (messageStep p s) := by
  obtain ⟨hw, hc, hd⟩ := byteStep_keeps _ p s w counters phase
  have hk := kept_byteStep s.eng.a1.toNat p s
  simp only [messageStep]
  split <;> rename_i heq <;> simp only [heq, run_state_here, run_state_done] at hw hk
  · obtain ⟨hq, hph⟩ := hc _ _ heq
    exact messagePlaced_here hw (hk.n ▸ hk.a0 ▸ lt) (hk.a1 ▸ hq) hph (hk.rxPresent pin)
  · exact messagePlaced_done (fits_messageCompletion hw.n_le _ _) hw fun h => absurd h (hd _ _ heq)
  · obtain ⟨hw', hh, hd'⟩ := messagePlaced_messageByte _ hw (hk.n ▸ lt.trans_le legal)
    exact ⟨hw', hh, fun c u h => ⟨(hd' c u h).1, fun h0 => absurd ((hd' c u h).2 h0) (hd _ _ heq)⟩⟩

theorem placed_rxmsgAt (p : ByteAt) {s : State} (w : s.eng.Widths) (phase : s.eng.phase = p.phase s.eng.i)
    (pin : s.params.rxPresent = true) (counters : p.counters s.eng.a1.toNat s)
    (lt : s.eng.n < s.eng.a0.toNat) (legal : s.eng.a0.toNat ≤ 256) : Placed .rxmsg (rxmsgAt p s) := by
  obtain ⟨hw, hh, hd⟩ := messagePlaced_messageStep p w phase pin counters lt legal
  simp only [rxmsgAt]
  split <;> rename_i heq <;> simp only [heq, run_state_here, run_state_done] at hw
  · obtain ⟨hlt, hq, hph, hpin⟩ := hh _ _ heq
    exact placed_goto rfl hw hph hpin ⟨hlt, hq⟩
  · obtain ⟨hfits, hph⟩ := hd _ _ heq
    exact placed_finish hfits hw fun h => p.phase_ne_idle _ (phase.symm.trans (hph h))

theorem placed_loopFromByte {r : Run ByteAt ByteResult} (w : r.state.eng.Widths)
    (here : ∀ q t, r = .here q t →
      q.counters (loopTimeout t) t ∧ t.eng.phase = q.phase t.eng.i ∧ t.params.rxPresent = true)
    (byte : ∀ b t, r = .done (.byte b) t → t.params.rxPresent = true) : Placed .rxloop (loopFromByte r) := by
  cases r with
  | here q t =>
    obtain ⟨hq, hph, hpin⟩ := here q t rfl
    exact placed_goto rfl w hph hpin hq
  | done a t =>
    cases a with
    | byte b => exact placed_goto rfl { w with } rfl (byte b t rfl) trivial
    | fail e => exact placed_goto rfl { w with } rfl trivial trivial

theorem Kept.loopTimeout_eq {s t : State} (h : Kept s t) : loopTimeout t = loopTimeout s := by
  simp only [loopTimeout, h.bitdur, h.params]

theorem placed_loopCheck {s : State} (w : s.eng.Widths) : Placed .rxloop (loopCheck s) := by
  obtain ⟨hw, hc, hd⟩ := byteStart_keeps (loopTimeout s) s w
  have hk := kept_byteStart (loopTimeout s) s
  simp only [loopCheck]
  split
  · exact placed_complete _ { w with }
  · refine placed_loopFromByte hw (fun q t h => ?_) (fun b t h => by cases (hd _ _ h).1)
    rw [h, run_state_here] at hk
    exact hk.loopTimeout_eq ▸ hc q t h

theorem placed_rxloopByte (p : ByteAt) {s : State} (w : s.eng.Widths) (phase : s.eng.phase = p.phase s.eng.i)
    (pin : s.params.rxPresent = true) (counters : p.counters (loopTimeout s) s) :
    Placed .rxloop (rxloopAt (.byte p) s) := by
  obtain ⟨hw, hc, -⟩ := byteStep_keeps _ p s w counters phase
  have hk := kept_byteStep (loopTimeout s) p s
  refine placed_loopFromByte hw (fun q t h => ?_) (fun b t h => ?_)
  · obtain ⟨hq, hph⟩ := hc q t h
    rw [h, run_state_here] at hk
    exact ⟨hk.loopTimeout_eq ▸ hq, hph, hk.rxPresent pin⟩
  · rw [h, run_state_done] at hk
    exact hk.rxPresent pin

theorem placed_rxloopAt (p : LoopAt) {s : State} (hp : s.eng.point = .rxloop p) (pl : Placed .rxloop s) :
    Placed .rxloop (rxloopAt p s) := by
  obtain ⟨hwithin, hphase, hpins, hcounters, w⟩ := pl
  cases p with
  | check => exact placed_loopCheck w
  | byte q =>
    simp only [Engine.phaseFits, hp] at hphase
    simp only [State.pinFits, hp] at hpins
    simp only [State.countersFit, hp] at hcounters
    exact placed_rxloopByte q w hphase hpins hcounters
  | emit =>
    simp only [rxloopAt]
    split
    · simp only [Engine.phaseFits, hp] at hphase
      exact placed_goto rfl w (by show s.eng.phase ≠ _; simp [hphase]) trivial trivial
    · exact ⟨hwithin, hphase, hpins, hcounters, w⟩
  | backoff =>
    simp only [Engine.phaseFits, hp] at hphase
    exact placed_goto rfl w (by show s.eng.phase ≠ _; simp [hphase]) trivial trivial

/-! ### First steps, and every step -/

theorem placed_startState {i : Instr} {s : State} (w : s.eng.Widths) : Placed i (startState i s) := by
  cases i with
  | setbd =>
    simp only [startState]
    split <;> exact placed_complete _ { w with }
  | setspb | setthr => exact placed_complete _ { w with }
  | sendbit =>
    simp only [startState, sendbitStart]
    split
    · exact placed_goto rfl { w with } rfl ‹_› trivial
    · exact placed_complete _ { w with }
  | send =>
    simp only [startState, sendStart]
    split
    · exact placed_sendNext { w with j_le := Nat.zero_le _ } rfl ‹_›
    · exact placed_complete _ { w with }
  | sample =>
    simp only [startState, sampleStart]
    split
    · rename_i hrx
      exact placed_goto rfl (widths_sampleBegin _ { w with }) (sampleBegin_eng _).1 ((kept_sampleBegin _).rxPresent hrx)
        (counters_sampleBegin _)
    · exact placed_complete _ { w with }
  | calib =>
    simp only [startState, calibStart]
    split
    · rename_i h
      simp only [Bool.and_eq_true, decide_eq_true_eq] at h
      obtain ⟨hrx, ha⟩ := h
      exact placed_calibBegin { w with calK_lt := Nat.two_pow_pos 32 } rfl hrx
        (Nat.pos_of_ne_zero fun h0 => ha (BitVec.eq_of_toNat_eq h0))
    · exact placed_complete _ { w with }
  | waitstart =>
    obtain ⟨hw, -, hc⟩ := searchStart_keeps s.eng.a0.toNat s w
    have hk := kept_searchStart s.eng.a0.toNat s
    simp only [startState, waitstartStart]
    split <;> rename_i heq <;> simp only [heq, run_state_here, run_state_done] at hw hk
    · obtain ⟨hq, hph, hpin⟩ := hc _ _ heq
      rw [← hk.a0] at hq
      exact placed_goto rfl hw hph hpin hq
    · exact placed_complete _ hw
  | rxbyte =>
    obtain ⟨hw, hc, -⟩ := byteStart_keeps s.eng.a0.toNat s w
    have hk := kept_byteStart s.eng.a0.toNat s
    simp only [startState, rxbyteStart]
    split <;> rename_i heq <;> simp only [heq, run_state_here, run_state_done] at hw hk
    · obtain ⟨hq, hph, hpin⟩ := hc _ _ heq
      rw [← hk.a0] at hq
      exact placed_goto rfl hw hph hpin hq
    · exact placed_complete _ hw
  | rxmsg =>
    obtain ⟨hw, hh, -⟩ := messagePlaced_messageNext (s := { s with eng := { s.eng with n := 0 } })
      { w with n_le := Nat.zero_le _ }
    simp only [startState, rxmsgStart]
    split <;> rename_i heq <;> simp only [heq, run_state_here, run_state_done] at hw
    · obtain ⟨hlt, hq, hph, hpin⟩ := hh _ _ heq
      exact placed_goto rfl hw hph hpin ⟨hlt, hq⟩
    · exact placed_complete _ hw
  | rxloop => exact placed_goto rfl { w with } (by show Phase.startSearch ≠ _; simp) trivial trivial

theorem placed_advance {i : Instr} {s : State} (pl : Placed i s) (hw : s.eng.point.within i)
    (legal : legalOperands i s.eng.a0 s.eng.a1 = true) : Placed i (advance s.eng.point s) := by
  have hphase := pl.phase
  have hpins := pl.pins
  have hcounters := pl.counters
  have w := pl.widths
  unfold Engine.phaseFits at hphase
  unfold State.pinFits at hpins
  unfold State.countersFit at hcounters
  cases hp : s.eng.point <;> simp only [hp, Point.within] at hw hphase hpins hcounters
  case finish c => exact placed_complete c w
  all_goals subst hw
  case sendbit p => exact placed_sendbitAt p w hphase hpins
  case send p =>
    refine placed_sendAt p w hphase hpins (by simpa [legalOperands] using legal) fun h1 h2 => ?_
    cases p with
    | idleDrive => exact absurd rfl h1
    | idleWait => exact absurd rfl h2
    | startDrive | startWait | dataDrive | dataWait | stopDrive | stopWait | gapWait => exact hcounters
  case sample p => exact placed_sampleAt p w hphase hpins hcounters
  case calib p => exact placed_calibAt p w hphase hpins hcounters
  case waitstart p => exact placed_waitstartAt p w hphase hpins hcounters
  case rxbyte p => exact placed_rxbyteAt p w hphase hpins hcounters
  case rxmsg p =>
    obtain ⟨hlt, hc⟩ := hcounters
    exact placed_rxmsgAt p w hphase hpins hc hlt (by simpa [legalOperands] using legal)
  case rxloop p => exact placed_rxloopAt p hp pl

/-- Every step of a command leaves the engine at a place that fits. -/
theorem placed_exec {i : Instr} {s t : State} (pl : Placed i s) (legal : legalOperands i s.eng.a0 s.eng.a1 = true)
    (hx : exec i s = .next t) : Placed i t := by
  obtain hidle | hw := pl.within
  · rw [exec_of_idle i hidle] at hx
    cases hx
    exact placed_startState pl.widths
  · rw [exec_of_within hw] at hx
    cases hx
    exact placed_advance pl hw legal

/-! ### The invariant around a command's step -/

/-- The part of the invariant that is not about the engine's place, while command `i` is latched. -/
structure Latched (i : Instr) (s : State) : Prop where
  timing : s.Timing
  params_wf : s.params.wf = true
  mem_wf : Memory.wf s.mem = true
  hcause_iff : s.status.hostErr = true ↔ s.status.hcause ≠ .clear
  msglen_le : s.msglen.len.toNat ≤ 256
  busy : s.status.busy = true
  op : decodeOpcode s.eng.op = some i
  legal : legalOperands i s.eng.a0 s.eng.a1 = true
  ok : s.status.ok = false
  err : s.status.err = .noError
  stop : s.eng.stopReq = true → i = .rxloop

theorem latched_outer {i : Instr} {s : State} : Latched i s.outer ↔ Latched i s :=
  ⟨fun h => { h with timing := { h.timing with } }, fun h => { h with timing := { h.timing with } }⟩

theorem Latched.of_outer_eq {i : Instr} {s t : State} (h : Latched i s) (ho : t.outer = s.outer) : Latched i t :=
  latched_outer.1 (ho ▸ latched_outer.2 h)

theorem writeMsgByte_eq (n : Nat) (b : Byte) (s : State) :
    writeMsgByte n b s = { s with mem := (writeMsgByte n b s).mem } := by
  simp only [writeMsgByte]; split <;> rfl

/-- No write of a command's disturbs what is latched. -/
theorem Latched.write {i : Instr} {s u : State} (h : Latched i s) (w : Writes i s u) : Latched i u := by
  have ht := w.timing h.timing
  cases w with
  | nothing => exact h
  | bitdur | spb | thresh | calibrated => exact { h with timing := ht }
  | message b hp =>
    have hm := wf_writeMsgByte s.eng.n b s h.mem_wf
    rw [writeMsgByte_eq] at ht ⊢
    exact { h with timing := ht, mem_wf := hm }

/-- A latched command that stands at a place has the invariant. -/
theorem Latched.inv {i : Instr} {s : State} (h : Latched i s) (pl : Placed i s) (place : s.eng.point ≠ .idle) :
    s.Inv :=
  { h, pl with
    busy_iff := ⟨fun _ => place, fun _ => h.busy⟩
    running := fun _ => ⟨i, h.op, pl.within.resolve_left place, h.legal, h.ok, h.err⟩
    stop := fun hs => ⟨h.busy, by rw [eq_opcode_of_decodeOpcode h.op, h.stop hs]⟩ }

/-- A completed command leaves the invariant of the idle machine. -/
theorem Latched.inv_complete {i : Instr} {c : Completion} {s : State} (h : Latched i s) (fits : c.Fits i)
    (stop : s.eng.stopReq = false) (pl : Placed i (complete c s)) : (complete c s).Inv :=
  { pl with
    timing := { h.timing with }
    params_wf := h.params_wf
    mem_wf := h.mem_wf
    hcause_iff := h.hcause_iff
    msglen_le := by
      cases hm : c.msglen with
      | none => simpa [hm] using h.msglen_le
      | some m => simpa [hm] using (fits.msglen m hm).2
    busy_iff := by simp
    running := by simp
    stop := by simp [stop] }

/-- A step of a latched command, from a place that fits, leaves the invariant. -/
theorem inv_exec {i : Instr} {s t : State} (h : Latched i s) (pl : Placed i s) (hx : exec i s = .next t) :
    t.Inv := by
  have pl' := placed_exec pl h.legal hx
  cases leaves_exec hx with
  | goes w ho place => exact ((h.write w).of_outer_eq ho).inv pl' place
  | @completes c u v w ho fits loop he ht =>
    subst ht
    have hv := (h.write w).of_outer_eq ho
    exact hv.inv_complete fits (by simpa using mt hv.stop loop) pl'
  | @finishes c hp ht =>
    subst ht
    have hw : s.eng.point.within i := pl.within.resolve_left (by simp [hp])
    have hfits := fits_of_finish pl.counters hw hp
    simp only [hp, Point.within] at hw
    obtain ⟨-, -, -, -, -, hloop⟩ := hw
    exact h.inv_complete hfits (by simpa using mt h.stop hloop) pl'
  | stops loop ht =>
    subst ht
    exact Latched.inv_complete (s := { s with eng := { s.eng with stopReq := false } }) (i := i)
      { h with timing := { h.timing with }, stop := by simp } (fits_success _) rfl pl'

/-! ### The invariant around every other turn -/

/-- What the host's side and the environment may change under the invariant: whatever leaves BUSY, and OK and ERR of a
running command, as they are, HCAUSE set exactly with HOSTERR, the memory canonical, and a stop request to RXLOOP
alone. -/
theorem State.Inv.hosted {s : State} (inv : s.Inv) {st : Status} {m : Memory} {stop : Bool}
    (busy : st.busy = s.status.busy)
    (issued : s.status.busy = true → st.ok = s.status.ok ∧ st.err = s.status.err)
    (hcause : st.hostErr = true ↔ st.hcause ≠ .clear) (mem : Memory.wf m = true)
    (stopped : stop = true → s.status.busy = true ∧ s.eng.op = opcode .rxloop) {cmd arg0 arg1 : Word} {epoch : Nat}
    {env : Env} {agenda : List Turn} {events : List Event} {reads : List (Offset × Word)} :
    State.Inv { s with
      cmd := cmd, arg0 := arg0, arg1 := arg1, status := st, mem := m, epoch := epoch,
      eng := { s.eng with stopReq := stop }, env := env, agenda := agenda, events := events, reads := reads } :=
  { timing := { inv.timing with }
    params_wf := inv.params_wf
    mem_wf := mem
    hcause_iff := hcause
    msglen_le := inv.msglen_le
    busy_iff := busy ▸ inv.busy_iff
    running := fun h => by
      have hb : s.status.busy = true := busy ▸ h
      obtain ⟨i, hd, hw, hl, hok, herr⟩ := inv.running hb
      obtain ⟨hok', herr'⟩ := issued hb
      exact ⟨i, hd, hw, hl, hok'.trans hok, herr'.trans herr⟩
    phase := inv.phase
    pins := inv.pins
    counters := inv.counters
    widths := { inv.widths with }
    stop := fun h => by
      obtain ⟨hb, hop⟩ := stopped h
      exact ⟨busy.trans hb, hop⟩ }

/-- Registers the host alone writes, the environment and what was observed are no part of the invariant. -/
theorem State.Inv.observed {s : State} (inv : s.Inv) {cmd arg0 arg1 : Word} {epoch : Nat} {env : Env}
    {agenda : List Turn} {events : List Event} {reads : List (Offset × Word)} :
    State.Inv { s with
      cmd := cmd, arg0 := arg0, arg1 := arg1, epoch := epoch, env := env, agenda := agenda, events := events,
      reads := reads } :=
  inv.hosted (st := s.status) rfl (fun _ => ⟨rfl, rfl⟩) inv.hcause_iff inv.mem_wf inv.stop

theorem hcause_refused {c : HCause} (hc : c ≠ .clear) {st : Status}
    (h : st.hostErr = true ↔ st.hcause ≠ .clear) :
    (st.refused c).hostErr = true ↔ (st.refused c).hcause ≠ .clear := by
  simp only [Status.refused]
  split
  · exact h
  · simpa using hc

theorem inv_refuse {s : State} (inv : s.Inv) {c : HCause} (hc : c ≠ .clear) : (refuse c s).Inv := by
  obtain ⟨hbusy, hok, herr, -⟩ := status_refused_fields c s.status
  exact inv.hosted hbusy (fun _ => ⟨hok, herr⟩) (hcause_refused hc inv.hcause_iff) inv.mem_wf inv.stop

theorem inv_requestStop {s : State} (inv : s.Inv) : (requestStop s).Inv := by
  simp only [requestStop]
  split
  · rename_i h
    simp only [Bool.and_eq_true, decide_eq_true_eq] at h
    exact inv.hosted rfl (fun _ => ⟨rfl, rfl⟩) inv.hcause_iff inv.mem_wf (fun _ => h)
  · exact inv

theorem inv_clearHostErr {s : State} (inv : s.Inv) : (clearHostErr s).Inv :=
  inv.hosted (st := s.status.cleared) rfl (fun _ => ⟨rfl, rfl⟩) (by simp) inv.mem_wf inv.stop

theorem inv_writeCtrl {s : State} (inv : s.Inv) (v : Word) : (writeCtrl v s).Inv := by
  have stopped : (if v.getLsbD 0 then requestStop s else s).Inv := by
    split
    · exact inv_requestStop inv
    · exact inv
  simp only [writeCtrl]
  split
  · exact inv_clearHostErr stopped
  · exact stopped

/-- A host access that issues no command keeps the invariant. -/
theorem Accessed.inv {s t : State} (a : Accessed s t) (inv : s.Inv) : t.Inv := by
  cases a with
  | read off v => exact inv.observed
  | badRead off v => exact inv_refuse inv.observed (by simp)
  | refused c h => exact inv_refuse inv h
  | rejected w e idle =>
    exact inv.hosted (st := s.status.rejected e) rfl (fun hb => by simp [idle] at hb) inv.hcause_iff inv.mem_wf inv.stop
  | arg0 v => exact inv.observed
  | arg1 v => exact inv.observed
  | ctrl v => exact inv_writeCtrl inv v
  | text m v h idle =>
    exact inv.hosted rfl (fun _ => ⟨rfl, rfl⟩) inv.hcause_iff
      (wf_writeWord (txBase + 4 * m) v s inv.mem_wf (by simp [txBase]) (by simp only [txBase]; omega)) inv.stop

theorem widths_reset : Engine.reset.Widths := by constructor <;> decide

theorem inv_resetOf {p : Params} (h : p.wf = true) : (State.resetOf p).Inv where
  timing := timing_resetOf p
  params_wf := h
  mem_wf := rfl
  hcause_iff := by simp [State.resetOf]
  msglen_le := Nat.zero_le _
  busy_iff := by simp [State.resetOf, Engine.reset]
  running := by simp [State.resetOf]
  phase := rfl
  pins := trivial
  counters := trivial
  widths := widths_reset
  stop := by simp [State.resetOf, Engine.reset]

/-- A reset turn leaves the invariant again: the parameters, which it keeps, are in their ranges. -/
theorem inv_resetMachine {s : State} (inv : s.Inv) : (resetMachine s).Inv :=
  (inv_resetOf inv.params_wf).observed

/-- Settles O54: LOOP_TIMEOUT_BIAS_MS of Config lies in its range, and every other value is the one of reset. -/
theorem invariantHoldsAtReset : Obligations.InvariantHoldsAtReset := by
  refine inv_resetOf ?_
  simp only [Params.wf, Config.params, Bool.and_eq_true]
  exact ⟨decide_eq_true (Nat.succ_pos _), decide_eq_true Config.loopBiasLessOne.isLt⟩

/-- With the invariant a running command is latched, and placed where it stands. -/
theorem latched_of_running {i : Instr} {s : State} (inv : s.Inv) (hb : s.status.busy = true)
    (hd : decodeOpcode s.eng.op = some i) : Latched i s ∧ Placed i s := by
  obtain ⟨j, hj, hw, hl, hok, herr⟩ := inv.running hb
  obtain rfl : j = i := by simpa [hj] using hd
  refine ⟨{ inv with busy := hb, op := hd, legal := hl, ok := hok, err := herr, stop := fun hs => ?_ },
    { inv with within := .inr hw }⟩
  obtain ⟨-, hop⟩ := inv.stop hs
  rw [hop, decodeOpcode_opcode] at hd
  exact (Option.some.inj hd).symm

theorem decodeOpcode_of_decodeWord {w : Word} {i : Instr} (h : decodeWord w = .ok i) :
    decodeOpcode (opField w) = some i := by
  simp only [decodeWord] at h
  split at h
  · cases h
  · split at h
    · cases h
      assumption
    · cases h

/-- With the invariant the issue of a command on the idle machine latches it, and places it at no place yet (R50). -/
theorem latched_of_issue {i : Instr} {s : State} {w : Word} (inv : s.Inv) (idle : s.status.busy = false)
    (hw : decodeWord w = .ok i) (legal : operandsAccepted i s.arg0 s.arg1 = true) :
    Latched i (latch (opField w) { s with cmd := w }) ∧ Placed i (latch (opField w) { s with cmd := w }) := by
  have hidle : s.eng.point = .idle := by simpa [idle] using inv.busy_iff
  have hphase : s.eng.phase = .idle := by simpa [Engine.phaseFits, hidle] using inv.phase
  refine ⟨{ inv with
    timing := { inv.timing with }, busy := rfl, op := decodeOpcode_of_decodeWord hw, legal := legal, ok := rfl,
    err := rfl, stop := fun h => by cases h }, ?_⟩
  exact ⟨.inl rfl, hphase, trivial, trivial, { inv.widths with }⟩

theorem inv_step {s t : State} (inv : s.Inv) (hst : step s = .next t) : t.Inv := by
  obtain hm | ⟨i, u, hm, hx⟩ := step_cases hst
  · obtain ⟨rest, rfl⟩ | ⟨rest, rfl⟩ | ⟨rest, next, u, ha, rfl⟩ := settled_cases hm
    · exact inv_resetMachine (inv.withAgenda rest)
    · exact inv.withAgenda rest
    · exact (ha.inv (inv.withAgenda rest)).withAgenda next
  · obtain ⟨rest, hb, hd, rfl⟩ | ⟨w, rest, -, hb, hw, hops, rfl⟩ := nextMove_run hm
    · obtain ⟨hl, hp⟩ := latched_of_running (inv.withAgenda rest) hb hd
      exact inv_exec hl hp hx
    · obtain ⟨hl, hp⟩ := latched_of_issue (inv.withAgenda rest) hb hw hops
      exact inv_exec hl hp hx

/-- Settles O55: a settled turn keeps the invariant, and a command's step, first or later, restores it. -/
theorem everyStepKeepsInvariant : Obligations.EveryStepKeepsInvariant := fun _ _ inv hst => inv_step inv hst

end Sys2Proof.Machine

/-! The statements of the memory family: what the host's accesses do (R39 to R51), and what the atomic steps of the
commands leave of the host's side, the line and the clock (R56 to R66). Accesses are read by the target their offset
decodes to and by the cause, if any, that refuses them; a command's step by what it writes outside its own hidden
variables (`Leaves`) and by its one event (`Moved`). -/

namespace Sys2Proof.Machine

/-! ### Address decode -/

/-- Below the buffers the aligned offsets that R41 leaves out are those that name no register. -/
theorem registerAt_eq_none_iff {n : Nat} (aligned : n % 4 = 0) (low : n < 0x100) :
    registerAt n = none ↔ unmappedOffset n := by
  simp only [registerAt]
  split
  case h_14 =>
    refine iff_of_true rfl ?_
    simp only [imp_false] at *
    unfold unmappedOffset
    omega
  all_goals simp

/-- Address decode refuses exactly the misaligned and the unmapped offsets (R41). -/
theorem target_eq_none_iff (off : Offset) :
    target off = none ↔ off.toNat % 4 ≠ 0 ∨ unmappedOffset off.toNat := by
  simp only [target]
  split
  · simp [*]
  rename_i aligned
  split
  · rw [registerAt_eq_none_iff (by omega) ‹_›]
    simp [aligned]
  split
  · exact iff_of_false (by simp) (by omega)
  split
  · exact iff_of_false (by simp) (by omega)
  · exact iff_of_true rfl (.inr (.inr (.inr (by omega))))

theorem registerAt_kind {n : Nat} {tg : Target} (h : registerAt n = some tg) :
    (tg.readOnly = true ↔ readOnlyOffset n) ∧ (tg = .ctrl ↔ n = 0x00C) := by
  simp only [registerAt] at h
  split at h <;> cases h <;> decide

/-- The read-only targets are those R44 names, and CTRL stands at 0x00C alone (R41). -/
theorem target_kind {off : Offset} {tg : Target} (h : target off = some tg) :
    (tg.readOnly = true ↔ readOnlyOffset off.toNat) ∧ (tg = .ctrl ↔ off.toNat = 0x00C) := by
  simp only [target] at h
  split at h
  · cases h
  split at h
  · exact registerAt_kind h
  split at h
  · cases h
    exact ⟨iff_of_false (by simp [Target.readOnly]) (by omega), iff_of_false (by simp) (by omega)⟩
  split at h <;> cases h
  exact ⟨iff_of_true rfl (by unfold readOnlyOffset; omega), iff_of_false (by simp) (by omega)⟩

/-- Buffer word `m` of either buffer stands at the buffer's offset plus 4m (R41). -/
theorem target_bufferWord {m : Nat} (h : m < 64) :
    target (BitVec.ofNat 12 (0x100 + 4 * m)) = some (.txbuf m) ∧
    target (BitVec.ofNat 12 (0x200 + 4 * m)) = some (.msgbuf m) := by
  have htx : (BitVec.ofNat 12 (0x100 + 4 * m)).toNat = 0x100 + 4 * m := by rw [BitVec.toNat_ofNat]; omega
  have hmsg : (BitVec.ofNat 12 (0x200 + 4 * m)).toNat = 0x200 + 4 * m := by rw [BitVec.toNat_ofNat]; omega
  simp only [target, htx, hmsg]
  constructor
  · rw [if_neg (by omega), if_neg (by omega), if_pos (by omega), Nat.add_sub_cancel_left,
      Nat.mul_div_cancel_left m (by omega)]
  · rw [if_neg (by omega), if_neg (by omega), if_neg (by omega), if_pos (by omega), Nat.add_sub_cancel_left,
      Nat.mul_div_cancel_left m (by omega)]

/-! ### Reads -/

theorem busReadValue_mapped {off : Offset} {tg : Target} (h : target off = some tg) (s : State) :
    busReadValue s off = readTarget s tg := by
  simp only [busReadValue, h]

/-- A misaligned or unmapped read returns 0 and is a refused access (R42, R46). -/
theorem busRead_bad {off : Offset} (h : target off = none) (s : State) :
    busRead off s = refuse .badAddress { s with reads := s.reads ++ [(off, 0)] } := by
  simp only [busRead, busReadValue, h]

/-- What a register reads as does not depend on who moves next. -/
theorem busReadValue_withAgenda (s : State) (off : Offset) (rest : List Turn) :
    busReadValue { s with agenda := rest } off = busReadValue s off := by
  simp only [busReadValue]
  cases target off with
  | none => rfl
  | some tg => cases tg <;> rfl

/-- A refused access is what R46 says. -/
theorem refuse_eq (c : HCause) (s : State) : refuse c s = State.refusedWith c s := by
  simp only [refuse, Status.refused, State.refusedWith]
  split <;> rfl

/-- A word's lanes are the bytes it was put together from (R51). -/
theorem laneByte_wordOfBytes (b0 b1 b2 b3 : Byte) :
    laneByte (wordOfBytes b0 b1 b2 b3) 0 = b0 ∧ laneByte (wordOfBytes b0 b1 b2 b3) 1 = b1 ∧
    laneByte (wordOfBytes b0 b1 b2 b3) 2 = b2 ∧ laneByte (wordOfBytes b0 b1 b2 b3) 3 = b3 := by
  refine ⟨?_, ?_, ?_, ?_⟩ <;> apply BitVec.eq_of_getLsbD_eq <;> intro n hn <;>
    simp only [laneByte, wordOfBytes, BitVec.getLsbD_append, BitVec.getLsbD_extractLsb']
  · simp [hn]
  · simp [hn]
  · simp [hn, show ¬ 16 + n < 8 by omega, show 16 + n - 8 = 8 + n by omega]
  · simp [hn, show ¬ 24 + n < 8 by omega, show 24 + n - 8 = 16 + n by omega, show ¬ 16 + n < 8 by omega,
      show 16 + n - 8 = 8 + n by omega]

/-- Lane `k` of a buffer word is byte `k` of the four at its offset (R51). -/
theorem laneByte_readWord (s : State) (a : Nat) {k : Nat} (h : k < 4) :
    laneByte (readWord s a) k = readByte s (a + k) := by
  obtain ⟨h0, h1, h2, h3⟩ :=
    laneByte_wordOfBytes (readByte s a) (readByte s (a + 1)) (readByte s (a + 2)) (readByte s (a + 3))
  interval_cases k
  exacts [h0, h1, h2, h3]

/-! ### The turn of an access -/

/-- A turn that accesses the window without issuing a command is one step. -/
theorem step_access {a : Access} {s t : State} {rest : List Turn} (turn : s.agenda = .access a :: rest)
    (h : access a { s with agenda := rest } = .done t) : step s = .next t := by
  simp only [step, nextMove, turn, accessMove, h]

/-- A read at an offset that decodes to a register only records what the register reads as (R42). -/
theorem step_read {off : Offset} {tg : Target} {s : State} {rest : List Turn}
    (turn : s.agenda = .access (.read off) :: rest) (h : target off = some tg) :
    step s = .next { s with agenda := rest, reads := s.reads ++ [(off, busReadValue s off)] } := by
  rw [step_access turn rfl]
  simp only [busRead, h, busReadValue_withAgenda]

/-- Settles O4: the offset decodes to a register. -/
theorem mappedReadHasNoSideEffect : Obligations.MappedReadHasNoSideEffect := by
  intro s off rest turn aligned mapped
  cases htg : target off with
  | none => exact absurd ((target_eq_none_iff off).1 htg) (by simp [aligned, mapped])
  | some tg => exact step_read turn htg

/-- Settles O5: the offset decodes to nothing. -/
theorem badReadReturnsZeroAndIsRefused : Obligations.BadReadReturnsZeroAndIsRefused := by
  intro s off rest turn bad
  rw [step_access turn rfl, busRead_bad ((target_eq_none_iff off).2 bad), refuse_eq]

/-- Settles O6: the registers as R41 tables them, and of the buffers the lanes of their words. -/
theorem windowReadsItsRegisters : Obligations.WindowReadsItsRegisters := by
  intro s
  refine ⟨rfl, rfl, rfl, rfl, rfl, rfl, rfl, rfl, rfl, rfl, rfl, rfl, rfl, fun i hi => ?_, fun i hi => ?_⟩
  all_goals
    obtain ⟨htx, hmsg⟩ := target_bufferWord (m := i / 4) (by omega)
    have hi4 : 4 * (i / 4) + i % 4 = i := Nat.div_add_mod i 4
    have hlt : i % 4 < 4 := Nat.mod_lt i (by omega)
  · rw [busReadValue_mapped htx]
    exact (laneByte_readWord s _ hlt).trans (by rw [Nat.add_assoc, hi4, txByte])
  · rw [busReadValue_mapped hmsg]
    exact (laneByte_readWord s _ hlt).trans (by rw [Nat.add_assoc, hi4, msgByte])

/-! ### Writes -/

theorem busWrite_bad {off : Offset} (h : target off = none) (v : Word) (s : State) :
    busWrite off v s = .done (State.refusedWith .badAddress s) := by
  simp only [busWrite, h, refuse_eq]

theorem busWrite_readOnly {off : Offset} {tg : Target} (h : target off = some tg) (ro : tg.readOnly = true)
    (v : Word) (s : State) : busWrite off v s = .done (State.refusedWith .roWrite s) := by
  simp only [busWrite, h, ro, if_true, refuse_eq]

theorem busWrite_busy {off : Offset} {tg : Target} (h : target off = some tg) (writable : tg.readOnly = false)
    (ctrl : tg ≠ .ctrl) (v : Word) {s : State} (busy : s.status.busy = true) :
    busWrite off v s = .done (State.refusedWith .busyWrite s) := by
  simp [busWrite, h, writable, busy, ctrl, refuse_eq]

/-- A write that no rule refuses: the target is no read-only one, and the machine is idle or the target is CTRL. -/
theorem busWrite_accepted {off : Offset} {tg : Target} (h : target off = some tg) (writable : tg.readOnly = false)
    (v : Word) {s : State} (free : s.status.busy = false ∨ tg = .ctrl) :
    busWrite off v s = writeTarget tg v s := by
  have hfree : (s.status.busy && decide (tg ≠ .ctrl)) = false := by simpa [or_iff_not_imp_left] using free
  simp only [busWrite, h, writable, hfree, Bool.false_eq_true, if_false]

/-- Every write is refused for a cause, or accepted by its target (R43 to R47). -/
theorem busWrite_cases (off : Offset) (v : Word) (s : State) :
    (∃ c, busWrite off v s = .done (State.refusedWith c s)) ∨
    ∃ tg, target off = some tg ∧ busWrite off v s = writeTarget tg v s := by
  cases h : target off with
  | none => exact .inl ⟨_, busWrite_bad h v s⟩
  | some tg =>
    cases ro : tg.readOnly with
    | true => exact .inl ⟨_, busWrite_readOnly h ro v s⟩
    | false =>
      by_cases free : s.status.busy = false ∨ tg = .ctrl
      · exact .inr ⟨tg, rfl, busWrite_accepted h ro v free⟩
      · obtain ⟨hbusy, hctrl⟩ := not_or.1 free
        exact .inl ⟨_, busWrite_busy h ro hctrl v (Bool.not_eq_false _ ▸ hbusy)⟩

/-- A write that no rule refuses is the step that its target makes of it. -/
theorem step_write {off : Offset} {tg : Target} {v : Word} {s t : State} {rest : List Turn}
    (turn : s.agenda = .access (.write off v) :: rest) (h : target off = some tg) (writable : tg.readOnly = false)
    (free : s.status.busy = false ∨ tg = .ctrl) (written : writeTarget tg v { s with agenda := rest } = .done t) :
    step s = .next t :=
  step_access turn ((busWrite_accepted (s := { s with agenda := rest }) h writable v free).trans written)

theorem requestStop_eq (s : State) :
    requestStop s =
      { s with eng := { s.eng with stopReq := s.eng.stopReq || (s.status.busy && s.eng.op == 0x0B) } } := by
  have hstop : (s.status.busy && decide (s.eng.op = opcode .rxloop)) = (s.status.busy && s.eng.op == 0x0B) := rfl
  simp only [requestStop, hstop]
  cases s.status.busy && s.eng.op == 0x0B
  · rw [Bool.or_false]; rfl
  · rw [Bool.or_true]; rfl

/-- What a write to CTRL does, bit by bit (R22, R49, R113). -/
theorem writeCtrl_eq (v : Word) (s : State) :
    writeCtrl v s = { s with
      status := { s.status with
        hostErr := s.status.hostErr && !v.getLsbD 1
        hcause := if v.getLsbD 1 = true then .clear else s.status.hcause }
      eng := { s.eng with
        stopReq := s.eng.stopReq || (v.getLsbD 0 && s.status.busy && s.eng.op == 0x0B) } } := by
  simp only [writeCtrl, requestStop_eq, clearHostErr, Status.cleared]
  cases v.getLsbD 0 <;> cases v.getLsbD 1 <;>
    simp only [Bool.not_true, Bool.not_false, Bool.and_true, Bool.and_false, Bool.true_and, Bool.false_and,
      Bool.or_false, Bool.false_eq_true, if_true, if_false]

/-- Settles O12: CTRL is never refused, and its write is the two bits' effects. -/
theorem ctrlWriteStopsAndClears : Obligations.CtrlWriteStopsAndClears := by
  intro s v rest turn
  refine step_write (tg := .ctrl) turn rfl rfl (.inr rfl) ?_
  rw [writeTarget, writeCtrl_eq]

/-- Settles O8: the targets by their kinds; the four clauses go by the first cause that applies. -/
theorem writesAreRefusedInOrder : Obligations.WritesAreRefusedInOrder := by
  intro s off v rest turn
  have mapped (aligned : off.toNat % 4 = 0) (h : ¬ unmappedOffset off.toNat) : ∃ tg, target off = some tg :=
    Option.ne_none_iff_exists'.1 fun hn => ((target_eq_none_iff off).1 hn).elim (· aligned) h
  refine ⟨fun bad => step_access turn (busWrite_bad ((target_eq_none_iff off).2 bad) v _), fun aligned ro => ?_,
    fun aligned wr busy => ?_, fun hctrl => ?_⟩
  · obtain ⟨tg, htg⟩ := mapped aligned (by omega)
    exact step_access turn (busWrite_readOnly htg ((target_kind htg).1.2 ro) v _)
  · obtain ⟨tg, htg⟩ := mapped aligned (by omega)
    obtain ⟨hro, hctrl⟩ := target_kind htg
    refine step_access turn (busWrite_busy htg ?_ ?_ v busy)
    · rw [← Bool.not_eq_true, hro]; omega
    · rw [Ne, hctrl]; omega
  · subst hctrl
    refine ⟨_, ctrlWriteStopsAndClears s v rest turn, ?_⟩
    cases v.getLsbD 1 <;> simp

/-- An idle write to TXBUF word `m` stores its four bytes (R48, R51). -/
theorem step_writeText {s : State} {m : Nat} {v : Word} {rest : List Turn} (idle : s.status.busy = false)
    (hm : m < 64) (turn : s.agenda = .access (.write (BitVec.ofNat 12 (0x100 + 4 * m)) v) :: rest) :
    step s = .next (writeWord (0x100 + 4 * m) v { s with agenda := rest }) :=
  step_write turn (target_bufferWord hm).1 rfl (.inl idle) rfl

/-- Settles O9: an idle write reaches its register, or the four bytes of its word. -/
theorem idleWriteStoresOperandOrBuffer : Obligations.IdleWriteStoresOperandOrBuffer := by
  intro s v rest idle
  refine ⟨fun turn => step_write (tg := .arg0) turn rfl rfl (.inl idle) rfl,
    fun turn => step_write (tg := .arg1) turn rfl rfl (.inl idle) rfl, fun m hm turn => ?_⟩
  refine ⟨_, step_writeText idle hm turn, rfl, fun b hb => ?_, fun a ha => ?_⟩
  · rw [txByte, txBase, readByte_writeWord, if_pos (by omega), laneByte]
    congr 2; omega
  · rw [readByte_writeWord, if_neg (by omega)]
    rfl

theorem steps_two {s t u : State} (h : step s = .next t) (h' : step t = .next u) : steps 2 s = .next u := by
  simp only [steps, h, h']

/-- Settles O10: the write puts the word in place, and the read, at a mapped offset, records it. -/
theorem bufferWordReadsBack : Obligations.BufferWordReadsBack := by
  intro s m v hm idle turns
  obtain ⟨htx, -⟩ := target_bufferWord hm
  have hwrite := step_writeText idle hm turns
  set w := writeWord (0x100 + 4 * m) v { s with agenda := _ } with hw
  have hread := step_read (s := w) (rest := []) (by simp [hw]) htx
  have hv : readTarget w (.txbuf m) = v := readWord_writeWord (0x100 + 4 * m) v _
  have hreads : w.reads = s.reads := by simp [hw]
  exact ⟨_, steps_two hwrite hread, by simp only [busReadValue_mapped htx, hv, hreads]⟩

/-! ### CMD -/

theorem decodeOpcode_eq_none {op : Byte} (h : op.toNat = 0 ∨ 0x0B < op.toNat) : decodeOpcode op = none := by
  simp only [decodeOpcode]
  split
  case h_12 => rfl
  all_goals omega

/-- A word that R76 makes illegal decodes to no command. -/
theorem decodeWord_illegal {w : Word}
    (h : w.extractLsb' 8 24 ≠ 0 ∨ (w.extractLsb' 0 8).toNat = 0 ∨ 0x0B < (w.extractLsb' 0 8).toNat) :
    ∃ e, decodeWord w = .error e := by
  by_cases hrsv : rsvField w ≠ 0
  · exact ⟨_, if_pos hrsv⟩
  · have hop : decodeOpcode (opField w) = none := decodeOpcode_eq_none (h.resolve_left hrsv)
    exact ⟨.reservedOpcode, by simp only [decodeWord, if_neg hrsv, hop]⟩

/-- The step of a CMD write while idle that is rejected with reason `e` (R50). -/
theorem step_reject {s : State} {w : Word} {rest : List Turn} {e : Err} (idle : s.status.busy = false)
    (turn : s.agenda = .access (.write 0x000 w) :: rest)
    (h : writeCmd w { s with agenda := rest } = .done (rejectCommand e { s with agenda := rest, cmd := w })) :
    step s = .next { s with agenda := rest, cmd := w, status := { s.status with ok := false, err := e } } :=
  step_write (tg := .cmd) turn rfl rfl (.inl idle) h

/-- Settles O11: the opcode check, the operand check, and the issue. -/
theorem cmdWriteRejectsOrIssues : Obligations.CmdWriteRejectsOrIssues := by
  intro s w rest idle turn
  refine ⟨fun illegal => step_reject idle turn ?_, fun i hw illegal => step_reject idle turn ?_, fun i hw legal => ?_⟩
  · obtain ⟨e, he⟩ := decodeWord_illegal illegal
    simp only [writeCmd, he]
  · have hops : operandsAccepted i s.arg0 s.arg1 = false := by
      obtain ⟨rfl | rfl, hlt⟩ := illegal <;> simpa [operandsAccepted, legalOperands] using hlt
    simp [writeCmd, hw, decodeWord_encode, hops]
  · subst hw
    exact step_issue turn idle legal

/-! ### O14: the engine's turn -/

/-- Settles O14: e.op decodes to the command whose opcode it is. -/
theorem engineTurnRunsLatchedCommand : Obligations.EngineTurnRunsLatchedCommand := by
  intro s i busy hop
  have hd : decodeOpcode s.eng.op = some i := hop ▸ decodeOpcode_opcode i
  exact ⟨fun turn => by simp only [step, nextMove, turn, engineMove, busy, hd, if_true],
    fun rest turn => by simp only [step, nextMove, turn, engineMove, busy, hd, if_true]⟩

/-! ### O46: what commands leave of the host's side -/

/-- The registers the host alone writes, the refusal record, the latched command, the parameters and the host's part of
the total order. -/
def State.hostSide (s : State) :
    (Word × Word × Word) × Params × (List Turn × List (Offset × Word) × Nat) × (Bool × HCause) × Byte × Word × Word :=
  ((s.cmd, s.arg0, s.arg1), s.params, (s.agenda, s.reads, s.epoch), (s.status.hostErr, s.status.hcause),
    s.eng.op, s.eng.a0, s.eng.a1)

theorem Writes.hostSide {i : Instr} {s u : State} (w : Writes i s u) :
    u.hostSide = s.hostSide ∧ u.eng.stopReq = s.eng.stopReq := by
  cases w <;> simp [State.hostSide, storeBitdur, storeSpb]

/-- No command touches the host's side, and of the commands RXLOOP alone the stop request, to clear it. -/
theorem Leaves.hostSide {i : Instr} {s t : State} (h : Leaves i s t) :
    t.hostSide = s.hostSide ∧ (t.eng.stopReq = s.eng.stopReq ∨ i = .rxloop ∧ t.eng.stopReq = false) := by
  cases h with
  | goes w ho _ =>
    obtain ⟨hh, hs⟩ := w.hostSide
    exact ⟨(congrArg State.hostSide ho :).trans hh, .inl ((congrArg (·.eng.stopReq) ho :).trans hs)⟩
  | completes w ho _ _ _ ht =>
    subst ht
    obtain ⟨hh, hs⟩ := w.hostSide
    exact ⟨(congrArg State.hostSide ho :).trans hh, .inl ((congrArg (·.eng.stopReq) ho :).trans hs)⟩
  | finishes _ ht => exact ht ▸ ⟨rfl, .inl rfl⟩
  | stops loop ht => exact ht ▸ ⟨rfl, .inr ⟨loop, rfl⟩⟩

/-- Settles O46: what a command leaves, field by field of the host's side. -/
theorem commandsLeaveHostSideAlone : Obligations.CommandsLeaveHostSideAlone := by
  intro i s t hx
  obtain ⟨hh, hs⟩ := (leaves_exec hx).hostSide
  simp only [State.hostSide, Prod.mk.injEq] at hh
  obtain ⟨⟨hcmd, harg0, harg1⟩, hparams, ⟨hagenda, hreads, hepoch⟩, ⟨hherr, hcause⟩, hop, ha0, ha1⟩ := hh
  exact ⟨hcmd, harg0, harg1, hparams, hagenda, hreads, hepoch, hherr, hcause, hop, ha0, ha1, hs⟩

/-! ### O50, O52: the one event of a step, the line and the clock -/

/-- What `Moved` speaks of: the event log, the environment and the line. -/
def State.trace (s : State) : List Event × Env × Bool := (s.events, s.env, s.txLevel)

theorem Moved.of_trace_eq {s t u : State} (h : Moved s t) (ht : u.trace = t.trace) : Moved s u := by
  simp only [State.trace, Prod.mk.injEq] at ht
  obtain ⟨hevents, henv, hline⟩ := ht
  exact h.then hevents henv hline

theorem moved_silent {s t : State} (h : t.trace = s.trace) : Moved s t :=
  (Moved.silent rfl rfl rfl).of_trace_eq h

@[simp] theorem trace_sampleBegin (s : State) : (sampleBegin s).trace = s.trace := by simp [State.trace]

@[simp] theorem trace_writeMsgByte (n : Nat) (b : Byte) (s : State) : (writeMsgByte n b s).trace = s.trace := by
  simp [State.trace]

theorem trace_searchStart (T : Nat) (s : State) : (searchStart T s).state.trace = s.trace := by
  simp only [searchStart, searchBegin]
  split
  · split
    · exact trace_sampleBegin _
    · rfl
  · rfl

theorem trace_byteStart (T : Nat) (s : State) : (byteStart T s).state.trace = s.trace := by
  rw [byteStart, state_byteFromSearch, trace_searchStart]

theorem trace_messageNext (s : State) : (messageNext s).state.trace = s.trace := by
  have h := trace_byteStart s.eng.a1.toNat s
  simp only [messageNext]
  split
  · split <;> rename_i heq <;> simpa [heq] using h
  · rfl

theorem trace_messageByte (b : Byte) (s : State) : (messageByte b s).state.trace = s.trace := by
  have h : (appendByte b s).trace = s.trace := trace_writeMsgByte s.eng.n b s
  simp only [messageByte]
  split
  · exact h
  · rw [trace_messageNext, h]

theorem trace_sendNext (s : State) : (sendNext s).trace = s.trace := by
  simp only [sendNext]; split <;> rfl

theorem trace_calibSampled (v : Half) (s : State) : (calibSampled v s).trace = s.trace := by
  simp only [calibSampled]; split <;> rfl

theorem trace_loopFromByte (r : Run ByteAt ByteResult) : (loopFromByte r).trace = r.state.trace := by
  cases r with
  | here q t => rfl
  | done a t => cases a <;> rfl

/-- A command's first step issues no event and asks nothing of the environment (R66). -/
theorem trace_startState (i : Instr) (s : State) : (startState i s).trace = s.trace := by
  cases i with
  | setbd => simp only [startState]; split <;> rfl
  | setspb | setthr | rxloop => rfl
  | sendbit => simp only [startState, sendbitStart]; split <;> rfl
  | send =>
    simp only [startState, sendStart]
    split
    · exact trace_sendNext _
    · rfl
  | sample =>
    simp only [startState, sampleStart]
    split
    · exact trace_sampleBegin _
    · rfl
  | calib =>
    simp only [startState, calibStart]
    split
    · exact trace_sampleBegin _
    · rfl
  | waitstart =>
    have h := trace_searchStart s.eng.a0.toNat s
    simp only [startState, waitstartStart]
    split <;> rename_i heq <;> rw [heq] at h <;> exact h
  | rxbyte =>
    have h := trace_byteStart s.eng.a0.toNat s
    simp only [startState, rxbyteStart]
    split <;> rename_i heq <;> rw [heq] at h <;> exact h
  | rxmsg =>
    have h := trace_messageNext { s with eng := { s.eng with n := 0 } }
    simp only [startState, rxmsgStart]
    split <;> rename_i heq <;> rw [heq] at h <;> exact h

theorem moved_sendAt (p : SendAt) (s : State) : Moved s (sendAt p s) := by
  cases p with
  | startDrive => exact .drove false rfl rfl rfl
  | dataDrive => exact .drove (dataLevel s.eng.c s.eng.i) rfl rfl rfl
  | stopDrive | idleDrive => exact .drove true rfl rfl rfl
  | startWait | stopWait | idleWait => exact .waited s.bitdur.toNat rfl rfl rfl
  | dataWait => simp only [sendAt]; split <;> exact .waited s.bitdur.toNat rfl rfl rfl
  | gapWait =>
    exact Moved.of_trace_eq (t := waitFor s.bitdur.toNat s) (.waited s.bitdur.toNat rfl rfl rfl) (trace_sendNext _)

theorem moved_calibAt (p : CalAt) (s : State) : Moved s (calibAt p s) := by
  cases p with
  | sampling q =>
    have h := moved_sampleStep q s
    simp only [calibAt]
    split <;> rename_i heq <;> rw [heq] at h
    · exact h.of_trace_eq rfl
    · exact h.of_trace_eq (trace_calibSampled _ _)
  | gapWait =>
    exact Moved.of_trace_eq (t := waitFor s.eng.a1.toNat s) (.waited s.eng.a1.toNat rfl rfl rfl)
      (trace_sampleBegin _)

theorem moved_messageStep (p : ByteAt) (s : State) : Moved s (messageStep p s).state := by
  have h := moved_byteStep s.eng.a1.toNat p s
  simp only [messageStep]
  split <;> rename_i heq <;> rw [heq] at h
  · exact h
  · exact h
  · exact h.of_trace_eq (trace_messageByte _ _)

theorem moved_rxloopAt (p : LoopAt) (s : State) : Moved s (rxloopAt p s) := by
  cases p with
  | check =>
    simp only [rxloopAt, loopCheck]
    split
    · exact .silent rfl rfl rfl
    · exact moved_silent (by rw [trace_loopFromByte, trace_byteStart])
  | byte q => exact (moved_byteStep (loopTimeout s) q s).of_trace_eq (trace_loopFromByte _)
  | emit =>
    simp only [rxloopAt]
    split
    · exact .emitted s.eng.acc rfl rfl rfl
    · exact .declined rfl rfl rfl
  | backoff => exact .waited s.polldly.toNat rfl rfl rfl

theorem moved_advance (p : Point) (s : State) : Moved s (advance p s) := by
  cases p with
  | idle | finish c => exact .silent rfl rfl rfl
  | sendbit q =>
    cases q with
    | drive => exact .drove (bitLevel s.eng.a0) rfl rfl rfl
    | wait => exact .waited s.bitdur.toNat rfl rfl rfl
  | send q => exact moved_sendAt q s
  | sample q =>
    have h := moved_sampleStep q s
    simp only [advance, sampleAt]
    split <;> rename_i heq <;> rw [heq] at h <;> exact h.of_trace_eq rfl
  | calib q => exact moved_calibAt q s
  | waitstart q =>
    have h := moved_searchStep s.eng.a0.toNat q s
    simp only [advance, waitstartAt]
    split <;> rename_i heq <;> rw [heq] at h <;> exact h.of_trace_eq rfl
  | rxbyte q =>
    have h := moved_byteStep s.eng.a0.toNat q s
    simp only [advance, rxbyteAt]
    split <;> rename_i heq <;> rw [heq] at h <;> exact h.of_trace_eq rfl
  | rxmsg q =>
    have h := moved_messageStep q s
    simp only [advance, rxmsgAt]
    split <;> rename_i heq <;> rw [heq] at h <;> exact h.of_trace_eq rfl
  | rxloop q => exact moved_rxloopAt q s

/-- Every atomic step of a command is at most one event, with the environment's answer to it (R66). -/
theorem moved_exec {i : Instr} {s t : State} (h : exec i s = .next t) : Moved s t := by
  obtain he | he := exec_cases i s <;> rw [he] at h <;> cases h
  · exact moved_silent (trace_startState i s)
  · exact moved_advance _ s

/-- Settles O50: the kinds of `Moved`, of which the drive alone touches the line. -/
theorem oneEventPerStepAndLineFollowsDrive : Obligations.OneEventPerStepAndLineFollowsDrive := by
  intro i s t hx
  cases moved_exec hx with
  | silent he _ hl => exact .inl ⟨he, hl⟩
  | declined he _ hl => exact .inl ⟨he, hl⟩
  | drove l he _ hl => exact .inr ⟨.drive l, he, by rintro _ ⟨⟩; exact hl, fun h => absurd rfl (h l)⟩
  | waited us he _ hl => exact .inr ⟨.wait us, he, by simp, fun _ => hl⟩
  | sampled he _ hl => exact .inr ⟨_, he, by simp, fun _ => hl⟩
  | clocked he _ hl => exact .inr ⟨_, he, by simp, fun _ => hl⟩
  | emitted b he _ hl => exact .inr ⟨.emit b, he, by simp, fun _ => hl⟩

@[simp] theorem clock_afterSample (e : Env) : e.afterSample.clock = e.clock := by
  simp only [Env.afterSample]; split <;> rfl

@[simp] theorem clock_afterOffer (e : Env) : e.afterOffer.clock = e.clock := by
  simp only [Env.afterOffer]; split <;> rfl

@[simp] theorem clock_afterClock (e : Env) : e.afterClock.clock = e.clock + clockAdvance e := by
  simp only [Env.afterClock, clockAdvance]; split <;> rfl

/-- The clock never goes back, and `Now` returns it modulo 2^32 (R62). -/
theorem Moved.clock {s t : State} (h : Moved s t) :
    s.env.clock ≤ t.env.clock ∧ ∀ m, t.events = s.events ++ [.now m] → m = BitVec.ofNat 32 t.env.clock := by
  cases h with
  | silent he hv _ | drove _ he hv _ | waited _ he hv _ | sampled he hv _ | emitted _ he hv _ | declined he hv _ =>
    simp [he, hv]
  | clocked he hv _ => simp [he, hv, clockValue, eq_comm]

/-- A turn that runs no command asks nothing of the environment (log 21). -/
theorem env_of_settled {s t : State} (h : nextMove s = .settled t) : t.env = s.env := by
  obtain ⟨rest, rfl⟩ | ⟨rest, rfl⟩ | ⟨rest, next, u, ha, rfl⟩ := settled_cases h
  · rfl
  · rfl
  · cases ha with
    | ctrl v => rw [writeCtrl_eq]
    | read | badRead | refused | rejected | arg0 | arg1 => rfl
    | text => simp

/-- Settles O52: a settled turn leaves clock and events alone, and a command's step is a `Moved`. -/
theorem clockReadingsAreMonotone : Obligations.ClockReadingsAreMonotone := by
  intro s t hst
  obtain hm | ⟨i, u, hm, hx⟩ := step_cases hst
  · simp [env_of_settled hm, (nextMove_settled hm).2]
  · obtain ⟨rest, -, -, rfl⟩ | ⟨w, rest, -, -, -, -, rfl⟩ := nextMove_run hm <;> exact (moved_exec hx).clock

/-! ### O53: what host accesses leave of the engine's side -/

/-- The state with what a host access other than a CMD write may change blanked out: ARG0, ARG1, the refusal record,
the buffers, the stop request and the values read. -/
def State.engineSide (s : State) : State :=
  { s with
    arg0 := 0
    arg1 := 0
    status := { s.status with hostErr := false, hcause := .clear }
    mem := []
    eng := { s.eng with stopReq := false }
    reads := [] }

theorem engineSide_refusedWith (c : HCause) (s : State) : (State.refusedWith c s).engineSide = s.engineSide := by
  simp only [State.refusedWith]; split <;> rfl

/-- No access but a CMD write touches the engine's side (R56). -/
theorem engineSide_access {a : Access} {s t : State} (h : access a s = .done t) (other : ∀ w, a ≠ .write 0x000 w) :
    t.engineSide = s.engineSide := by
  cases a with
  | read off =>
    cases h
    simp only [busRead]
    split
    · rfl
    · rw [refuse_eq, engineSide_refusedWith]; rfl
  | write off v =>
    rw [access] at h
    obtain ⟨c, hc⟩ | ⟨tg, htg, hw⟩ := busWrite_cases off v s
    · rw [hc] at h
      cases h
      exact engineSide_refusedWith c s
    · rw [hw] at h
      cases tg with
      | cmd => exact absurd (by rw [target_cmd htg]) (other v)
      | ctrl => cases h; rw [writeCtrl_eq]; rfl
      | arg0 | arg1 | status | result | msglen | bitdur | thresh | spb | spacing | polldly | caps | txbuf m
        | msgbuf m => cases h; rfl

/-- No access writes MSGBUF (R44). -/
theorem Accessed.msgByte {s t : State} (h : Accessed s t) (i : Nat) : msgByte t i = msgByte s i := by
  cases h with
  | ctrl v => rw [writeCtrl_eq]; rfl
  | text m v hm _ =>
    rw [Machine.msgByte, readByte_writeWord, if_neg (by simp only [txBase, msgBase]; omega)]
    rfl
  | read | badRead | refused | rejected | arg0 | arg1 => rfl

/-- Settles O53: the access issues no command, and of the engine's side nothing changes. -/
theorem hostAccessesLeaveEngineAlone : Obligations.HostAccessesLeaveEngineAlone := by
  intro s t a rest turn hst other
  cases ha : access a { s with agenda := rest } with
  | issued i u =>
    obtain ⟨w, hw, -⟩ := access_issues ha
    exact absurd hw (other w)
  | done u =>
    rw [step_access turn ha] at hst
    cases hst
    have h := engineSide_access ha other
    exact ⟨(congrArg State.events h :), (congrArg State.txLevel h :), (congrArg State.env h :),
      (congrArg State.bitdur h :), (congrArg State.thresh h :), (congrArg State.spb h :),
      (congrArg State.spacing h :), (congrArg State.polldly h :), (congrArg State.result h :),
      (congrArg State.msglen h :), (congrArg State.cmd h :), (congrArg State.params h :),
      (congrArg (·.status.busy) h :), (congrArg (·.status.ok) h :), (congrArg (·.status.err) h :),
      (congrArg (fun v : State => { v.eng with stopReq := t.eng.stopReq }) h :),
      fun i => (accessed_of_access ha).msgByte i, (congrArg State.agenda h :)⟩

/-! ### O59: TXBUF while a command runs -/

/-- While a command runs no access writes a buffer byte (R45, R70). -/
theorem Accessed.readByte_of_busy {s t : State} (h : Accessed s t) (busy : s.status.busy = true) (a : Nat) :
    readByte t a = readByte s a := by
  cases h with
  | ctrl v => rw [writeCtrl_eq]; rfl
  | text m v _ idle => simp [busy] at idle
  | read | badRead | refused | rejected | arg0 | arg1 => rfl

/-- While a command runs no settled turn but a reset changes a buffer byte. -/
theorem readByte_of_settled {s t : State} (busy : s.status.busy = true) (noReset : ∀ rest, s.agenda ≠ .reset :: rest)
    (h : nextMove s = .settled t) (a : Nat) : readByte t a = readByte s a := by
  simp only [nextMove] at h
  split at h
  · rw [eq_of_engineMove_settled h]
  · rw [eq_of_engineMove_settled h]; rfl
  · rename_i acc rest _
    simp only [accessMove] at h
    split at h <;> cases h
    have ha := accessed_of_access (s := { s with agenda := rest }) ‹_›
    exact ha.readByte_of_busy busy a
  · rename_i rest _
    cases h
    have ha := (accessed_busRead 0x010 { s with agenda := rest }).readByte_of_busy busy a
    simp only [pollRound]
    split <;> exact ha
  · exact absurd ‹_› (noReset _)

/-- No command writes a byte below MSGBUF (R34, R109). -/
theorem readByte_exec {i : Instr} {s t : State} (hx : exec i s = .next t) {a : Nat} (ha : a < 0x200) :
    readByte t a = readByte s a := by
  obtain ⟨others, message⟩ := commandsWriteOnlyMessageBytes i s t hx
  by_cases hi : i = .rxmsg
  · exact (message hi).1 a (by omega)
  · exact others hi a

/-- Settles O59: writes to TXBUF are refused while BUSY, and no command writes there. -/
theorem transmitBufferIsStableWhileBusy : Obligations.TransmitBufferIsStableWhileBusy := by
  intro s t _ busy noReset hst i hi
  obtain hm | ⟨j, u, hm, hx⟩ := step_cases hst
  · exact readByte_of_settled busy noReset hm _
  · obtain ⟨rest, -, -, rfl⟩ | ⟨w, rest, -, idle, -⟩ := nextMove_run hm
    · exact readByte_exec hx (by simp only [txBase]; omega)
    · simp [busy] at idle

end Sys2Proof.Machine

/-! The statements of the encoding family: command words and their bytes (R72, R74, R76), and the words in which TXLOAD
stores a string (R81). A word is read by its two fields, a byte list by its words, a run of writes by the words it
stores. -/

namespace Sys2Proof.Machine

/-! ### Command words -/

/-- A command word is its RSV field over its OP field (R72). -/
theorem toNat_eq_fields (w : Word) : w.toNat = 256 * (rsvField w).toNat + (opField w).toNat := by
  simp only [rsvField, opField, BitVec.extractLsb'_toNat, Nat.shiftRight_eq_div_pow]
  omega

/-- A word is command `i`'s exactly when its RSV field is 0 and its OP field is the command's opcode (R74). -/
theorem eq_encode_iff (w : Word) (i : Instr) : w = encode i ↔ rsvField w = 0 ∧ opField w = opcode i := by
  constructor
  · rintro rfl
    exact ⟨by cases i <;> rfl, opField_encode i⟩
  · rintro ⟨hrsv, hop⟩
    apply BitVec.eq_of_toNat_eq
    rw [toNat_eq_fields w, hrsv, hop, encode, BitVec.toNat_setWidth_of_le (by omega)]
    simp

/-- The opcode map finds command `i` at its own opcode alone (R74). -/
theorem decodeOpcode_eq_some_iff (op : Byte) (i : Instr) : decodeOpcode op = some i ↔ op = opcode i := by
  constructor
  · intro h
    simp only [decodeOpcode] at h
    split at h <;> cases h <;> exact BitVec.eq_of_toNat_eq ‹_›
  · rintro rfl
    exact decodeOpcode_opcode i

/-- Decoding a word inverts encoding a command. -/
theorem decodeWord_eq_ok_iff (w : Word) (i : Instr) : decodeWord w = .ok i ↔ w = encode i := by
  constructor
  · intro h
    have hrsv : rsvField w = 0 := by
      by_contra hne
      simp only [decodeWord, if_pos hne, reduceCtorEq] at h
    exact (eq_encode_iff w i).2 ⟨hrsv, (decodeOpcode_eq_some_iff _ i).1 (decodeOpcode_of_decodeWord h)⟩
  · rintro rfl
    exact decodeWord_encode i

theorem legalCommand_iff (w : Word) : legalCommand w = true ↔ ∃ i, decodeWord w = .ok i := by
  cases h : decodeWord w <;> simp [legalCommand, h]

/-- The eleven commands' words are the numbers 1 to 11 (R74). -/
theorem exists_eq_encode_iff (w : Word) : (∃ i, w = encode i) ↔ 1 ≤ w.toNat ∧ w.toNat ≤ 11 := by
  constructor
  · rintro ⟨i, rfl⟩
    cases i <;> decide
  · rintro ⟨lo, hi⟩
    have hw := toNat_eq_fields w
    have hrsv : rsvField w = 0 := BitVec.eq_of_toNat_eq (show _ = 0 by omega)
    cases hd : decodeOpcode (opField w) with
    | some i => exact ⟨i, (eq_encode_iff w i).2 ⟨hrsv, (decodeOpcode_eq_some_iff _ i).1 hd⟩⟩
    | none =>
      simp only [decodeOpcode] at hd
      split at hd
      case h_12 => simp only [imp_false] at *; omega
      all_goals cases hd

/-- Settles O2: the words that decode are the commands' own, and those are the numbers 1 to 11. -/
theorem legalWordsAreTheElevenOpcodes : Obligations.LegalWordsAreTheElevenOpcodes := by
  refine ⟨fun w => ?_, decodeWord_eq_ok_iff⟩
  simp only [legalCommand_iff, decodeWord_eq_ok_iff, exists_eq_encode_iff]

/-- Settles O1: eleven words are the commands' own, and the three others fall to the opcode map or the RSV check. -/
theorem commandWordsDecode : Obligations.CommandWordsDecode :=
  ⟨decodeWord_encode .setbd, decodeWord_encode .setspb, decodeWord_encode .setthr, decodeWord_encode .sendbit,
    decodeWord_encode .send, decodeWord_encode .sample, decodeWord_encode .calib, decodeWord_encode .waitstart,
    decodeWord_encode .rxbyte, decodeWord_encode .rxmsg, decodeWord_encode .rxloop, by decide, by decide, by decide⟩

/-! ### Command bytes -/

/-- Four bytes make a word exactly when they are the word's bytes (R51). -/
theorem wordOfBytes_eq_iff (b0 b1 b2 b3 : Byte) (w : Word) :
    wordOfBytes b0 b1 b2 b3 = w ↔ [b0, b1, b2, b3] = bytesOfWord w := by
  constructor
  · rintro rfl
    obtain ⟨h0, h1, h2, h3⟩ := laneByte_wordOfBytes b0 b1 b2 b3
    rw [bytesOfWord, h0, h1, h2, h3]
  · intro h
    simp only [bytesOfWord, List.cons.injEq, and_true] at h
    obtain ⟨rfl, rfl, rfl, rfl⟩ := h
    exact wordOfBytes_laneByte w

/-- Four bytes or more decode as their first word does, and leave the bytes after it (R72). -/
theorem decodeBytes_cons_eq_ok_iff (b0 b1 b2 b3 : Byte) (tail rest : List Byte) (i : Instr) :
    decodeBytes (b0 :: b1 :: b2 :: b3 :: tail) = .ok (i, rest) ↔
      decodeWord (wordOfBytes b0 b1 b2 b3) = .ok i ∧ tail = rest := by
  cases h : decodeWord (wordOfBytes b0 b1 b2 b3) <;> simp [decodeBytes, h]

/-- Fewer than four bytes are no command word (R72). -/
theorem decodeBytes_short {bytes : List Byte} (h : bytes.length < 4) : decodeBytes bytes = .error .truncated := by
  match bytes, h with
  | [], _ | [_], _ | [_, _], _ | [_, _, _], _ => rfl

/-- Settles O3: a list with a whole word in front is decoded by that word, whose bytes are then the command's; a
shorter list is neither decoded nor long enough. -/
theorem decodeAndEncodeAgreeOnBytes : Obligations.DecodeAndEncodeAgreeOnBytes := by
  intro bytes rest i
  by_cases short : bytes.length < 4
  · rw [decodeBytes_short short]
    refine iff_of_false (by simp) ?_
    rintro rfl
    simp only [encodeBytes, bytesOfWord, List.length_append, List.length_cons] at short
    omega
  · match bytes, short with
    | b0 :: b1 :: b2 :: b3 :: tail, _ =>
      calc decodeBytes (b0 :: b1 :: b2 :: b3 :: tail) = .ok (i, rest)
        _ ↔ decodeWord (wordOfBytes b0 b1 b2 b3) = .ok i ∧ tail = rest := decodeBytes_cons_eq_ok_iff ..
        _ ↔ [b0, b1, b2, b3] = encodeBytes i ∧ tail = rest := by
          rw [decodeWord_eq_ok_iff, wordOfBytes_eq_iff, encodeBytes]
        _ ↔ [b0, b1, b2, b3] ++ tail = encodeBytes i ++ rest :=
          ⟨fun ⟨hb, ht⟩ => hb ▸ ht ▸ rfl, fun h => List.append_inj h rfl⟩
    | [], h | [_], h | [_, _], h | [_, _, _], h => simp at h

/-! ### TXLOAD -/

/-- A string takes as many words as cover it (R81). -/
theorem length_packWords (bytes : List Byte) : (packWords bytes).length = (bytes.length + 3) / 4 := by
  induction bytes using packWords.induct with
  | case1 | case2 | case3 | case4 => simp [packWords]
  | case5 a b c d rest ih =>
    simp only [packWords, List.length_cons, ih]
    omega

/-- The bytes of a list of words are those of its first word, then those of the rest (R51). -/
theorem laneByte_cons (b0 b1 b2 b3 : Byte) {ws : List Word} {tail : List Byte}
    (h : ∀ i : Nat, laneByte (ws.getD (i / 4) 0) (i % 4) = tail.getD i 0) (i : Nat) :
    laneByte ((wordOfBytes b0 b1 b2 b3 :: ws).getD (i / 4) 0) (i % 4) = (b0 :: b1 :: b2 :: b3 :: tail).getD i 0 := by
  obtain ⟨h0, h1, h2, h3⟩ := laneByte_wordOfBytes b0 b1 b2 b3
  match i with
  | 0 => exact h0
  | 1 => exact h1
  | 2 => exact h2
  | 3 => exact h3
  | j + 4 =>
    rw [Nat.add_div_right j (by omega), Nat.add_mod_right]
    exact h j

/-- Byte `i` of the words is byte `i` of the string, and 0 beyond it (R81, R51). -/
theorem laneByte_packWords (bytes : List Byte) (i : Nat) :
    laneByte ((packWords bytes).getD (i / 4) 0) (i % 4) = bytes.getD i 0 := by
  have empty (j : Nat) : laneByte (([] : List Word).getD (j / 4) 0) (j % 4) = ([] : List Byte).getD j 0 := by
    simp [laneByte]
  induction bytes using packWords.induct generalizing i with
  | case1 => rw [packWords, empty]
  | case2 | case3 | case4 =>
    rw [packWords, laneByte_cons _ _ _ _ empty]
    match i with
    | 0 | 1 | 2 | 3 | _ + 4 => rfl
  | case5 a b c d rest ih => rw [packWords, laneByte_cons a b c d ih]

/-- What a run of writes of `ws` to TXBUF, from word `m` on, leaves: the words' bytes in their lanes, and everything
else as it was (R48). -/
theorem steps_storeWords (ws : List Word) {m : Nat} {s : State} (idle : s.status.busy = false)
    (fits : m + ws.length ≤ 64) (turns : s.agenda = storeWords (0x100 + 4 * m) ws) :
    ∃ t, steps ws.length s = .next t ∧
      (∀ i : Nat, i < 4 * ws.length → readByte t (0x100 + 4 * m + i) = laneByte (ws.getD (i / 4) 0) (i % 4)) ∧
      (∀ a : Nat, a < 0x100 + 4 * m ∨ 0x100 + 4 * m + 4 * ws.length ≤ a → readByte t a = readByte s a) ∧
      t = { s with agenda := [], mem := t.mem } := by
  induction ws generalizing m s with
  | nil =>
    simp only [storeWords] at turns
    exact ⟨s, rfl, by simp, fun _ _ => rfl, by rw [← turns]⟩
  | cons w ws ih =>
    rw [List.length_cons] at fits ⊢
    have hstep := step_writeText idle (by omega) turns
    obtain ⟨t, hrun, stored, others, rest⟩ :=
      ih (m := m + 1) (s := writeWord (0x100 + 4 * m) w { s with agenda := storeWords (0x100 + 4 * m + 4) ws })
        idle (by omega) rfl
    refine ⟨t, by simp only [steps, hstep, hrun], fun i hi => ?_, fun a ha => ?_, by simpa using rest⟩
    · by_cases first : i < 4
      · rw [others _ (by omega), readByte_writeWord, if_pos (by omega), Nat.add_sub_cancel_left,
          Nat.div_eq_of_lt first, Nat.mod_eq_of_lt first]
        rfl
      · obtain ⟨j, rfl⟩ : ∃ j, i = j + 4 := ⟨i - 4, by omega⟩
        have haddr : 0x100 + 4 * m + (j + 4) = 0x100 + 4 * (m + 1) + j := by omega
        rw [haddr, stored j (by omega), Nat.add_div_right j (by omega), Nat.add_mod_right]
        rfl
    · rw [others a (by omega), readByte_writeWord, if_neg (by omega)]
      rfl

/-- Settles O45: the writes store the packed words, whose bytes are the string and zeros after it. -/
theorem txloadFillsTransmitBuffer : Obligations.TxloadFillsTransmitBuffer := by
  intro s bytes idle short turns
  have hlen := length_packWords bytes
  obtain ⟨t, hrun, stored, others, rest⟩ :=
    steps_storeWords (packWords bytes) (m := 0) idle (by omega) turns
  rw [hlen] at hrun stored others
  have text (i : Nat) (hi : i < 4 * ((bytes.length + 3) / 4)) : txByte t i = bytes.getD i 0 :=
    (stored i hi).trans (laneByte_packWords bytes i)
  refine ⟨t, hrun, fun i hi => ?_, fun i lo hi => ?_, fun a ha => others a (.inr ha), rest⟩
  · rw [text i (by omega), List.getD_eq_getElem _ _ hi]
  · rw [text i hi, List.getD_eq_default _ _ lo]

end Sys2Proof.Machine

/-! The statements of the configuration family: SETBD, SETSPB and SETTHR complete in their issuing step (R82, R85 to
R87), and no other turn changes the registers that a running command was issued under (R88). -/

namespace Sys2Proof.Machine

/-! ### O60: what a running command was issued under -/

/-- The state with what a settled turn may change while a command runs blanked out: the refusal record, the stop
request, the values read and the turns to come. -/
def State.heldSide (s : State) : State :=
  { s with
    status := { s.status with hostErr := false, hcause := .clear }
    eng := { s.eng with stopReq := false }
    reads := []
    agenda := [] }

theorem heldSide_refusedWith (c : HCause) (s : State) : (State.refusedWith c s).heldSide = s.heldSide := by
  simp only [State.refusedWith]; split <;> rfl

theorem heldSide_busRead (off : Offset) (s : State) : (busRead off s).heldSide = s.heldSide := by
  simp only [busRead]
  split
  · rfl
  · rw [refuse_eq, heldSide_refusedWith]; rfl

/-- While a command runs every write is refused for a cause, or is one to CTRL (R45, R47). -/
theorem busWrite_cases_of_busy (off : Offset) (v : Word) {s : State} (busy : s.status.busy = true) :
    (∃ c, busWrite off v s = .done (State.refusedWith c s)) ∨ busWrite off v s = .done (writeCtrl v s) := by
  cases h : target off with
  | none => exact .inl ⟨_, busWrite_bad h v s⟩
  | some tg =>
    by_cases ctrl : tg = .ctrl
    · subst ctrl
      exact .inr (busWrite_accepted h rfl v (.inr rfl))
    cases ro : tg.readOnly with
    | true => exact .inl ⟨_, busWrite_readOnly h ro v s⟩
    | false => exact .inl ⟨_, busWrite_busy h ro ctrl v busy⟩

/-- While a command runs no access touches its held side: not CMD, not ARG0, not ARG1 (R45). -/
theorem heldSide_access {a : Access} {s t : State} (busy : s.status.busy = true) (h : access a s = .done t) :
    t.heldSide = s.heldSide := by
  cases a with
  | read off => cases h; exact heldSide_busRead off s
  | write off v =>
    rw [access] at h
    obtain ⟨c, hw⟩ | hw := busWrite_cases_of_busy off v busy <;> rw [hw] at h <;> cases h
    · exact heldSide_refusedWith c s
    · rw [writeCtrl_eq]; rfl

/-- While a command runs no settled turn but a reset touches its held side. -/
theorem heldSide_settled {s t : State} (busy : s.status.busy = true) (noReset : ∀ rest, s.agenda ≠ .reset :: rest)
    (h : nextMove s = .settled t) : t.heldSide = s.heldSide := by
  simp only [nextMove] at h
  split at h
  case h_1 => rw [eq_of_engineMove_settled h]
  case h_2 => rw [eq_of_engineMove_settled h]; rfl
  case h_3 a rest _ =>
    simp only [accessMove] at h
    split at h <;> cases h
    exact heldSide_access (s := { s with agenda := rest }) busy ‹_›
  case h_4 rest _ =>
    cases h
    have ha := heldSide_busRead 0x010 { s with agenda := rest }
    simp only [pollRound]
    split <;> exact ha
  case h_5 => exact absurd ‹_› (noReset _)

/-- The engine stands inside no configuration command, which has no step after its first (R82). -/
theorem Point.not_configuration_of_within {p : Point} {i : Instr} (h : p.within i) :
    i ≠ .setbd ∧ i ≠ .setspb ∧ i ≠ .setthr := by
  cases p with
  | idle => exact h.elim
  | finish c =>
    obtain ⟨-, -, hbd, hspb, hthr, -⟩ := h
    exact ⟨hbd, hspb, hthr⟩
  | sendbit | send | sample | calib | waitstart | rxbyte | rxmsg | rxloop =>
    cases (show i = _ from h)
    simp

/-- A step of a running command leaves the configuration alone, THRESH but for CALIB (R88, R98). -/
theorem configuration_exec_of_running {i : Instr} {s t : State} (inv : s.Inv) (busy : s.status.busy = true)
    (hd : decodeOpcode s.eng.op = some i) (hx : exec i s = .next t) :
    t.bitdur = s.bitdur ∧ t.spb = s.spb ∧ t.spacing = s.spacing ∧ t.polldly = s.polldly ∧
    (t.thresh = s.thresh ∨ s.eng.op = 0x07) := by
  obtain ⟨hbd, hspb, hthr⟩ := Point.not_configuration_of_within (within_of_running inv busy hd)
  obtain ⟨bitdur, spb, thresh, delays⟩ := configurationHasItsWriters i s t hx
  obtain ⟨spacing, polldly⟩ := delays hbd hspb
  refine ⟨bitdur hbd, spb hspb, spacing, polldly, ?_⟩
  by_cases calib : i = .calib
  · subst calib
    exact .inr (eq_opcode_of_decodeOpcode hd)
  · exact .inl (thresh hthr calib)

/-- Settles O60: a settled turn leaves the held side alone, and the running command writes no register but, when it is
CALIB, THRESH. -/
theorem runningCommandKeepsItsConfiguration : Obligations.RunningCommandKeepsItsConfiguration := by
  intro s t inv busy noReset hst
  obtain hm | ⟨i, u, hm, hx⟩ := step_cases hst
  · have h := heldSide_settled busy noReset hm
    exact ⟨(congrArg State.cmd h :), (congrArg State.arg0 h :), (congrArg State.arg1 h :),
      (congrArg (·.eng.op) h :), (congrArg (·.eng.a0) h :), (congrArg (·.eng.a1) h :),
      (congrArg State.bitdur h :), (congrArg State.spb h :), (congrArg State.spacing h :),
      (congrArg State.polldly h :), .inl (congrArg State.thresh h :)⟩
  · obtain ⟨rest, -, hd, rfl⟩ | ⟨w, rest, -, idle, -⟩ := nextMove_run hm
    · obtain ⟨hcmd, harg0, harg1, -, -, -, -, -, -, hop, ha0, ha1, -⟩ := commandsLeaveHostSideAlone i _ t hx
      exact ⟨hcmd, harg0, harg1, hop, ha0, ha1,
        configuration_exec_of_running (s := { s with agenda := rest }) (inv.withAgenda rest) busy hd hx⟩
    · simp [busy] at idle

/-! ### O19 to O21: the configuration commands -/

/-- Saturation stores the operand up to the largest value a 16-bit register holds (R86, R87). -/
theorem toNat_saturate16 (n : Word) : (saturate16 n).toNat = min n.toNat 65535 := by
  simp only [saturate16]
  split
  · rw [Nat.min_eq_right (by omega)]; rfl
  · rw [BitVec.toNat_ofNat]; omega

theorem toNat_spbOf (n : Word) : (spbOf n).toNat = if n.toNat = 0 then 1 else min n.toNat 65535 := by
  by_cases zero : n = 0
  · subst zero; rfl
  · have pos : n.toNat ≠ 0 := fun h => zero (BitVec.eq_of_toNat_eq h)
    rw [spbOf, if_neg zero, if_neg pos, toNat_saturate16]

/-- Settles O19: the operand decides between the no-op and the store, and RecomputeTiming is R83's. -/
theorem setbdStoresAndRecomputes : Obligations.SetbdStoresAndRecomputes := by
  refine ⟨decodeWord_encode .setbd, rfl, fun s => ⟨fun zero => ?_, fun pos => ?_⟩⟩
  · simp only [exec, execSetbd, if_pos zero]; rfl
  · simp only [exec, execSetbd, if_neg pos]; rfl

/-- Settles O20: the value stored is the coerced operand. -/
theorem setspbCoercesAndRecomputes : Obligations.SetspbCoercesAndRecomputes :=
  ⟨decodeWord_encode .setspb, rfl, fun s => ⟨spbOf s.eng.a0, toNat_spbOf _, rfl⟩⟩

/-- Settles O21: the value stored is the saturated operand. -/
theorem setthrSaturates : Obligations.SetthrSaturates :=
  ⟨decodeWord_encode .setthr, rfl, fun s => ⟨saturate16 s.eng.a0, toNat_saturate16 _, rfl⟩⟩

/-! ### O13: completion in the issuing step -/

/-- A configuration command's one step is its completion, after its writes to the configuration (R82). -/
theorem exec_configuration {i : Instr} (h : i = .setbd ∨ i = .setspb ∨ i = .setthr) (s : State) :
    ∃ u, exec i s = .next (State.completed true .noError u) ∧ u.events = s.events ∧ u.agenda = s.agenda := by
  obtain rfl | rfl | rfl := h
  · obtain ⟨-, -, h⟩ := setbdStoresAndRecomputes
    obtain ⟨zero, pos⟩ := h s
    by_cases ha : s.eng.a0 = 0
    · exact ⟨s, zero ha, rfl, rfl⟩
    · exact ⟨_, pos ha, rfl, rfl⟩
  · obtain ⟨-, -, h⟩ := setspbCoercesAndRecomputes
    obtain ⟨n, -, hx⟩ := h s
    exact ⟨_, hx, rfl, rfl⟩
  · obtain ⟨-, -, h⟩ := setthrSaturates
    obtain ⟨v, -, hx⟩ := h s
    exact ⟨_, hx, rfl, rfl⟩

/-- Settles O13: the CMD write issues the command, whose operands are always legal, and the command's one step is its
completion. -/
theorem configurationCommandsAreAtomic : Obligations.ConfigurationCommandsAreAtomic := by
  intro s i rest hi idle turn
  obtain ⟨u, hx, events, agenda⟩ := exec_configuration hi (State.issued i { s with agenda := rest })
  have legal : ¬ ((i = .send ∨ i = .rxmsg) ∧ 256 < s.arg0.toNat) := by
    obtain rfl | rfl | rfl := hi <;> simp
  exact ⟨_, (step_issue turn idle legal).trans hx, hx, rfl, rfl, rfl, events, agenda⟩

end Sys2Proof.Machine

/-! The statements of the transmit family: SENDBIT and SEND one atomic step at a time and over a whole run (R89 to R92),
and a sent byte received through a simulated channel (V-SRC-2). A run that no turn disturbs is followed from one state
written out to the next, with the events it has issued so far: a bit is two steps, a frame ten bits and a gap. -/

namespace Sys2Proof.Machine

/-! ### O22, O23: one atomic step at a time -/

/-- At a place of its command the engine makes the step of that place. -/
theorem exec_of_place {i : Instr} {s : State} {p : Point} (place : s.eng.point = p) (within : p.within i) :
    exec i s = .next (advance p s) := by
  subst place
  exact exec_of_within within

theorem txPresent_eq_false {p : Params} (absent : p.txPin = none) : ¬ p.txPresent = true := by
  simp [txPresent_iff, absent]

/-- Without a transmit pin SENDBIT is a no-op that completes at once (R90). -/
theorem exec_sendbit_of_absent {s : State} (idle : s.eng.point = .idle) (absent : s.params.txPin = none) :
    exec .sendbit s = .next (State.completed true .noError s) := by
  rw [exec_of_idle .sendbit idle, startState, sendbitStart, if_neg (txPresent_eq_false absent)]
  rfl

/-- Without a transmit pin SEND is a no-op that completes at once (R91, log 5). -/
theorem exec_send_of_absent {s : State} (idle : s.eng.point = .idle) (absent : s.params.txPin = none) :
    exec .send s = .next (State.completed true .noError s) := by
  rw [exec_of_idle .send idle, startState, sendStart, if_neg (txPresent_eq_false absent)]
  rfl

/-- With a transmit pin SEND starts at the head of its byte loop (R91). -/
theorem exec_send_of_present {s : State} (idle : s.eng.point = .idle) (present : s.params.txPin ≠ none) :
    exec .send s = .next (sendNext { s with eng := { s.eng with phase := .tx, j := 0 } }) := by
  rw [exec_of_idle .send idle, startState, sendStart, if_pos ((txPresent_iff _).2 present)]

/-- Before byte ARG0 the head of SEND's loop latches the byte (R91). -/
theorem sendNext_of_lt {s : State} (more : s.eng.j < s.eng.a0.toNat) :
    sendNext s = State.standing (.send .startDrive) { s with eng := { s.eng with c := txByte s s.eng.j } } :=
  if_pos more

/-- After the last byte the head of SEND's loop goes to the final idle-high bit (R91). -/
theorem sendNext_of_le {s : State} (last : s.eng.a0.toNat ≤ s.eng.j) :
    sendNext s = State.standing (.send .idleDrive) s :=
  if_neg (Nat.not_lt.2 last)

/-- After data bits 0 to 6 the next data bit is due (R91). -/
theorem exec_send_dataWait_of_lt {s : State} (place : s.eng.point = .send .dataWait) (more : s.eng.i < 7) :
    exec .send s = .next (State.standing (.send .dataDrive)
      (State.waited s.bitdur.toNat { s with eng := { s.eng with i := s.eng.i + 1 } })) := by
  have next : s.eng.i + 1 < dataBits := Nat.succ_lt_succ more
  rw [exec_of_place place rfl, advance, sendAt, if_pos next]
  rfl

/-- After data bit 7 the stop bit is due (R91). -/
theorem exec_send_dataWait_of_le {s : State} (place : s.eng.point = .send .dataWait) (last : 7 ≤ s.eng.i) :
    exec .send s = .next (State.standing (.send .stopDrive) (State.waited s.bitdur.toNat s)) := by
  have none_left : ¬ s.eng.i + 1 < dataBits := Nat.not_lt.2 (Nat.succ_le_succ last)
  rw [exec_of_place place rfl, advance, sendAt, if_neg none_left]
  rfl

theorem bitLevel_eq (a0 : Word) : bitLevel a0 = if a0 = 0 then false else true := by
  by_cases h : a0 = 0 <;> simp [bitLevel, h]

/-- Settles O22: the pin decides the first step, and each place of SendBitP has its one event. -/
theorem sendbitStepByStep : Obligations.SendbitStepByStep := by
  refine ⟨decodeWord_encode .sendbit, rfl, fun s => ⟨exec_sendbit_of_absent, fun idle present => ?_,
    fun place => ?_, fun place => exec_of_place place rfl⟩⟩
  · rw [exec_of_idle .sendbit idle, startState, sendbitStart, if_pos ((txPresent_iff _).2 present)]
    rfl
  · rw [exec_of_place place rfl, ← bitLevel_eq]
    rfl

/-- Settles O23: the pin decides the first step, the head of the byte loop what follows it and every gap, the data
index what follows a data bit's wait; every other place has its one event. -/
theorem sendStepByStep : Obligations.SendStepByStep := by
  refine ⟨decodeWord_encode .send, rfl, fun s => ⟨exec_send_of_absent, fun idle present empty => ?_,
    fun idle present nonempty => ?_, fun place => exec_of_place place rfl, fun place => exec_of_place place rfl,
    fun place => exec_of_place place rfl, exec_send_dataWait_of_lt, exec_send_dataWait_of_le,
    fun place => exec_of_place place rfl, fun place => exec_of_place place rfl, fun place more => ?_,
    fun place last => ?_, fun place => exec_of_place place rfl, fun place => exec_of_place place rfl⟩⟩
  · rw [exec_send_of_present idle present, sendNext_of_le (by simp [empty])]
  · have pos : 0 < s.eng.a0.toNat := Nat.pos_of_ne_zero fun zero => nonempty (BitVec.eq_of_toNat_eq zero)
    rw [exec_send_of_present idle present, sendNext_of_lt pos]
    rfl
  · rw [exec_of_place place rfl, advance, sendAt, sendNext_of_lt more]
    rfl
  · rw [exec_of_place place rfl, advance, sendAt, sendNext_of_le last]
    rfl

/-! ### Bits and frames -/

/-- The ten levels of byte `c`'s frame: start, data bits least-significant first, stop (R91). -/
def frameLevels (c : Byte) : List Bool := false :: ((List.range 8).map c.getLsbD ++ [true])

/-- A frame is its ten bits and the gap (R91). -/
theorem frameEvents_eq (bd : Nat) (c : Byte) :
    frameEvents bd c = (frameLevels c).flatMap (bitEvents bd) ++ [.wait bd] := by
  simp [frameEvents, frameLevels, dataBits, List.flatMap_map]

theorem sendEvents_cons (bd : Nat) (c : Byte) (bytes : List Byte) :
    sendEvents bd (c :: bytes) = frameEvents bd c ++ sendEvents bd bytes := by
  simp [sendEvents]

/-! ### O35: the line over a frame -/

/-- Bits sent one after the other each hold the line for one bit duration; the last one holds it on. -/
theorem lineLevelAt_bits {bd t i : Nat} {levels : List Bool} (h : i < levels.length) {τ : Nat} (level : Bool)
    (begun : τ + i * bd ≤ t) (current : i + 1 < levels.length → t < τ + (i + 1) * bd) :
    lineLevelAt t τ level (levels.flatMap (bitEvents bd)) = levels[i] := by
  induction levels generalizing i τ level with
  | nil => simp at h
  | cons l ls ih =>
    have first : lineLevelAt t τ level ((l :: ls).flatMap (bitEvents bd)) =
        lineLevelAt t (τ + bd) (if τ ≤ t then l else level) (ls.flatMap (bitEvents bd)) := rfl
    rw [first]
    cases i with
    | zero =>
      rw [if_pos (by omega)]
      cases ls with
      | nil => rfl
      | cons => exact lineLevelAt_before (by simpa using current) l _
    | succ i =>
      rw [Nat.succ_mul] at begun
      refine ih (Nat.lt_of_succ_lt_succ h) _ (by omega) fun more => ?_
      have before := current (Nat.succ_lt_succ more)
      rw [Nat.succ_mul] at before
      omega

theorem length_frameLevels (c : Byte) : (frameLevels c).length = 10 := by simp [frameLevels]

/-- The gap drives nothing, so a frame's bits decide the line. -/
theorem lineLevelAt_frame {bd t i : Nat} (c : Byte) (h : i < (frameLevels c).length) {τ : Nat} (level : Bool)
    (begun : τ + i * bd ≤ t) (current : i + 1 < 10 → t < τ + (i + 1) * bd) :
    lineLevelAt t τ level (frameEvents bd c) = (frameLevels c)[i] := by
  have gap : lineLevelAt t τ level (frameEvents bd c) =
      lineLevelAt t τ level ((frameLevels c).flatMap (bitEvents bd)) := by
    simp only [frameEvents_eq, lineLevelAt_append, lineLevelAt]
  rw [gap, lineLevelAt_bits h level begun (by rwa [length_frameLevels])]

/-- Settles O35: bit 0 of the frame is the start bit, bits 1 to 8 the data, bit 9 the stop bit, which the gap keeps. -/
theorem frameOccupiesElevenBitDurations : Obligations.FrameOccupiesElevenBitDurations := by
  intro bd τ t level c _
  obtain ⟨-, -, -, duration⟩ := counts_frameEvents bd c
  refine ⟨fun begun current => ?_, fun i hi begun current => ?_, fun begun _ => ?_, duration⟩
  · exact lineLevelAt_frame (i := 0) c (by simp [frameLevels]) level (by omega) (by omega)
  · rw [lineLevelAt_frame (i := i + 1) c (by simp [frameLevels]; omega) level begun fun _ => current]
    simp [frameLevels, List.getElem_append_left, hi]
  · exact lineLevelAt_frame (i := 9) c (by simp [frameLevels]) level begun (by omega)

/-! ### Runs that no turn disturbs -/

/-- Command `i` runs and no turn is to come, so that every next step is the command's. -/
structure State.Undisturbed (i : Instr) (s : State) : Prop where
  busy : s.status.busy = true
  op : s.eng.op = opcode i
  agenda : s.agenda = []

theorem steps_succ {s t : State} (h : step s = .next t) (n : Nat) : steps (n + 1) s = steps n t := by
  simp only [steps, h]

theorem State.Undisturbed.step_eq {i : Instr} {s : State} (run : s.Undisturbed i) : step s = exec i s :=
  (engineTurnRunsLatchedCommand s i run.busy run.op).1 run.agenda

theorem State.Undisturbed.steps_succ {i : Instr} {s t : State} (run : s.Undisturbed i) (h : exec i s = .next t)
    (n : Nat) : steps (n + 1) s = steps n t :=
  Machine.steps_succ (run.step_eq.trans h) n

/-! ### O33, O34: a whole SEND -/

/-- `s` after SEND has issued the events `es` that leave the line at `line`; the engine stands at `p`, at data bit `i`
of byte `j`, which is `c`. -/
def State.sending (p : Point) (es : List Event) (line : Bool) (i j : Nat) (c : Byte) (s : State) : State :=
  { s with
    events := s.events ++ es
    txLevel := line
    eng := { s.eng with point := p, i := i, j := j, c := c } }

theorem sending_nil (s : State) : s.sending s.eng.point [] s.txLevel s.eng.i s.eng.j s.eng.c = s := by
  simp only [State.sending, List.append_nil]

section
variable {s : State} (run : s.Undisturbed .send)
include run

theorem State.Undisturbed.sending (p : Point) (es : List Event) (line : Bool) (i j : Nat) (c : Byte) :
    (s.sending p es line i j c).Undisturbed .send :=
  ⟨run.busy, run.op, run.agenda⟩

/-- A bit that SEND sends is two steps, the drive and the wait after it. -/
theorem State.Undisturbed.steps_bit {es : List Event} {line l : Bool} {i i' j : Nat} {c : Byte} {n : Nat} {p : SendAt}
    (w : SendAt) {q : Point}
    (drive : exec .send (s.sending (.send p) es line i j c) =
      .next (State.standing (.send w) (State.drove l (s.sending (.send p) es line i j c))))
    (wait : exec .send (s.sending (.send w) (es ++ [.drive l]) l i j c) =
      .next (State.standing q (State.waited s.bitdur.toNat (s.sending (.send w) (es ++ [.drive l]) l i' j c)))) :
    steps (n + 2) (s.sending (.send p) es line i j c) =
      steps n (s.sending q (es ++ bitEvents s.bitdur.toNat l) l i' j c) := by
  have driven : State.standing (.send w) (State.drove l (s.sending (.send p) es line i j c)) =
      s.sending (.send w) (es ++ [.drive l]) l i j c := by
    simp only [State.standing, State.drove, State.sending, List.append_assoc]
  have waited : State.standing q (State.waited s.bitdur.toNat (s.sending (.send w) (es ++ [.drive l]) l i' j c)) =
      s.sending q (es ++ bitEvents s.bitdur.toNat l) l i' j c := by
    simp only [State.standing, State.waited, State.sending, bitEvents, List.append_assoc, List.cons_append,
      List.nil_append]
  rw [driven] at drive
  rw [waited] at wait
  rw [(run.sending _ es line i j c).steps_succ drive, (run.sending _ _ l i j c).steps_succ wait]

variable (es : List Event) (line : Bool) (i j : Nat) (c : Byte) (n : Nat)

/-- The start bit of a frame: the line is low (R91). -/
theorem State.Undisturbed.steps_startBit :
    steps (n + 2) (s.sending (.send .startDrive) es line i j c) =
      steps n (s.sending (.send .dataDrive) (es ++ bitEvents s.bitdur.toNat false) false 0 j c) :=
  run.steps_bit .startWait (exec_of_place rfl rfl) (exec_of_place rfl rfl)

/-- The stop bit of a frame: the line is high (R91). -/
theorem State.Undisturbed.steps_stopBit :
    steps (n + 2) (s.sending (.send .stopDrive) es line i j c) =
      steps n (s.sending (.send .gapWait) (es ++ bitEvents s.bitdur.toNat true) true i j c) :=
  run.steps_bit .stopWait (exec_of_place rfl rfl) (exec_of_place rfl rfl)

/-- The final idle-high bit, after which SEND is to complete (R91). -/
theorem State.Undisturbed.steps_idleBit :
    steps (n + 2) (s.sending (.send .idleDrive) es line i j c) =
      steps n (s.sending (.finish .success) (es ++ bitEvents s.bitdur.toNat true) true i j c) :=
  run.steps_bit .idleWait (exec_of_place rfl rfl) (exec_of_place rfl rfl)

/-- SEND sends data bit `i` and the `k` bits after it, up to bit 7. -/
theorem State.Undisturbed.steps_dataBits {i k : Nat} (count : i + k = 7) :
    steps (n + (2 * k + 2)) (s.sending (.send .dataDrive) es line i j c) =
      steps n (s.sending (.send .stopDrive)
        (es ++ (List.range' i (k + 1)).flatMap fun m => bitEvents s.bitdur.toNat (c.getLsbD m))
        (c.getLsbD 7) 7 j c) := by
  induction k generalizing i es line with
  | zero =>
    obtain rfl : i = 7 := count
    exact run.steps_bit .dataWait (exec_of_place rfl rfl) (exec_send_dataWait_of_le rfl (le_refl 7))
  | succ k ih =>
    have more : i < 7 := by omega
    have bit : steps (n + (2 * k + 2) + 2) (s.sending (.send .dataDrive) es line i j c) =
        steps (n + (2 * k + 2)) (s.sending (.send .dataDrive)
          (es ++ bitEvents s.bitdur.toNat (c.getLsbD i)) (c.getLsbD i) (i + 1) j c) :=
      run.steps_bit .dataWait (exec_of_place rfl rfl) (exec_send_dataWait_of_lt rfl more)
    rw [Nat.mul_succ, ← Nat.add_assoc n, bit, ih _ _ (by omega)]
    simp [List.range'_succ]

/-- After the gap SEND is at the head of its loop, with e.j one further (R91). -/
theorem State.Undisturbed.steps_gap :
    steps (n + 1) (s.sending (.send .gapWait) es line i j c) =
      steps n (sendNext (s.sending (.send .gapWait) (es ++ [.wait s.bitdur.toNat]) line i (j + 1) c)) := by
  have gap := exec_of_place (i := .send) (s := s.sending (.send .gapWait) es line i j c) rfl rfl
  rw [(run.sending _ es line i j c).steps_succ gap]
  simp only [advance, sendAt, waitFor, record, State.sending, List.append_assoc]

/-- SEND sends the frame of the byte it has latched (R91). -/
theorem State.Undisturbed.steps_frame :
    steps (n + 21) (s.sending (.send .startDrive) es line i j c) =
      steps n (sendNext (s.sending (.send .gapWait) (es ++ frameEvents s.bitdur.toNat c) true 7 (j + 1) c)) := by
  rw [run.steps_startBit, run.steps_dataBits (i := 0) (k := 7) _ _ _ _ (n + 3) rfl, run.steps_stopBit, run.steps_gap,
    frameEvents, dataBits, List.range_eq_range']
  simp only [List.append_assoc]

/-- SEND, at the head of its loop with `m` bytes to go, sends them and the final idle-high bit. -/
theorem State.Undisturbed.steps_sendNext (p : Point) {j m : Nat} (count : j + m = s.eng.a0.toNat) :
    ∃ i' j' c', steps (21 * m + 2 + n) (sendNext (s.sending p es line i j c)) =
      steps n (s.sending (.finish .success)
        (es ++ sendEvents s.bitdur.toNat ((List.range' j m).map (txByte s))) true i' j' c') := by
  induction m generalizing p es line i j c with
  | zero =>
    rw [sendNext_of_le count.ge, Nat.add_comm]
    exact ⟨i, j, c, run.steps_idleBit es line i j c n⟩
  | succ m ih =>
    let byte := txByte s j
    obtain ⟨i', j', c', rest⟩ :=
      ih (es ++ frameEvents s.bitdur.toNat byte) true 7 byte (.send .gapWait) (j := j + 1) (by omega)
    refine ⟨i', j', c', ?_⟩
    have head : sendNext (s.sending p es line i j c) = s.sending (.send .startDrive) es line i j byte :=
      sendNext_of_lt (by show j < s.eng.a0.toNat; omega)
    rw [head, show 21 * (m + 1) + 2 + n = 21 * m + 2 + n + 21 by omega, run.steps_frame, rest, List.range'_succ,
      List.map_cons, sendEvents_cons, List.append_assoc]

end

/-- Settles O33: the CMD write issues SEND, which comes to the head of its loop with all of its bytes to go. -/
theorem sendTransmitsFramesThenIdles : Obligations.SendTransmitsFramesThenIdles := by
  intro s idle turn present legal
  let issued := State.issued .send { s with agenda := [] }
  let head : State := { issued with eng := { issued.eng with phase := .tx, j := 0 } }
  have issue : step s = .next (sendNext head) :=
    (step_issue (i := .send) turn idle (by simpa using legal)).trans (exec_send_of_present rfl present)
  have runHead : head.Undisturbed .send := ⟨rfl, rfl, rfl⟩
  obtain ⟨i, j, c, run⟩ :=
    runHead.steps_sendNext [] head.txLevel head.eng.i head.eng.c 1 .idle (m := s.arg0.toNat) (Nat.zero_add _)
  rw [show head.sending .idle [] head.txLevel head.eng.i 0 head.eng.c = head from sending_nil head] at run
  let last := head.sending (.finish .success)
    (sendEvents s.bitdur.toNat ((List.range' 0 s.arg0.toNat).map (txByte s))) true i j c
  have runLast : last.Undisturbed .send := runHead.sending _ _ true i j c
  have finish : steps 1 last = .next (complete .success last) :=
    runLast.steps_succ (exec_of_finish rfl (by simp) (by simp) (by simp)) 0
  refine ⟨_, (steps_succ issue _).trans (run.trans finish), ?_, rfl, rfl, rfl, rfl, rfl, rfl, rfl, rfl, rfl, rfl, rfl⟩
  rw [List.range_eq_range']
  rfl

/-- Settles O34: the counts of the events that O33 gives. -/
theorem sendEventCounts : Obligations.SendEventCounts := by
  intro s idle turn present legal
  obtain ⟨t, run, events, -, status, -⟩ := sendTransmitsFramesThenIdles s idle turn present legal
  obtain ⟨drives, waits, length, requested⟩ :=
    counts_sendEvents s.bitdur.toNat ((List.range s.arg0.toNat).map (txByte s))
  rw [List.length_map, List.length_range] at drives waits length requested
  exact ⟨t, _, run, events, drives, waits, length, requested, by rw [status]⟩

/-! ### Byte reception, one raw reading a bit -/

/-- The timeout of the start-bit search in the commands that receive bytes (R107, R109, R111). -/
def receiveTimeout (i : Instr) (s : State) : Nat :=
  match i with
  | .rxmsg => s.eng.a1.toNat
  | .rxloop => loopTimeout s
  | _ => s.eng.a0.toNat

/-- While ReceiveByteP has not returned, its step is the command's. -/
theorem exec_of_byteStep {i : Instr} {f : ByteAt → Point} (h : ByteIn i f) {p q : ByteAt} {s t : State}
    (place : s.eng.point = f p) (step : byteStep (receiveTimeout i s) p s = .here q t) :
    exec i s = .next (State.standing (f q) t) := by
  cases h with
  | rxbyte =>
    have step' : byteStep s.eng.a0.toNat p s = .here q t := step
    simp only [exec_of_place place rfl, advance, rxbyteAt, step']
    rfl
  | rxmsg =>
    have step' : byteStep s.eng.a1.toNat p s = .here q t := step
    simp only [exec_of_place place rfl, advance, rxmsgAt, messageStep, step']
    rfl
  | rxloop =>
    have step' : byteStep (loopTimeout s) p s = .here q t := step
    simp only [exec_of_place place rfl, advance, rxloopAt, step', loopFromByte]
    rfl

theorem sampleBegin_of_single {s : State} (single : s.spb.toNat = 1) : sampleBegin s = s := if_pos single.le

/-- With SPB = 1 SampleAnalogP is one raw reading (R94). -/
theorem sampleStep_of_single {s : State} (single : s.spb.toNat = 1) :
    sampleStep .read s = .done (sampleValue s) (takeSample s) :=
  if_pos single.le

/-- `s` after byte reception has issued the events `es`, the readings `samples` still to come; the engine stands at `p`
in phase `ph`, at data bit `i`, with `acc` received. -/
def State.receiving (p : Point) (es : List Event) (samples : List Half) (ph : Phase) (i : Nat) (acc : Byte)
    (s : State) : State :=
  { s with
    events := s.events ++ es
    env := { s.env with samples := samples }
    eng := { s.eng with point := p, phase := ph, i := i, acc := acc } }

theorem receiving_nil (s : State) :
    s.receiving s.eng.point [] s.env.samples s.eng.phase s.eng.i s.eng.acc = s := by
  simp only [State.receiving, List.append_nil]

/-- Bits 0 to `i - 1` of `b`: what e.acc holds when `i` data bits of `b` have been received. -/
def lowBits (b : Byte) (i : Nat) : Byte := (b.setWidth i).setWidth 8

theorem lowBits_eight (b : Byte) : lowBits b 8 = b := by simp [lowBits]

theorem getLsbD_lowBits (b : Byte) (i : Nat) {m : Nat} (hm : m < 8) :
    (lowBits b i).getLsbD m = (decide (m < i) && b.getLsbD m) := by
  simp [lowBits, hm]

theorem lowBits_zero (b : Byte) : lowBits b 0 = 0 :=
  BitVec.eq_of_getLsbD_eq fun m hm => by simp [getLsbD_lowBits b 0 hm]

theorem getLsbD_bit (i : Nat) {m : Nat} (hm : m < 8) : (1#8 <<< i).getLsbD m = decide (m = i) := by
  simp only [BitVec.getLsbD_shiftLeft, BitVec.getLsbD_one, hm]
  by_cases h : m < i
  · simp [h, h.ne]
  · simp [h]
    omega

/-- A data sample that reads bit `i` of `b` adds that bit (R106). -/
theorem withDataBit_lowBits (b : Byte) (i : Nat) :
    withDataBit (lowBits b i) i (!b.getLsbD i) = lowBits b (i + 1) := by
  apply BitVec.eq_of_getLsbD_eq
  intro m hm
  have next : (lowBits b (i + 1)).getLsbD m = (decide (m < i) && b.getLsbD m || decide (m = i) && b.getLsbD m) := by
    simp only [getLsbD_lowBits b _ hm, Nat.lt_succ_iff_lt_or_eq, Bool.decide_or, Bool.and_or_distrib_right]
  rw [next]
  cases hb : b.getLsbD i with
  | false =>
    have zero : (decide (m = i) && b.getLsbD m) = false := by
      by_cases h : m = i <;> simp [h, hb]
    simp [withDataBit, getLsbD_lowBits b i hm, zero]
  | true =>
    have one : (decide (m = i) && b.getLsbD m) = decide (m = i) := by
      by_cases h : m = i <;> simp [h, hb]
    simp [withDataBit, getLsbD_lowBits b i hm, getLsbD_bit i hm, one]

/-- The samples read as the bits of `b` from bit `k` on: low where the bit is 0 (R96, R106). -/
def ReadAs (thresh : Half) (data : List Half) (b : Byte) (k : Nat) : Prop :=
  data.map (isLow thresh) = (List.range' k data.length).map (fun m => !b.getLsbD m)

theorem readAs_cons (thresh v : Half) (data : List Half) (b : Byte) (k : Nat) :
    ReadAs thresh (v :: data) b k ↔ isLow thresh v = (!b.getLsbD k) ∧ ReadAs thresh data b (k + 1) := by
  simp only [ReadAs, List.length_cons, List.map_cons, List.range'_succ, List.cons.injEq]

section
variable {i : Instr} {f : ByteAt → Point} (h : ByteIn i f) {s : State} (run : s.Undisturbed i)
include run

theorem State.Undisturbed.receiving (p : Point) (es : List Event) (samples : List Half) (ph : Phase) (k : Nat)
    (acc : Byte) : (s.receiving p es samples ph k acc).Undisturbed i :=
  ⟨run.busy, run.op, run.agenda⟩

include h

theorem State.Undisturbed.steps_byte {p q : ByteAt} {t : State} (place : s.eng.point = f p)
    (step : byteStep (receiveTimeout i s) p s = .here q t) (n : Nat) :
    steps (n + 1) s = steps n (State.standing (f q) t) :=
  run.steps_succ (exec_of_byteStep h place step) n

variable (single : s.spb.toNat = 1) (es : List Event) (samples : List Half) (v : Half) (ph : Phase) (k : Nat)
  (acc : Byte) (n : Nat)

theorem State.Undisturbed.steps_alignWait :
    steps (n + 1) (s.receiving (f (.search .alignWait)) es samples ph k acc) =
      steps n (s.receiving (f .firstWait) (es ++ [.wait (s.bitdur.toNat / 2)]) samples ph k acc) := by
  rw [(run.receiving _ es samples ph k acc).steps_byte h rfl rfl]
  simp only [State.standing, waitFor, record, halfBit, State.receiving, List.append_assoc]

include single

theorem State.Undisturbed.steps_firstWait :
    steps (n + 1) (s.receiving (f .firstWait) es samples ph k acc) =
      steps n (s.receiving (f (.data .read)) (es ++ [.wait s.bitdur.toNat]) samples (.data 0) 0 0) := by
  rw [(run.receiving _ es samples ph k acc).steps_byte h rfl rfl, dataBegin, sampleBegin_of_single (by exact single)]
  simp only [State.standing, waitFor, record, State.receiving, List.append_assoc]
  rfl

theorem State.Undisturbed.steps_dataSample :
    steps (n + 1) (s.receiving (f (.data .read)) es (v :: samples) ph k acc) =
      steps n (s.receiving (f .dataWait) (es ++ [.sample v]) samples ph k
        (withDataBit acc k (isLow s.thresh v))) := by
  let u := s.receiving (f (.data .read)) es (v :: samples) ph k acc
  have step : byteStep (receiveTimeout i u) (.data .read) u = .here .dataWait (dataSampled v (takeSample u)) := by
    simp only [byteStep, sampleStep_of_single (s := u) single]
    rfl
  rw [(run.receiving _ es _ ph k acc).steps_byte h rfl step]
  simp only [u, State.standing, dataSampled, takeSample, record, State.receiving, List.append_assoc]
  rfl

/-- After data bits 0 to 6 the next data sample is due (R106). -/
theorem State.Undisturbed.steps_dataWait_of_lt (more : k + 1 < 8) :
    steps (n + 1) (s.receiving (f .dataWait) es samples ph k acc) =
      steps n (s.receiving (f (.data .read)) (es ++ [.wait s.bitdur.toNat]) samples (.data (Fin.ofNat 8 (k + 1)))
        (k + 1) acc) := by
  let u := s.receiving (f .dataWait) es samples ph k acc
  have step : byteStep (receiveTimeout i u) .dataWait u =
      .here (.data .read) (dataBegin (k + 1) (waitFor s.bitdur.toNat u)) := if_pos more
  rw [(run.receiving _ es _ ph k acc).steps_byte h rfl step, dataBegin, sampleBegin_of_single (by exact single)]
  simp only [u, State.standing, waitFor, record, State.receiving, List.append_assoc]

/-- After data bit 7 the stop sample is due (R106). -/
theorem State.Undisturbed.steps_dataWait_of_eq (n : Nat) :
    steps (n + 1) (s.receiving (f .dataWait) es samples ph 7 acc) =
      steps n (s.receiving (f (.stop .read)) (es ++ [.wait s.bitdur.toNat]) samples .stopCheck 7 acc) := by
  let u := s.receiving (f .dataWait) es samples ph 7 acc
  have step : byteStep (receiveTimeout i u) .dataWait u =
      .here (.stop .read) (sampleBegin (setPhase .stopCheck (waitFor s.bitdur.toNat u))) := rfl
  rw [(run.receiving _ es _ ph 7 acc).steps_byte h rfl step, sampleBegin_of_single (by exact single)]
  simp only [u, State.standing, setPhase, waitFor, record, State.receiving, List.append_assoc]

/-- A stop sample above THRESH ends a valid frame (R106). -/
theorem State.Undisturbed.steps_stopSample (high : s.thresh.toNat < v.toNat) :
    steps (n + 1) (s.receiving (f (.stop .read)) es (v :: samples) ph k acc) =
      steps n (s.receiving (f .closeWait) (es ++ [.sample v]) samples .decoded k acc) := by
  let u := s.receiving (f (.stop .read)) es (v :: samples) ph k acc
  have valid : ¬ isLow s.thresh v = true := by simpa [isLow] using high
  have step : byteStep (receiveTimeout i u) (.stop .read) u = .here .closeWait (setPhase .decoded (takeSample u)) := by
    simp only [byteStep, sampleStep_of_single (s := u) single, stopSampled]
    exact if_neg valid
  rw [(run.receiving _ es _ ph k acc).steps_byte h rfl step]
  simp only [u, State.standing, setPhase, takeSample, record, State.receiving, List.append_assoc]
  rfl

/-- Data samples that read as the bits of `b` from bit `k` to bit 7 complete `b` (R106). -/
theorem State.Undisturbed.steps_dataSamples {k : Nat} {data : List Half} {b : Byte} (count : k + data.length = 8)
    (inside : k < 8) (reads : ReadAs s.thresh data b k) :
    steps (n + 2 * data.length) (s.receiving (f (.data .read)) es (data ++ samples) ph k (lowBits b k)) =
      steps n (s.receiving (f (.stop .read)) (es ++ data.flatMap fun v => [.sample v, .wait s.bitdur.toNat]) samples
        .stopCheck 7 b) := by
  induction data generalizing k es ph with
  | nil => exact absurd count inside.ne
  | cons v data ih =>
    obtain ⟨bit, reads'⟩ := (readAs_cons _ _ _ _ _).1 reads
    rw [List.length_cons] at count ⊢
    rw [Nat.mul_succ, ← Nat.add_assoc, List.cons_append, run.steps_dataSample h single, bit, withDataBit_lowBits]
    by_cases more : k + 1 < 8
    · rw [run.steps_dataWait_of_lt h single (more := more), ih _ _ (by omega) more reads']
      simp
    · obtain rfl : k = 7 := by omega
      obtain rfl : data = [] := List.length_eq_zero_iff.1 (by omega)
      rw [run.steps_dataWait_of_eq h single, lowBits_eight]
      simp

end

/-- The events of byte reception after its search, from the alignment wait to the stop sample (R106). -/
def receptionEvents (bd : Nat) (data : List Half) (stop : Half) : List Event :=
  Event.wait (bd / 2) :: Event.wait bd :: data.flatMap (fun v => [.sample v, .wait bd]) ++ [.sample stop]

/-- Byte reception after its search, with one raw reading a bit: eight data samples that read as the bits of `b`, and a
high stop sample, decode to `b` (R106). -/
theorem State.Undisturbed.steps_reception {i : Instr} {f : ByteAt → Point} (h : ByteIn i f) {s : State}
    (run : s.Undisturbed i) (single : s.spb.toNat = 1) (place : s.eng.point = f (.search .alignWait))
    {data samples : List Half} {stop : Half} {b : Byte} (readings : s.env.samples = data ++ stop :: samples)
    (eight : data.length = 8) (reads : ReadAs s.thresh data b 0) (high : s.thresh.toNat < stop.toNat) (n : Nat) :
    steps (n + 19) s =
      steps n (s.receiving (f .closeWait) (receptionEvents s.bitdur.toNat data stop) samples .decoded 7 b) := by
  let before : List Event := [.wait (s.bitdur.toNat / 2), .wait s.bitdur.toNat]
  have start : steps (n + 19) s =
      steps (n + 17) (s.receiving (f (.data .read)) before (data ++ stop :: samples) (.data 0) 0 (lowBits b 0)) := by
    conv_lhs => rw [← receiving_nil s, place, readings]
    rw [run.steps_alignWait h, run.steps_firstWait h single, lowBits_zero]
    rfl
  have bits := run.steps_dataSamples h single before (stop :: samples) (.data 0) (n + 1) (by omega) (by omega) reads
  rw [eight] at bits
  rw [start, bits, run.steps_stopSample h single (high := high)]
  rfl

/-! ### The start-bit search, one raw reading a poll -/

/-- `s` after the start-bit search has issued the events `es`, the readings `samples` and the clock's advances `clocks`
still to come; the engine stands at `p` after a run of `r` lows. -/
def State.searching (p : Point) (es : List Event) (samples : List Half) (clocks : List Nat) (r : Nat)
    (s : State) : State :=
  { s with
    events := s.events ++ es
    env := { s.env with samples := samples, clockSteps := clocks }
    eng := { s.eng with point := p, run := r } }

/-- `s` inside a search that needs a run of `need` lows and was entered at `t0` (R101). -/
def State.searchEntered (need : Nat) (t0 : Word) (s : State) : State :=
  { s with eng := { s.eng with phase := .startSearch, need := need, t0 := t0 } }

/-- The single-shot search starts at its one sample (R101). -/
theorem searchBegun_zero (f : SearchAt → Point) {s : State} (single : s.spb.toNat = 1) :
    State.searchBegun 0 f s = State.searching (f (.sampling .read)) [] s.env.samples s.env.clockSteps 0
      (s.searchEntered 1 s.eng.t0) := by
  simp only [State.searchBegun, State.sampleBegun, if_pos single.le, if_true, State.standing, State.searching,
    State.searchEntered, List.append_nil]

/-- The low sample that completes the run confirms the start bit (R101). -/
theorem searchJudge_of_le (T : Nat) {v : Half} {s : State} (low : isLow s.thresh v = true)
    (enough : s.eng.need ≤ s.eng.run + 1) : searchJudge T v s =
      .here .alignWait (setPhase .startDetected { s with eng := { s.eng with run := s.eng.run + 1 } }) := by
  simp only [searchJudge, runAfter, if_pos low, if_pos enough]

/-- With a timeout a low sample that leaves the run short is followed by a clock reading (R101). -/
theorem searchJudge_of_lt {T : Nat} (timed : T ≠ 0) {v : Half} {s : State} (low : isLow s.thresh v = true)
    (short : s.eng.run + 1 < s.eng.need) :
    searchJudge T v s = .here .clock { s with eng := { s.eng with run := s.eng.run + 1 } } := by
  simp only [searchJudge, runAfter, if_pos low, if_neg (Nat.not_le.2 short), if_neg timed]

theorem searchStep_sampling_of_single (T : Nat) {s : State} (single : s.spb.toNat = 1) :
    searchStep T (.sampling .read) s = searchJudge T (sampleValue s) (takeSample s) := by
  simp only [searchStep, sampleStep_of_single single]

/-- The search goes on after a clock reading equal to the one at entry (R101, R104). -/
theorem searchStep_clock_of_eq (T : Nat) {s : State} (still : clockValue s = s.eng.t0) :
    searchStep T .clock s = .here .pollWait (readClock s) :=
  if_neg (by simp [elapsed, still])

section
variable {i : Instr} {f : ByteAt → Point} (h : ByteIn i f) {s : State} (run : s.Undisturbed i)
include run

theorem State.Undisturbed.searching (p : Point) (es : List Event) (samples : List Half) (clocks : List Nat) (r : Nat) :
    (s.searching p es samples clocks r).Undisturbed i :=
  ⟨run.busy, run.op, run.agenda⟩

include h

theorem State.Undisturbed.steps_search {p q : SearchAt} {t : State} (place : s.eng.point = f (.search p))
    (step : searchStep (receiveTimeout i s) p s = .here q t) (n : Nat) :
    steps (n + 1) s = steps n (State.standing (f (.search q)) t) :=
  run.steps_byte h (p := .search p) (q := .search q) place (congrArg byteFromSearch step) n

variable (single : s.spb.toNat = 1) (es : List Event) {v : Half} (samples : List Half) (clocks : List Nat)
  (r n : Nat)

theorem State.Undisturbed.steps_stillClock (still : s.eng.t0 = BitVec.ofNat 32 s.env.clock) :
    steps (n + 1) (s.searching (f (.search .clock)) es samples (0 :: clocks) r) =
      steps n (s.searching (f (.search .pollWait)) (es ++ [.now s.eng.t0]) samples clocks r) := by
  let u := s.searching (f (.search .clock)) es samples (0 :: clocks) r
  have step := searchStep_clock_of_eq (receiveTimeout i u) (s := u) still.symm
  rw [(run.searching _ es samples _ r).steps_search h rfl step]
  simp only [u, State.standing, readClock, record, State.searching, List.append_assoc, still]
  rfl

include single

theorem State.Undisturbed.steps_confirmingSample (low : isLow s.thresh v = true) (enough : s.eng.need ≤ r + 1) :
    steps (n + 1) (s.searching (f (.search (.sampling .read))) es (v :: samples) clocks r) =
      steps n (State.inPhase .startDetected
        (s.searching (f (.search .alignWait)) (es ++ [.sample v]) samples clocks (r + 1))) := by
  let u := s.searching (f (.search (.sampling .read))) es (v :: samples) clocks r
  have step := (searchStep_sampling_of_single (receiveTimeout i u) (s := u) single).trans
    (searchJudge_of_le _ low enough)
  rw [(run.searching _ es _ clocks r).steps_search h rfl step]
  simp only [u, State.standing, State.inPhase, setPhase, takeSample, record, State.searching, List.append_assoc]
  rfl

theorem State.Undisturbed.steps_lowSample (low : isLow s.thresh v = true) (short : r + 1 < s.eng.need)
    (timed : receiveTimeout i s ≠ 0) :
    steps (n + 1) (s.searching (f (.search (.sampling .read))) es (v :: samples) clocks r) =
      steps n (s.searching (f (.search .clock)) (es ++ [.sample v]) samples clocks (r + 1)) := by
  let u := s.searching (f (.search (.sampling .read))) es (v :: samples) clocks r
  have same : receiveTimeout i u = receiveTimeout i s := by cases i <;> rfl
  have step := (searchStep_sampling_of_single (receiveTimeout i u) (s := u) single).trans
    (searchJudge_of_lt (same ▸ timed) low short)
  rw [(run.searching _ es _ clocks r).steps_search h rfl step]
  simp only [u, State.standing, takeSample, record, State.searching, List.append_assoc]
  rfl

theorem State.Undisturbed.steps_pollWait :
    steps (n + 1) (s.searching (f (.search .pollWait)) es samples clocks r) =
      steps n (s.searching (f (.search (.sampling .read))) (es ++ [.wait s.polldly.toNat]) samples clocks r) := by
  rw [(run.searching _ es samples clocks r).steps_byte h rfl rfl, sampleBegin_of_single (by exact single)]
  simp only [State.standing, waitFor, record, State.searching, List.append_assoc]

/-- The timed search starts with the clock reading of its entry, here one at which the clock stands still (R101). -/
theorem State.Undisturbed.steps_searchBegun {T : Nat} (timed : T ≠ 0) (still : s.env.clockSteps = 0 :: clocks) :
    steps (n + 1) (State.searchBegun T (fun q => f (.search q)) s) =
      steps n (State.searching (f (.search (.sampling .read))) [.now (BitVec.ofNat 32 s.env.clock)] s.env.samples
        clocks 0 (s.searchEntered 3 (BitVec.ofNat 32 s.env.clock))) := by
  let marking := State.standing (f (.search .mark)) { s with eng := { s.eng with phase := .startSearch, need := 3 } }
  have runMarking : marking.Undisturbed i := ⟨run.busy, run.op, run.agenda⟩
  have begun : State.searchBegun T (fun q => f (.search q)) s = marking := if_neg timed
  rw [begun, runMarking.steps_search h (p := .mark) rfl rfl, sampleBegin_of_single (by exact single)]
  simp only [marking, State.standing, readClock, record, State.searching, Env.afterClock, clockValue, clockAdvance,
    still]
  rfl

/-- A round of the timed search that reads low while the clock stands still (R101). -/
theorem State.Undisturbed.steps_lowRound (low : isLow s.thresh v = true) (short : r + 1 < s.eng.need)
    (timed : receiveTimeout i s ≠ 0) (still : s.eng.t0 = BitVec.ofNat 32 s.env.clock) :
    steps (n + 3) (s.searching (f (.search (.sampling .read))) es (v :: samples) (0 :: clocks) r) =
      steps n (s.searching (f (.search (.sampling .read)))
        (es ++ [.sample v, .now s.eng.t0, .wait s.polldly.toNat]) samples clocks (r + 1)) := by
  rw [run.steps_lowSample h single (low := low) (short := short) (timed := timed),
    run.steps_stillClock h (still := still), run.steps_pollWait h single, List.append_assoc, List.append_assoc]
  rfl

end

/-! ### O38: a sent byte, received -/

/-- RXBYTE that stands after its search, with SPB = 1, and is to read the bits of `b` and a high stop bit completes with
RESULT `b` (R107). -/
theorem rxbyte_receives {s : State} (run : s.Undisturbed .rxbyte) (single : s.spb.toNat = 1)
    (place : s.eng.point = .rxbyte (.search .alignWait)) {data samples : List Half} {stop : Half} {b : Byte}
    (readings : s.env.samples = data ++ stop :: samples) (eight : data.length = 8)
    (reads : ReadAs s.thresh data b 0) (high : s.thresh.toNat < stop.toNat) :
    ∃ t, steps 21 s = .next t ∧ t.result = b.setWidth 16 ∧
      t.status = { s.status with busy := false, ok := true, err := .noError } ∧ t.env.samples = samples := by
  let decoded := s.receiving (.rxbyte .closeWait) (receptionEvents s.bitdur.toNat data stop) samples .decoded 7 b
  let closed := State.standing (.finish (.withResult (b.setWidth 16))) (State.waited (s.bitdur.toNat / 2) decoded)
  have runDecoded : decoded.Undisturbed .rxbyte := run.receiving _ _ _ _ _ _
  have runClosed : closed.Undisturbed .rxbyte := ⟨run.busy, run.op, run.agenda⟩
  have close : exec .rxbyte decoded = .next closed := exec_of_place rfl rfl
  have finish : exec .rxbyte closed = .next (complete (.withResult (b.setWidth 16)) closed) :=
    exec_of_finish rfl (by simp) (by simp) (by simp)
  refine ⟨complete (.withResult (b.setWidth 16)) closed, ?_, rfl, rfl, rfl⟩
  rw [run.steps_reception .rxbyte single place readings eight reads high 2, runDecoded.steps_succ close,
    runClosed.steps_succ finish]
  rfl

/-- With a receive pin byte reception starts with its search (R101, R106). -/
theorem byteStart_of_present (T : Nat) (f : ByteAt → Point) {s : State} (present : s.params.rxPin ≠ none) :
    ∃ q t, byteStart T s = .here q t ∧ State.standing (f q) t = State.searchBegun T (fun p => f (.search p)) s := by
  have begun : byteStart T s = byteFromSearch (searchBegin T s) :=
    congrArg byteFromSearch (if_pos ((rxPresent_iff _).2 present))
  by_cases zero : T = 0
  · subst zero
    exact ⟨_, _, begun, rfl⟩
  · simp only [begun, searchBegin, if_neg zero, State.searchBegun, runNeeded]
    exact ⟨_, _, rfl, rfl⟩

/-- With a receive pin RXBYTE starts its search (R107). -/
theorem exec_rxbyte_of_present {s : State} (idle : s.eng.point = .idle) (present : s.params.rxPin ≠ none) :
    exec .rxbyte s = .next (State.searchBegun s.eng.a0.toNat (fun q => .rxbyte (.search q)) s) := by
  obtain ⟨q, t, start, begun⟩ := byteStart_of_present s.eng.a0.toNat .rxbyte present
  rw [exec_of_idle .rxbyte idle, ← begun]
  simp only [startState, rxbyteStart, start]
  rfl

theorem drivenLevels_bits (bd : Nat) (levels : List Bool) (rest : List Event) :
    drivenLevels (levels.flatMap (bitEvents bd) ++ rest) = levels ++ drivenLevels rest := by
  induction levels with
  | nil => rfl
  | cons l ls ih => exact congrArg (l :: ·) ih

/-- The samples of a frame: its start bit low, its data bits, its stop bit high. -/
theorem frameSamples_eq (hi lo : Half) (b : Byte) :
    frameSamples hi lo b = lo :: ((List.range 8).map (fun m => channelSample hi lo (b.getLsbD m)) ++ [hi]) := by
  rw [frameSamples, frameEvents_eq, drivenLevels_bits, frameLevels]
  simp only [drivenLevels, List.append_nil, List.map_cons, List.map_append, List.map_map, List.map_nil]
  rfl

theorem isLow_channelSample {hi lo thresh : Half} (low : lo.toNat ≤ thresh.toNat) (high : thresh.toNat < hi.toNat)
    (level : Bool) : isLow thresh (channelSample hi lo level) = !level := by
  cases level <;> simp [isLow, channelSample, low, high]

/-- The single sample at which RXBYTE, with SPB = 1, confirms the start bit: the frame's other samples on the channel of
V-SRC-2 are then received as `b`. -/
theorem rxbyte_receives_frame {s : State} (run : s.Undisturbed .rxbyte) (single : s.spb.toNat = 1) {hi lo : Half}
    (low : lo.toNat ≤ s.thresh.toNat) (high : s.thresh.toNat < hi.toNat) (b : Byte) (es : List Event)
    (more : List Half) (clocks : List Nat) {r : Nat} (enough : s.eng.need ≤ r + 1) :
    ∃ t, steps 22 (s.searching (.rxbyte (.search (.sampling .read))) es (frameSamples hi lo b ++ more) clocks r) =
        .next t ∧ t.result = b.setWidth 16 ∧
      t.status = { s.status with busy := false, ok := true, err := .noError } ∧ t.env.samples = more := by
  let data := (List.range 8).map (fun m => channelSample hi lo (b.getLsbD m))
  have eight : data.length = 8 := by simp [data]
  have reads : ReadAs s.thresh data b 0 := by
    rw [ReadAs, eight, ← List.range_eq_range']
    simp only [data, List.map_map, Function.comp_def, isLow_channelSample low high]
  have start : isLow s.thresh lo = true := by simpa [isLow] using low
  have frame : frameSamples hi lo b ++ more = lo :: (data ++ hi :: more) := by
    rw [frameSamples_eq, List.cons_append, List.append_assoc, List.singleton_append]
  rw [frame, run.steps_confirmingSample .rxbyte single (low := start) (enough := enough)]
  let confirmed := State.inPhase .startDetected
    (s.searching (.rxbyte (.search .alignWait)) (es ++ [.sample lo]) (data ++ hi :: more) clocks (r + 1))
  exact rxbyte_receives (s := confirmed) ⟨run.busy, run.op, run.agenda⟩ single rfl rfl eight reads high

/-- Settles O38: the issue starts the search, whose last low sample is the frame's start bit: the only one in the single
shot, the third one after two rounds with the clock at rest when there is a timeout. -/
theorem sentByteIsReceivedExactly : Obligations.SentByteIsReceivedExactly := by
  intro s b hi lo more idle turn present single low high
  let issued := State.issued .rxbyte { s with agenda := [] }
  have runIssued : issued.Undisturbed .rxbyte := ⟨rfl, rfl, rfl⟩
  have issue : step s = .next (State.searchBegun s.arg0.toNat (fun q => .rxbyte (.search q)) issued) :=
    (step_issue (i := .rxbyte) turn idle (by simp)).trans (exec_rxbyte_of_present rfl present)
  refine ⟨fun zero samples => ?_, fun clocks nonzero samples still => ?_⟩
  · have zero' : s.arg0.toNat = 0 := congrArg BitVec.toNat zero
    have samples' : issued.env.samples = frameSamples hi lo b ++ more := samples
    rw [steps_succ issue, zero', searchBegun_zero _ (s := issued) single, samples']
    have run : (issued.searchEntered 1 issued.eng.t0).Undisturbed .rxbyte := ⟨rfl, rfl, rfl⟩
    exact rxbyte_receives_frame run single low high b [] more _ (le_refl 1)
  · have run : (issued.searchEntered 3 (BitVec.ofNat 32 issued.env.clock)).Undisturbed .rxbyte := ⟨rfl, rfl, rfl⟩
    have timed : s.arg0.toNat ≠ 0 := fun zero => nonzero (BitVec.eq_of_toNat_eq zero)
    have samples' : issued.env.samples = lo :: lo :: (frameSamples hi lo b ++ more) := samples
    have start : isLow s.thresh lo = true := by simpa [isLow] using low
    have entry := runIssued.steps_searchBegun .rxbyte single (0 :: 0 :: clocks) 28 timed still
    have round (es : List Event) (rest : List Half) (left : List Nat) (r n : Nat) (short : r + 1 < 3) :=
      run.steps_lowRound .rxbyte single es rest left r n start short timed rfl
    rw [steps_succ issue, entry, samples', round _ _ _ 0 25 (by omega), round _ _ _ 1 22 (by omega)]
    exact rxbyte_receives_frame run single low high b _ more _ (le_refl 3)

end Sys2Proof.Machine

/-! The statements of the sampling family: SampleAnalogP inside every command that calls it (R94), SAMPLE and CALIB one
atomic step at a time and over a whole run (R95, R97 to R99). Both whole runs rest on one fact about a call of
SampleAnalogP: it takes SPB readings, and its caller goes on with their truncated average. -/

namespace Sys2Proof.Machine

/-! ### O24: SampleAnalogP one atomic step at a time -/

/-- A reading that is not the last is added to e.sum, and the wait follows (R94). -/
theorem sampleStep_of_not_last {s : State} (more : ¬ s.lastReading) : sampleStep .read s = .here .space s.sampled := by
  obtain ⟨oversampled, left⟩ := not_or.1 more
  simp only [sampleStep, State.sampled, if_neg oversampled, if_pos (Nat.lt_of_not_le left)]
  rfl

/-- After its last reading SampleAnalogP returns the raw reading or the average (R94). -/
theorem sampleStep_of_last {s : State} (last : s.lastReading) :
    sampleStep .read s = .done s.oversample s.sampled := by
  by_cases single : s.spb.toNat ≤ 1
  · simp only [sampleStep, State.sampled, State.oversample, if_pos single]
    rfl
  · have none_left : ¬ s.eng.k + 1 < s.spb.toNat := Nat.not_lt.2 (last.resolve_left single)
    simp only [sampleStep, State.sampled, State.oversample, if_neg single, if_neg none_left]
    rfl

/-- While SampleAnalogP has not returned to ReceiveByteP, its step is the one of ReceiveByteP (R106). -/
theorem byteStep_of_sampleStep {p q : SampleAt} {s t : State} (step : sampleStep p s = .here q t) (T : Nat) :
    byteStep T (.search (.sampling p)) s = .here (.search (.sampling q)) t ∧
    byteStep T (.data p) s = .here (.data q) t ∧ byteStep T (.stop p) s = .here (.stop q) t := by
  simp only [byteStep, searchStep, step, byteFromSearch, and_self]

/-- While SampleAnalogP has not returned, its step is the command's (R94). -/
theorem exec_of_sampleStep {i : Instr} {f : SampleAt → Point} (h : SampleIn i f) {p q : SampleAt} {s t : State}
    (place : s.eng.point = f p) (step : sampleStep p s = .here q t) :
    exec i s = .next (State.standing (f q) t) := by
  obtain ⟨search, data, stop⟩ := byteStep_of_sampleStep step (receiveTimeout i s)
  cases h with
  | sample =>
    simp only [exec_of_place place rfl, advance, sampleAt, step]
    rfl
  | calib =>
    simp only [exec_of_place place rfl, advance, calibAt, step]
    rfl
  | waitstart =>
    simp only [exec_of_place place rfl, advance, waitstartAt, searchStep, step]
    rfl
  | rxbyteSearch => exact exec_of_byteStep .rxbyte place search
  | rxbyteData => exact exec_of_byteStep .rxbyte place data
  | rxbyteStop => exact exec_of_byteStep .rxbyte place stop
  | rxmsgSearch => exact exec_of_byteStep .rxmsg place search
  | rxmsgData => exact exec_of_byteStep .rxmsg place data
  | rxmsgStop => exact exec_of_byteStep .rxmsg place stop
  | rxloopSearch => exact exec_of_byteStep .rxloop place search
  | rxloopData => exact exec_of_byteStep .rxloop place data
  | rxloopStop => exact exec_of_byteStep .rxloop place stop

/-- Settles O24: both places of SampleAnalogP stay inside it. -/
theorem oversamplingWaitsBetweenReadings : Obligations.OversamplingWaitsBetweenReadings := fun _ _ _ h =>
  ⟨fun place more => exec_of_sampleStep h place (sampleStep_of_not_last more),
    fun place => exec_of_sampleStep h place rfl⟩

/-! ### O25: SAMPLE one atomic step at a time -/

theorem rxPresent_eq_false {p : Params} (absent : p.rxPin = none) : ¬ p.rxPresent = true := by
  simp [rxPresent_iff, absent]

/-- With a receive pin SAMPLE starts SampleAnalogP (R97). -/
theorem exec_sample_of_present {s : State} (idle : s.eng.point = .idle) (present : s.params.rxPin ≠ none) :
    exec .sample s = .next (State.standing (.sample .read) (State.sampleBegun (State.inPhase .sample s))) := by
  rw [exec_of_idle .sample idle, startState, sampleStart, if_pos ((rxPresent_iff _).2 present)]
  rfl

/-- After the last reading SAMPLE is to complete with RESULT the value SampleAnalogP returns (R97). -/
theorem exec_sample_of_last {s : State} (place : s.eng.point = .sample .read) (last : s.lastReading) :
    exec .sample s = .next (State.standing (.finish (.withResult s.oversample)) s.sampled) := by
  simp only [exec_of_place place rfl, advance, sampleAt, sampleStep_of_last last]
  rfl

/-- Settles O25: the pin decides the first step, and the last reading is followed by the completion. -/
theorem sampleStepByStep : Obligations.SampleStepByStep := by
  refine ⟨decodeWord_encode .sample, rfl, fun s => ⟨fun idle absent => ?_, exec_sample_of_present,
    exec_sample_of_last⟩⟩
  rw [exec_of_idle .sample idle, startState, sampleStart, if_neg (rxPresent_eq_false absent)]
  rfl

/-! ### O26: CALIB one atomic step at a time -/

theorem toNat_minHalf (a b : Half) : (minHalf a b).toNat = min a.toNat b.toNat := by
  rw [minHalf, apply_ite BitVec.toNat, min_def]

theorem toNat_maxHalf (a b : Half) : (maxHalf a b).toNat = max a.toNat b.toNat := by
  rw [maxHalf, apply_ite BitVec.toNat, max_def]

theorem calibrated_eq (mn mx : Half) : calibrated mn mx =
    BitVec.ofNat 16 (if mx.toNat - mn.toNat < 10 then mn.toNat else (mn.toNat + mx.toNat) / 2) := by
  rw [calibrated, apply_ite (BitVec.ofNat 16), BitVec.ofNat_toNat, BitVec.setWidth_eq]
  rfl

/-- `s` with its calibration range grown by the sample `v` (R98). -/
def State.ranged (v : Half) (s : State) : State :=
  { s with eng := { s.eng with mn := minHalf s.eng.mn v, mx := maxHalf s.eng.mx v } }

/-- Before the last calibration sample the wait between samples follows (R98). -/
theorem calibSampled_of_lt (v : Half) {s : State} (more : s.eng.calK + 1 < s.eng.a0.toNat) :
    calibSampled v s = State.standing (.calib .gapWait) (s.ranged v) :=
  if_pos more

/-- After the last calibration sample THRESH is set from the range (R98). -/
theorem calibSampled_of_le (v : Half) {s : State} (last : s.eng.a0.toNat ≤ s.eng.calK + 1) :
    calibSampled v s = State.standing (.finish .success)
      (setThresh (calibrated (minHalf s.eng.mn v) (maxHalf s.eng.mx v)) (s.ranged v)) :=
  if_neg (Nat.not_lt.2 last)

/-- Without a receive pin, or with count 0, CALIB is a no-op (R98). -/
theorem exec_calib_of_noop {s : State} (idle : s.eng.point = .idle) (noop : s.params.rxPin = none ∨ s.eng.a0 = 0) :
    exec .calib s = .next (State.completed true .noError s) := by
  have off : ¬ (s.params.rxPresent && s.eng.a0 ≠ 0) = true := by
    obtain absent | zero := noop
    · simp [rxPresent_eq_false absent]
    · simp [zero]
  rw [exec_of_idle .calib idle, startState, calibStart, if_neg off]
  rfl

/-- With a receive pin and a count CALIB starts with an empty range at its first calibration sample (R98). -/
theorem exec_calib_of_present {s : State} (idle : s.eng.point = .idle) (present : s.params.rxPin ≠ none)
    (count : s.eng.a0 ≠ 0) : exec .calib s = .next (State.standing (.calib (.sampling .read))
      (State.sampleBegun { s with eng := { s.eng with phase := .cal, mn := 65535, mx := 0, calK := 0 } })) := by
  have on : (s.params.rxPresent && s.eng.a0 ≠ 0) = true := by
    simpa [(rxPresent_iff _).2 present] using count
  rw [exec_of_idle .calib idle, startState, calibStart, if_pos on]
  rfl

/-- CALIB goes on with the value that SampleAnalogP returns (R98). -/
theorem exec_calib_of_last {s : State} (place : s.eng.point = .calib (.sampling .read)) (last : s.lastReading) :
    exec .calib s = .next (calibSampled s.oversample s.sampled) := by
  simp only [exec_of_place place rfl, advance, calibAt, sampleStep_of_last last]

/-- After the wait between samples the next calibration sample is due (R98). -/
theorem exec_calib_gapWait {s : State} (place : s.eng.point = .calib .gapWait) :
    exec .calib s = .next (State.standing (.calib (.sampling .read)) (State.sampleBegun
      (State.waited s.eng.a1.toNat { s with eng := { s.eng with calK := s.eng.calK + 1 } }))) :=
  exec_of_place place rfl

/-- Settles O26: pin and count decide the first step; after a calibration sample the count decides between the wait and
THRESH. -/
theorem calibStepByStep : Obligations.CalibStepByStep := by
  refine ⟨decodeWord_encode .calib, rfl, fun s => ⟨exec_calib_of_noop, exec_calib_of_present,
    fun place last => ⟨minHalf s.eng.mn s.oversample, maxHalf s.eng.mx s.oversample, toNat_minHalf _ _,
      toNat_maxHalf _ _, fun more => ?_, fun done => ?_⟩, exec_calib_gapWait⟩⟩
  · rw [exec_calib_of_last place last, calibSampled_of_lt (s := s.sampled) _ more]
    rfl
  · rw [exec_calib_of_last place last, calibSampled_of_le (s := s.sampled) _ done, calibrated_eq]
    rfl

/-! ### Averages and extremes of readings -/

/-- The value SampleAnalogP returns for the readings `g` (R94, R95). -/
def groupSample (g : List Half) : Half := BitVec.ofNat 16 (averageOf g)

theorem le_averageOf {g : List Half} (nonempty : 0 < g.length) {lo : Nat} (lower : ∀ r ∈ g, lo ≤ r.toNat) :
    lo ≤ averageOf g := by
  have sum := List.card_nsmul_le_sum (g.map BitVec.toNat) lo (by simpa using lower)
  rw [List.length_map, smul_eq_mul, Nat.mul_comm] at sum
  exact (Nat.le_div_iff_mul_le nonempty).2 sum

theorem averageOf_le {g : List Half} {hi : Nat} (upper : ∀ r ∈ g, r.toNat ≤ hi) : averageOf g ≤ hi := by
  have sum := List.sum_le_card_nsmul (g.map BitVec.toNat) hi (by simpa using upper)
  rw [List.length_map, smul_eq_mul] at sum
  exact Nat.div_le_of_le_mul sum

/-- An average of 16-bit readings has 16 bits. -/
theorem averageOf_le_max (g : List Half) : averageOf g ≤ 65535 :=
  averageOf_le fun r _ => Nat.le_of_lt_succ r.isLt

theorem toNat_groupSample (g : List Half) : (groupSample g).toNat = averageOf g :=
  Nat.mod_eq_of_lt (Nat.lt_succ_of_le (averageOf_le_max g))

/-- The range's minimum, from `a`, after one calibration sample per group (R98). -/
def smallestSample (a : Half) (groups : List (List Half)) : Half := (groups.map groupSample).foldl minHalf a

/-- The range's maximum, from `a`, after one calibration sample per group (R98). -/
def largestSample (a : Half) (groups : List (List Half)) : Half := (groups.map groupSample).foldl maxHalf a

/-- From 65535 the range's minimum comes to the smallest average (R98). -/
theorem toNat_smallestSample {groups : List (List Half)} {mn : Nat} (attained : ∃ g ∈ groups, averageOf g = mn)
    (lower : ∀ g ∈ groups, mn ≤ averageOf g) : (smallestSample 65535 groups).toNat = mn := by
  have fold : (groups.map averageOf).foldl min 65535 = (smallestSample 65535 groups).toNat := by
    rw [smallestSample, List.foldl_map, List.foldl_map]
    exact List.foldl_hom BitVec.toNat (init := (65535 : Half)) fun a g => by rw [toNat_minHalf, toNat_groupSample]
  have least : (65535 :: groups.map averageOf).min? = some mn := by
    obtain ⟨g, mem, rfl⟩ := attained
    exact List.min?_eq_some_iff.2 ⟨.tail _ (List.mem_map_of_mem mem), by simpa [averageOf_le_max] using lower⟩
  rw [List.min?_cons', Option.some.injEq] at least
  rw [← fold, least]

/-- From 0 the range's maximum comes to the largest average (R98). -/
theorem toNat_largestSample {groups : List (List Half)} {mx : Nat} (attained : ∃ g ∈ groups, averageOf g = mx)
    (upper : ∀ g ∈ groups, averageOf g ≤ mx) : (largestSample 0 groups).toNat = mx := by
  have fold : (groups.map averageOf).foldl max 0 = (largestSample 0 groups).toNat := by
    rw [largestSample, List.foldl_map, List.foldl_map]
    exact List.foldl_hom BitVec.toNat (init := (0 : Half)) fun a g => by rw [toNat_maxHalf, toNat_groupSample]
  have greatest : (0 :: groups.map averageOf).max? = some mx := by
    obtain ⟨g, mem, rfl⟩ := attained
    exact List.max?_eq_some_iff.2 ⟨.tail _ (List.mem_map_of_mem mem), by simpa using upper⟩
  rw [List.max?_cons', Option.some.injEq] at greatest
  rw [← fold, greatest]

theorem toNat_calibrated (mn mx : Half) : (calibrated mn mx).toNat =
    if mx.toNat - mn.toNat < 10 then mn.toNat else (mn.toNat + mx.toNat) / 2 := by
  rw [calibrated_eq, BitVec.toNat_ofNat]
  split <;> omega

/-! ### A call of SampleAnalogP -/

/-- `s` after SampleAnalogP has issued the events `es`, the readings `samples` still to come; the engine stands at `p`
with `k` readings, of sum `sum`, behind it. -/
def State.oversampling (p : Point) (es : List Event) (samples : List Half) (k sum : Nat) (s : State) : State :=
  { s with
    events := s.events ++ es
    env := { s.env with samples := samples }
    eng := { s.eng with point := p, k := k, sum := sum } }

/-- With one reading a sample the call changes nothing (R94). -/
theorem sampleBegun_of_single (p : Point) {s : State} (single : s.spb.toNat ≤ 1) :
    State.standing p s.sampleBegun = s.oversampling p [] s.env.samples s.eng.k s.eng.sum := by
  simp only [State.sampleBegun, if_pos single, State.standing, State.oversampling, List.append_nil]

/-- With more it clears e.k and e.sum (R94). -/
theorem sampleBegun_of_several (p : Point) {s : State} (several : ¬ s.spb.toNat ≤ 1) :
    State.standing p s.sampleBegun = s.oversampling p [] s.env.samples 0 0 := by
  simp only [State.sampleBegun, if_neg several, State.standing, State.oversampling, List.append_nil]

/-- The events of readings each followed by the wait (R94). -/
def spacedReadings (spacing : Nat) (readings : List Half) : List Event :=
  readings.flatMap fun r => [.sample r, .wait spacing]

theorem oversampleEvents_concat (spacing : Nat) (readings : List Half) (r : Half) :
    oversampleEvents spacing (readings ++ [r]) = spacedReadings spacing readings ++ [.sample r] := by
  induction readings with
  | nil => rfl
  | cons v rest ih =>
    have step : oversampleEvents spacing (v :: (rest ++ [r])) =
        .sample v :: .wait spacing :: oversampleEvents spacing (rest ++ [r]) := by
      cases rest <;> rfl
    rw [List.cons_append, step, ih]
    rfl

section
variable {i : Instr} {f : SampleAt → Point} {s : State} (run : s.Undisturbed i)
include run

theorem State.Undisturbed.oversampling (p : Point) (es : List Event) (samples : List Half) (k sum : Nat) :
    (s.oversampling p es samples k sum).Undisturbed i :=
  ⟨run.busy, run.op, run.agenda⟩

/-- A reading that is not the last is two steps, the reading and the wait after it (R94). -/
theorem State.Undisturbed.steps_reading (h : SampleIn i f) (es : List Event) (r : Half) (samples : List Half)
    {k : Nat} (sum : Nat) (more : k + 1 < s.spb.toNat) (n : Nat) :
    steps (n + 2) (s.oversampling (f .read) es (r :: samples) k sum) =
      steps n (s.oversampling (f .read) (es ++ [.sample r, .wait s.spacing.toNat]) samples (k + 1)
        (sum + r.toNat)) := by
  have several : ¬ s.spb.toNat ≤ 1 := by omega
  let u := s.oversampling (f .read) es (r :: samples) k sum
  let spaced := s.oversampling (f .space) (es ++ [.sample r]) samples k (sum + r.toNat)
  obtain ⟨read, -⟩ := oversamplingWaitsBetweenReadings i f u h
  obtain ⟨-, wait⟩ := oversamplingWaitsBetweenReadings i f spaced h
  have left : ¬ u.lastReading := not_or.2 ⟨several, Nat.not_le.2 more⟩
  have sampled : State.standing (f .space) u.sampled = spaced := by
    have add : (if u.spb.toNat ≤ 1 then u.eng.sum else u.eng.sum + (sampleValue u).toNat) = sum + r.toNat :=
      if_neg several
    simp only [State.sampled, add]
    simp only [u, spaced, State.standing, State.oversampling, List.append_assoc]
    rfl
  have step := read rfl left
  rw [sampled] at step
  rw [(run.oversampling _ es _ k sum).steps_succ step, (run.oversampling _ _ _ k _).steps_succ (wait rfl)]
  simp only [spaced, State.standing, State.waited, State.oversampling, List.append_assoc, List.cons_append,
    List.nil_append]

/-- Readings of which none is the last (R94). -/
theorem State.Undisturbed.steps_readings (h : SampleIn i f) (es : List Event) (readings samples : List Half)
    {k : Nat} (sum : Nat) (more : k + readings.length < s.spb.toNat) (n : Nat) :
    steps (2 * readings.length + n) (s.oversampling (f .read) es (readings ++ samples) k sum) =
      steps n (s.oversampling (f .read) (es ++ spacedReadings s.spacing.toNat readings) samples
        (k + readings.length) (sum + (readings.map BitVec.toNat).sum)) := by
  induction readings generalizing es k sum with
  | nil => simp [spacedReadings]
  | cons r rest ih =>
    rw [List.length_cons] at more ⊢
    rw [show 2 * (rest.length + 1) + n = 2 * rest.length + n + 2 by omega, List.cons_append,
      run.steps_reading h es r _ sum (by omega), ih _ _ (by omega)]
    simp only [spacedReadings, List.flatMap_cons, List.append_assoc, List.map_cons, List.sum_cons, Nat.add_assoc,
      Nat.add_comm 1]

/-- A call of SampleAnalogP with the readings `before` and `r` comes, with a wait after each of `before`, to its last
reading, at which it is to return their average (R94). -/
theorem State.Undisturbed.steps_toLastReading (h : SampleIn i f) {before more : List Half} {r : Half}
    (length : before.length + 1 = s.spb.toNat) (samples : s.env.samples = before ++ r :: more) (n : Nat) :
    ∃ k sum, let u := s.oversampling (f .read) (spacedReadings s.spacing.toNat before) (r :: more) k sum
      steps (2 * before.length + n) (State.standing (f .read) s.sampleBegun) = steps n u ∧ u.lastReading ∧
      u.oversample = groupSample (before ++ [r]) := by
  by_cases single : s.spb.toNat ≤ 1
  · obtain rfl : before = [] := List.length_eq_zero_iff.1 (by omega)
    refine ⟨s.eng.k, s.eng.sum, ?_, .inl single, ?_⟩
    · rw [sampleBegun_of_single _ single, samples, List.length_nil, Nat.mul_zero, Nat.zero_add]
      rfl
    · rw [State.oversample, if_pos (by exact single), groupSample]
      simp [averageOf, State.oversampling, sampleValue]
  · refine ⟨0 + before.length, 0 + (before.map BitVec.toNat).sum, ?_, .inr ?_, ?_⟩
    · rw [sampleBegun_of_several _ single, samples, run.steps_readings h [] before _ _ (by omega)]
      rfl
    · show s.spb.toNat ≤ 0 + before.length + 1
      omega
    · rw [State.oversample, if_neg (by exact single), groupSample, averageOf]
      simp [length, State.oversampling, sampleValue]

/-- A caller that goes on with `g` after SampleAnalogP's last reading goes on with the readings' truncated average after
SPB of them, with a wait between every two (R94, R95). -/
theorem State.Undisturbed.steps_sampleAnalog (h : SampleIn i f) {g : Half → State → State}
    (goesOn : ∀ u : State, u.eng.point = f .read → u.lastReading → exec i u = .next (g u.oversample u.sampled))
    (pos : 1 ≤ s.spb.toNat) {readings more : List Half} (length : readings.length = s.spb.toNat)
    (samples : s.env.samples = readings ++ more) (n : Nat) :
    ∃ k sum, steps (2 * s.spb.toNat + n) (State.standing (f .read) s.sampleBegun) =
      steps (n + 1) (g (groupSample readings)
        (s.oversampling (f .read) (oversampleEvents s.spacing.toNat readings) more k sum)) := by
  obtain rfl | ⟨before, r, rfl⟩ := readings.eq_nil_or_concat'
  · simp [← length] at pos
  rw [List.length_append, List.length_singleton] at length
  rw [List.append_assoc, List.singleton_append] at samples
  obtain ⟨k, sum, start, last, value⟩ := run.steps_toLastReading h length samples (n + 2)
  let u := s.oversampling (f .read) (spacedReadings s.spacing.toNat before) (r :: more) k sum
  have sampled : u.sampled = s.oversampling (f .read) (oversampleEvents s.spacing.toNat (before ++ [r])) more k
      u.sampled.eng.sum := by
    rw [oversampleEvents_concat]
    simp only [u, State.sampled, State.oversampling, List.append_assoc]
    rfl
  refine ⟨k, u.sampled.eng.sum, ?_⟩
  rw [← sampled, ← value, ← (run.oversampling _ _ _ k sum).steps_succ (goesOn u rfl last), ← start, ← length]
  congr 1
  omega

end

/-! ### O36: a whole SAMPLE -/

/-- A command that stands at a completion completes in one step (R16). -/
theorem State.Undisturbed.steps_finish {i : Instr} {c : Completion} {s : State} (run : s.Undisturbed i)
    (finishes : finishing i) (place : s.eng.point = .finish c) : steps 1 s = .next (complete c s) := by
  obtain ⟨hbd, hspb, hthr, -⟩ := finishes
  exact run.steps_succ (exec_of_finish place hbd hspb hthr) 0

/-- Settles O36: the issue calls SampleAnalogP, after which SAMPLE completes with what it returns. -/
theorem sampleAveragesItsReadings : Obligations.SampleAveragesItsReadings := by
  intro s readings more idle turn present pos length samples
  let issued := State.inPhase .sample (State.issued .sample { s with agenda := [] })
  have run : issued.Undisturbed .sample := ⟨rfl, rfl, rfl⟩
  have issue : step s = .next (State.standing (.sample .read) issued.sampleBegun) :=
    (step_issue (i := .sample) turn idle (by simp)).trans (exec_sample_of_present rfl present)
  obtain ⟨k, sum, sampled⟩ := run.steps_sampleAnalog .sample (f := .sample)
    (g := fun v u => State.standing (.finish (.withResult v)) u) (fun _ => exec_sample_of_last) pos length samples 0
  let last := State.standing (.finish (.withResult (groupSample readings)))
    (issued.oversampling (.sample .read) (oversampleEvents s.spacing.toNat readings) more k sum)
  have runLast : last.Undisturbed .sample := ⟨rfl, rfl, rfl⟩
  have finish : steps 1 last = .next (complete _ last) := runLast.steps_finish (by simp [finishing]) rfl
  have value : (groupSample readings).toNat = averageOf readings := toNat_groupSample readings
  refine ⟨_, (steps_succ issue _).trans (sampled.trans finish), ?_, fun lo lower => ?_, fun hi upper => ?_, rfl, rfl,
    rfl⟩
  · exact value.trans (by rw [averageOf, length])
  · exact (le_averageOf (length ▸ pos) lower).trans value.ge
  · exact value.le.trans (averageOf_le upper)

/-! ### O37: a whole CALIB -/

/-- What a calibration leaves but for THRESH, which the run does not read, leaves the run undisturbed. -/
theorem State.Undisturbed.of_setThresh_outer {i : Instr} {s u : State} (run : s.Undisturbed i) {v : Half}
    (outer : u.outer = setThresh v s.outer) : u.Undisturbed i :=
  ⟨(congrArg (·.status.busy) outer).trans run.busy, (congrArg (·.eng.op) outer).trans run.op,
    (congrArg State.agenda outer).trans run.agenda⟩

/-- `s` after CALIB's calibration sample `v` and the wait after it (R98). -/
def State.nextSample (v : Half) (s : State) : State :=
  State.waited s.eng.a1.toNat
    { s.ranged v with eng := { (s.ranged v).eng with point := .calib .gapWait, calK := s.eng.calK + 1 } }

theorem outer_nextSample (v : Half) (s : State) : (s.nextSample v).outer = s.outer := rfl

theorem State.Undisturbed.nextSample {i : Instr} {s : State} (run : s.Undisturbed i) (v : Half) :
    (s.nextSample v).Undisturbed i :=
  ⟨run.busy, run.op, run.agenda⟩

/-- Before the last calibration sample CALIB waits and is then at the next one's first reading (R98). -/
theorem State.Undisturbed.steps_calibGap {s : State} (run : s.Undisturbed .calib) {v : Half}
    (more : s.eng.calK + 1 < s.eng.a0.toNat) (n : Nat) : steps (n + 1) (calibSampled v s) =
      steps n (State.standing (.calib (.sampling .read)) (s.nextSample v).sampleBegun) := by
  have runGap : (State.standing (.calib .gapWait) (s.ranged v)).Undisturbed .calib := ⟨run.busy, run.op, run.agenda⟩
  rw [calibSampled_of_lt v more]
  exact runGap.steps_succ (exec_calib_gapWait rfl) n

/-- CALIB at the first reading of its next calibration sample, with the readings `groups` to come, takes them all and
sets THRESH from the range they make. -/
theorem State.Undisturbed.steps_calib {s : State} (run : s.Undisturbed .calib) (pos : 1 ≤ s.spb.toNat)
    {groups : List (List Half)} {more : List Half} (nonempty : groups ≠ [])
    (lengths : ∀ g ∈ groups, g.length = s.spb.toNat) (samples : s.env.samples = groups.flatten ++ more)
    (count : s.eng.calK + groups.length = s.eng.a0.toNat) (n : Nat) :
    ∃ u, steps (2 * s.spb.toNat * groups.length + n)
        (State.standing (.calib (.sampling .read)) s.sampleBegun) =
      steps (n + 1) (State.standing (.finish .success) u) ∧
      u.outer = setThresh (calibrated (smallestSample s.eng.mn groups) (largestSample s.eng.mx groups)) s.outer ∧
      u.env.samples = more := by
  induction groups generalizing s with
  | nil => exact absurd rfl nonempty
  | cons g rest ih =>
    obtain ⟨length, lengths'⟩ := List.forall_mem_cons.1 lengths
    rw [List.flatten_cons, List.append_assoc] at samples
    rw [List.length_cons] at count ⊢
    obtain ⟨k, sum, sampled⟩ := run.steps_sampleAnalog .calib (fun _ => exec_calib_of_last) pos length samples
      (2 * s.spb.toNat * rest.length + n)
    rw [show 2 * s.spb.toNat * (rest.length + 1) + n =
      2 * s.spb.toNat + (2 * s.spb.toNat * rest.length + n) by rw [Nat.mul_succ]; omega, sampled]
    let u := s.oversampling (.calib (.sampling .read)) (oversampleEvents s.spacing.toNat g) (rest.flatten ++ more) k sum
    by_cases last : rest = []
    · subst last
      have done : u.eng.a0.toNat ≤ u.eng.calK + 1 := count.ge
      rw [calibSampled_of_le (s := u) _ done, List.length_nil, Nat.mul_zero, Nat.zero_add]
      exact ⟨setThresh _ (u.ranged _), rfl, rfl, rfl⟩
    · have left : u.eng.calK + 1 < u.eng.a0.toNat := by
        have := List.length_pos_iff.2 last
        show s.eng.calK + 1 < s.eng.a0.toNat
        omega
      have count' : (u.nextSample (groupSample g)).eng.calK + rest.length = s.eng.a0.toNat := by
        show s.eng.calK + 1 + rest.length = s.eng.a0.toNat
        omega
      have runU : u.Undisturbed .calib := run.oversampling _ _ _ k sum
      rw [runU.steps_calibGap left]
      obtain ⟨v, finish, outer, samples'⟩ := ih (runU.nextSample _) pos last lengths' rfl count'
      rw [outer_nextSample] at outer
      exact ⟨v, finish, outer, samples'⟩

/-- Settles O37: the issue starts CALIB with an empty range, which comes to the smallest and the largest average. -/
theorem calibSetsThresholdFromItsSamples : Obligations.CalibSetsThresholdFromItsSamples := by
  intro s groups more mn mx idle turn present pos counted groupCount lengths samples smallest lower largest upper
  let issued := State.issued .calib { s with agenda := [] }
  let start : State := { issued with eng := { issued.eng with phase := .cal, mn := 65535, mx := 0, calK := 0 } }
  have run : start.Undisturbed .calib := ⟨rfl, rfl, rfl⟩
  have nonzero : s.arg0 ≠ 0 := fun zero => by simp [zero] at counted
  have nonempty : groups ≠ [] := fun empty => by simp [← groupCount, empty] at counted
  have issue : step s = .next (State.standing (.calib (.sampling .read)) start.sampleBegun) :=
    (step_issue (i := .calib) turn idle (by simp)).trans (exec_calib_of_present rfl present nonzero)
  obtain ⟨u, sampled, outer, left⟩ :=
    run.steps_calib pos nonempty lengths samples ((Nat.zero_add _).trans groupCount) 0
  have runLast : (State.standing (.finish .success) u).Undisturbed .calib := run.of_setThresh_outer outer
  have finish := runLast.steps_finish (by simp [finishing]) rfl
  have thresh : u.thresh = calibrated (smallestSample 65535 groups) (largestSample 0 groups) :=
    (congrArg State.thresh outer :)
  have status : u.status = issued.status := (congrArg State.status outer :)
  rw [groupCount] at sampled
  refine ⟨_, (steps_succ issue _).trans (sampled.trans finish), ?_, left, ?_, (congrArg State.bitdur outer :),
    (congrArg State.spb outer :), (congrArg State.spacing outer :), (congrArg State.polldly outer :)⟩
  · rw [← toNat_smallestSample smallest lower, ← toNat_largestSample largest upper, ← toNat_calibrated, ← thresh]
    rfl
  · show u.status.completed true .noError = _
    rw [status]
    rfl

end Sys2Proof.Machine

/-! The statements of the receive family: the start-bit search and byte reception inside every command that calls them
(R101, R106), WAITSTART, RXBYTE, RXMSG and RXLOOP one atomic step at a time (R105, R107, R109, R112), and whole runs of
them over given samples and clock advances (R104, R108 to R110). -/

namespace Sys2Proof.Machine

/-! ### O27: the start-bit search one atomic step at a time -/

/-- While WaitForStartBitP has not returned, its step is the command's (R101). -/
theorem exec_of_searchStep {i : Instr} {T : State → Nat} {f : SearchAt → Point} (h : SearchIn i T f) {p q : SearchAt}
    {s t : State} (place : s.eng.point = f p) (step : searchStep (T s) p s = .here q t) :
    exec i s = .next (State.standing (f q) t) := by
  cases h with
  | waitstart =>
    simp only [exec_of_place place rfl, advance, waitstartAt, step]
    rfl
  | rxbyte => exact exec_of_byteStep .rxbyte (p := .search p) (q := .search q) place (congrArg byteFromSearch step)
  | rxmsg => exact exec_of_byteStep .rxmsg (p := .search p) (q := .search q) place (congrArg byteFromSearch step)
  | rxloop => exact exec_of_byteStep .rxloop (p := .search p) (q := .search q) place (congrArg byteFromSearch step)

/-- The run counter after a call of SampleAnalogP is the one R101 names. -/
theorem runAfter_oversample (s : State) : runAfter s.oversample s.sampled = s.runNow := by
  simp only [runAfter, isLow, decide_eq_true_eq, State.runNow]
  rfl

/-- After SampleAnalogP's last reading the search judges what it returns (R101). -/
theorem searchStep_of_last (T : Nat) {s : State} (last : s.lastReading) :
    searchStep T (.sampling .read) s = searchJudge T s.oversample s.sampled := by
  simp only [searchStep, sampleStep_of_last last]

/-- `s` after a search sample that leaves the run at `runNow` (R101). -/
def State.judged (s : State) : State := { s.sampled with eng := { s.sampled.eng with run := s.runNow } }

/-- A run that is long enough confirms the start bit (R101, R102). -/
theorem searchStep_confirms (T : Nat) {s : State} (last : s.lastReading) (enough : s.eng.need ≤ s.runNow) :
    searchStep T (.sampling .read) s = .here .alignWait (State.inPhase .startDetected s.judged) := by
  rw [searchStep_of_last T last, searchJudge, runAfter_oversample]
  exact if_pos enough

/-- With a timeout a run that is too short is followed by the clock reading (R101). -/
theorem searchStep_goesOn {T : Nat} {s : State} (last : s.lastReading) (short : s.runNow < s.eng.need) (timed : T ≠ 0) :
    searchStep T (.sampling .read) s = .here .clock s.judged := by
  rw [searchStep_of_last T last, searchJudge, runAfter_oversample]
  exact (if_neg (Nat.not_le.2 short)).trans (if_neg timed)

/-- Single-shot, a run that is too short is a miss (R101). -/
theorem searchStep_misses {T : Nat} {s : State} (last : s.lastReading) (short : s.runNow < s.eng.need)
    (single : T = 0) : searchStep T (.sampling .read) s = .done (.notFound .noStart) s.judged := by
  rw [searchStep_of_last T last, searchJudge, runAfter_oversample]
  exact (if_neg (Nat.not_le.2 short)).trans (if_pos single)

/-- A clock reading at most `T` after the entry's lets the search go on (R101, R104). -/
theorem searchStep_inTime {T : Nat} {s : State} (early : (clockValue s - s.eng.t0).toNat ≤ T) :
    searchStep T .clock s = .here .pollWait s.clocked :=
  if_neg (Nat.not_lt.2 early)

/-- A clock reading more than `T` after the entry's ends the search (R101, R104). -/
theorem searchStep_timesOut {T : Nat} {s : State} (late : T < (clockValue s - s.eng.t0).toNat) :
    searchStep T .clock s = .done (.notFound .noStart) s.clocked :=
  if_pos late

/-- Settles O27: each place of the search stays inside it, the sample's place by the run it leaves, the clock's by the
time elapsed. -/
theorem startSearchStepByStep : Obligations.StartSearchStepByStep := fun _ _ _ _ h =>
  ⟨fun place => exec_of_searchStep h place rfl,
    fun place last enough => exec_of_searchStep h place (searchStep_confirms _ last enough),
    fun place last short timed => exec_of_searchStep h place (searchStep_goesOn last short timed),
    fun place early => exec_of_searchStep h place (searchStep_inTime early),
    fun place => exec_of_searchStep h place rfl⟩

/-! ### O28: WAITSTART one atomic step at a time -/

theorem toNat_ne_zero {w : Word} (nonzero : w ≠ 0) : w.toNat ≠ 0 := fun zero => nonzero (BitVec.eq_of_toNat_eq zero)

/-- Without a receive pin the search fails at once (R101). -/
theorem searchStart_of_absent (T : Nat) {s : State} (absent : s.params.rxPin = none) :
    searchStart T s = .done (.notFound .noRxPin) s :=
  if_neg (rxPresent_eq_false absent)

/-- With a receive pin the search is begun (R101). -/
theorem searchStart_of_present (T : Nat) {s : State} (present : s.params.rxPin ≠ none) :
    ∃ q t, searchStart T s = .here q t ∧ ∀ f, State.standing (f q) t = State.searchBegun T f s := by
  have begun : searchStart T s = searchBegin T s := if_pos ((rxPresent_iff _).2 present)
  by_cases zero : T = 0
  · subst zero
    exact ⟨_, _, begun, fun _ => rfl⟩
  · refine ⟨.mark, _, begun.trans (if_neg zero), fun f => ?_⟩
    simp only [State.searchBegun, if_neg zero, runNeeded]
    rfl

/-- When its search returns WAITSTART is to complete with what it returned (R105). -/
theorem exec_waitstart_of_done {p : SearchAt} {r : StartResult} {s t : State} (place : s.eng.point = .waitstart p)
    (step : searchStep s.eng.a0.toNat p s = .done r t) :
    exec .waitstart s = .next (State.standing (.finish (startCompletion r)) t) := by
  simp only [exec_of_place place rfl, advance, waitstartAt, step]
  rfl

/-- With a receive pin WAITSTART starts its search (R105). -/
theorem exec_waitstart_of_present {s : State} (idle : s.eng.point = .idle) (present : s.params.rxPin ≠ none) :
    exec .waitstart s = .next (State.searchBegun s.eng.a0.toNat Point.waitstart s) := by
  obtain ⟨q, t, start, begun⟩ := searchStart_of_present s.eng.a0.toNat present
  rw [exec_of_idle .waitstart idle, ← begun]
  simp only [startState, waitstartStart, start]
  rfl

/-- Settles O28: the pin decides the first step, and the search returns from the half-bit wait, from a single-shot miss
and from a late clock reading. -/
theorem waitstartStepByStep : Obligations.WaitstartStepByStep := by
  refine ⟨decodeWord_encode .waitstart, rfl, fun s => ⟨fun idle absent => ?_, exec_waitstart_of_present,
    fun place => exec_waitstart_of_done place rfl, fun place last short single =>
      exec_waitstart_of_done place (searchStep_misses last short (congrArg BitVec.toNat single)),
    fun place late => exec_waitstart_of_done place (searchStep_timesOut late)⟩⟩
  rw [exec_of_idle .waitstart idle]
  simp only [startState, waitstartStart, searchStart_of_absent _ absent]
  rfl

/-! ### O29: byte reception one atomic step at a time -/

/-- After a data sample at or below THRESH nothing is added to e.acc (R96, R106). -/
theorem byteStep_dataLow (T : Nat) {s : State} (last : s.lastReading) (low : s.oversample.toNat ≤ s.thresh.toNat) :
    byteStep T (.data .read) s = .here .dataWait s.sampled := by
  have isLow : isLow s.thresh s.oversample = true := decide_eq_true low
  simp only [byteStep, sampleStep_of_last last, dataSampled]
  rw [show withDataBit s.sampled.eng.acc s.sampled.eng.i (Machine.isLow s.sampled.thresh s.oversample) = s.eng.acc
    from if_pos isLow]
  rfl

/-- A data sample above THRESH sets its bit of e.acc (R96, R106). -/
theorem byteStep_dataHigh (T : Nat) {s : State} (last : s.lastReading) (high : s.thresh.toNat < s.oversample.toNat) :
    byteStep T (.data .read) s =
      .here .dataWait { s.sampled with eng := { s.sampled.eng with acc := s.eng.acc ||| 1#8 <<< s.eng.i } } := by
  have notLow : ¬ isLow s.thresh s.oversample = true := by simpa [isLow] using high
  simp only [byteStep, sampleStep_of_last last, dataSampled]
  rw [show withDataBit s.sampled.eng.acc s.sampled.eng.i (isLow s.sampled.thresh s.oversample) =
    s.eng.acc ||| 1#8 <<< s.eng.i from if_neg notLow]

/-- After data bits 0 to 6 the next data sample is due (R106). -/
theorem byteStep_dataWait_of_lt (T : Nat) {s : State} (more : s.eng.i + 1 < 8) :
    byteStep T .dataWait s = .here (.data .read) (State.sampleBegun (State.waited s.bitdur.toNat
      { s with eng := { s.eng with i := s.eng.i + 1, phase := .data ⟨s.eng.i + 1, more⟩ } })) := by
  have index : Fin.ofNat 8 (s.eng.i + 1) = ⟨s.eng.i + 1, more⟩ := Fin.ext (Nat.mod_eq_of_lt more)
  rw [← index]
  exact if_pos more

/-- After data bit 7 the stop sample is due (R106). -/
theorem byteStep_dataWait_of_le (T : Nat) {s : State} (last : 7 ≤ s.eng.i) :
    byteStep T .dataWait s = .here (.stop .read) (State.sampleBegun (State.waited s.bitdur.toNat
      (State.inPhase .stopCheck s))) :=
  if_neg (show ¬ s.eng.i + 1 < 8 by omega)

/-- A stop sample at or below THRESH is a desync (R106). -/
theorem byteStep_stopLow (T : Nat) {s : State} (last : s.lastReading) (low : s.oversample.toNat ≤ s.thresh.toNat) :
    byteStep T (.stop .read) s = .here .settleWait (State.inPhase .desync s.sampled) := by
  simp only [byteStep, sampleStep_of_last last, stopSampled]
  exact if_pos (decide_eq_true low)

/-- A stop sample above THRESH ends a valid frame (R106). -/
theorem byteStep_stopHigh (T : Nat) {s : State} (last : s.lastReading) (high : s.thresh.toNat < s.oversample.toNat) :
    byteStep T (.stop .read) s = .here .closeWait (State.inPhase .decoded s.sampled) := by
  simp only [byteStep, sampleStep_of_last last, stopSampled]
  exact if_neg (show ¬ isLow s.thresh s.oversample = true by simpa [isLow] using high)

/-- Settles O29: each place of byte reception stays inside it, a sample's place by the level it reads, the wait after a
data bit by the bit's index. -/
theorem byteReceptionStepByStep : Obligations.ByteReceptionStepByStep := fun _ _ _ h =>
  ⟨fun place => exec_of_byteStep h place rfl, fun place => exec_of_byteStep h place rfl,
    fun place last low => exec_of_byteStep h place (byteStep_dataLow _ last low),
    fun place last high => exec_of_byteStep h place (byteStep_dataHigh _ last high),
    fun more place => exec_of_byteStep h place (byteStep_dataWait_of_lt _ more),
    fun place last => exec_of_byteStep h place (byteStep_dataWait_of_le _ last),
    fun place last low => exec_of_byteStep h place (byteStep_stopLow _ last low),
    fun place last high => exec_of_byteStep h place (byteStep_stopHigh _ last high)⟩

/-! ### O30: RXBYTE one atomic step at a time -/

/-- Without a receive pin byte reception fails at once (R101, R106). -/
theorem byteStart_of_absent (T : Nat) {s : State} (absent : s.params.rxPin = none) :
    byteStart T s = .done (.fail .noRxPin) s :=
  congrArg byteFromSearch (searchStart_of_absent T absent)

/-- Single-shot, a miss of its search fails byte reception (R106). -/
theorem byteStep_misses {T : Nat} {s : State} (last : s.lastReading) (short : s.runNow < s.eng.need)
    (single : T = 0) : byteStep T (.search (.sampling .read)) s = .done (.fail .noStart) s.judged :=
  congrArg byteFromSearch (searchStep_misses last short single)

/-- A late clock reading of its search fails byte reception (R106). -/
theorem byteStep_timesOut {T : Nat} {s : State} (late : T < (clockValue s - s.eng.t0).toNat) :
    byteStep T (.search .clock) s = .done (.fail .noStart) s.clocked :=
  congrArg byteFromSearch (searchStep_timesOut late)

/-- When byte reception returns RXBYTE is to complete with what it returned (R107). -/
theorem exec_rxbyte_of_done {p : ByteAt} {r : ByteResult} {s t : State} (place : s.eng.point = .rxbyte p)
    (step : byteStep s.eng.a0.toNat p s = .done r t) :
    exec .rxbyte s = .next (State.standing (.finish (byteCompletion r)) t) := by
  simp only [exec_of_place place rfl, advance, rxbyteAt, step]
  rfl

/-- Settles O30: the pin decides the first step, and byte reception returns from its closing waits, from a single-shot
miss and from a late clock reading. -/
theorem rxbyteStepByStep : Obligations.RxbyteStepByStep := by
  refine ⟨decodeWord_encode .rxbyte, rfl, fun s => ⟨fun idle absent => ?_, exec_rxbyte_of_present,
    fun place => exec_rxbyte_of_done place rfl, fun place => exec_rxbyte_of_done place rfl,
    fun place last short single =>
      exec_rxbyte_of_done place (byteStep_misses last short (congrArg BitVec.toNat single)),
    fun place late => exec_rxbyte_of_done place (byteStep_timesOut late)⟩⟩
  rw [exec_of_idle .rxbyte idle]
  simp only [startState, rxbyteStart, byteStart_of_absent _ absent]
  rfl

/-! ### O31: RXMSG one atomic step at a time -/

/-- RXMSG's completion is the one R109 names. -/
theorem messageCompletion_eq (n : Nat) (ending : Ending) (e : Err) :
    messageCompletion n ending e = messageEnd n ending e := by
  cases n <;> rfl

/-- With a receive pin and bytes to go the head of RXMSG's loop begins the next search (R109). -/
theorem messageNext_of_present {s : State} (more : s.eng.n < s.eng.a0.toNat) (present : s.params.rxPin ≠ none) :
    ∃ q t, messageNext s = .here q t ∧
      State.standing (.rxmsg q) t = State.searchBegun s.eng.a1.toNat (fun q => .rxmsg (.search q)) s := by
  obtain ⟨q, t, start, begun⟩ := byteStart_of_present s.eng.a1.toNat .rxmsg present
  exact ⟨q, t, by simp only [messageNext, if_pos more, start], begun⟩

/-- Without a receive pin the message ends at the head of RXMSG's loop (R109). -/
theorem messageNext_of_absent {s : State} (more : s.eng.n < s.eng.a0.toNat) (absent : s.params.rxPin = none) :
    messageNext s = .done (messageEnd s.eng.n .rxFail .noRxPin) s := by
  simp only [messageNext, if_pos more, byteStart_of_absent _ absent, messageCompletion_eq]

/-- With as many bytes as are asked for the message ends at the head of RXMSG's loop (R109). -/
theorem messageNext_of_le {s : State} (full : s.eng.a0.toNat ≤ s.eng.n) :
    messageNext s = .done (messageEnd s.eng.n .maxChars .empty) s := by
  simp only [messageNext, if_neg (Nat.not_lt.2 full), messageCompletion_eq]

/-- A byte decoded by RXMSG is in MSGBUF after the closing wait (R109). -/
theorem appendByte_closed {s : State} (inside : s.eng.n < 256) :
    appendByte s.eng.acc (waitFor (halfBit s) s) = s.byteStored := by
  have stored : writeMsgByte s.eng.n s.eng.acc (waitFor (halfBit s) s) =
      writeByte (0x200 + s.eng.n) s.eng.acc (waitFor (halfBit s) s) := if_pos inside
  have index : (waitFor (halfBit s) s).eng.n = s.eng.n := rfl
  rw [appendByte, index, stored]
  rfl

/-- A line feed decoded ends the message (R109). -/
theorem messageStep_lineFeed {s : State} (inside : s.eng.n < 256) (feed : s.eng.acc = 0x0A) :
    messageStep .closeWait s = .done (messageEnd (s.eng.n + 1) .lineFeed .noError) s.byteStored := by
  rw [← appendByte_closed inside, ← messageCompletion_eq]
  exact if_pos feed

/-- Any other byte decoded leads to the head of the loop (R109). -/
theorem messageStep_other {s : State} (inside : s.eng.n < 256) (other : s.eng.acc ≠ 0x0A) :
    messageStep .closeWait s = messageNext s.byteStored := by
  rw [← appendByte_closed inside]
  exact if_neg other

/-- A failed byte ends the message with what was accumulated (R109). -/
theorem messageStep_of_fail {p : ByteAt} {e : Err} {s t : State}
    (step : byteStep s.eng.a1.toNat p s = .done (.fail e) t) :
    messageStep p s = .done (messageEnd t.eng.n .rxFail e) t := by
  simp only [messageStep, step, messageCompletion_eq]

/-- While the message goes on RXMSG stands inside byte reception (R109). -/
theorem exec_rxmsg_of_here {p q : ByteAt} {s t : State} (place : s.eng.point = .rxmsg p)
    (step : messageStep p s = .here q t) : exec .rxmsg s = .next (State.standing (.rxmsg q) t) := by
  simp only [exec_of_place place rfl, advance, rxmsgAt, step]
  rfl

/-- When the message has ended RXMSG is to complete (R109). -/
theorem exec_rxmsg_of_done {p : ByteAt} {c : Completion} {s t : State} (place : s.eng.point = .rxmsg p)
    (step : messageStep p s = .done c t) : exec .rxmsg s = .next (State.standing (.finish c) t) := by
  simp only [exec_of_place place rfl, advance, rxmsgAt, step]
  rfl

/-- RXMSG whose message ends at the head of its loop completes in its issuing step (R109, log 5). -/
theorem exec_rxmsg_of_ended {c : Completion} {s t : State} (idle : s.eng.point = .idle)
    (ended : messageNext { s with eng := { s.eng with n := 0 } } = .done c t) :
    exec .rxmsg s = .next (complete c t) := by
  rw [exec_of_idle .rxmsg idle]
  simp only [startState, rxmsgStart, ended]

/-- With a receive pin and bytes asked for RXMSG starts its first search (R109). -/
theorem exec_rxmsg_of_present {s : State} (idle : s.eng.point = .idle) (asked : s.eng.a0 ≠ 0)
    (present : s.params.rxPin ≠ none) :
    exec .rxmsg s = .next (State.searchBegun s.eng.a1.toNat (fun q => .rxmsg (.search q))
      { s with eng := { s.eng with n := 0 } }) := by
  obtain ⟨q, t, next, begun⟩ := messageNext_of_present (s := { s with eng := { s.eng with n := 0 } })
    (Nat.pos_of_ne_zero (toNat_ne_zero asked)) present
  rw [exec_of_idle .rxmsg idle, ← begun]
  simp only [startState, rxmsgStart, next]
  rfl

/-- A byte that is neither a line feed nor the last one asked for is followed by the next search (R109). -/
theorem exec_rxmsg_of_more {s : State} (place : s.eng.point = .rxmsg .closeWait) (inside : s.eng.n < 256)
    (other : s.eng.acc ≠ 0x0A) (more : s.eng.n + 1 < s.eng.a0.toNat) (present : s.params.rxPin ≠ none) :
    exec .rxmsg s =
      .next (State.searchBegun s.eng.a1.toNat (fun q => .rxmsg (.search q)) s.byteStored) := by
  obtain ⟨q, t, next, begun⟩ := messageNext_of_present (s := s.byteStored) more present
  rw [exec_rxmsg_of_here place ((messageStep_other inside other).trans next), begun]
  rfl

/-- A byte stored by RXMSG changes that byte of MSGBUF alone. -/
theorem readByte_byteStored (s : State) (a : Nat) :
    readByte s.byteStored a = if a = 0x200 + s.eng.n then s.eng.acc else readByte s a :=
  readByte_writeByte (0x200 + s.eng.n) a s.eng.acc s

/-- Settles O31: the head of the loop decides the first step and what follows a decoded byte that is no line feed; a
failed byte ends the message. -/
theorem rxmsgStepByStep : Obligations.RxmsgStepByStep := by
  refine ⟨decodeWord_encode .rxmsg, rfl, fun s => ⟨fun idle zero => ?_, fun idle asked absent => ?_,
    exec_rxmsg_of_present,
    fun place inside feed => exec_rxmsg_of_done place (messageStep_lineFeed inside feed),
    fun place inside other full => exec_rxmsg_of_done place ?_, exec_rxmsg_of_more, readByte_byteStored s,
    fun place => exec_rxmsg_of_done place (messageStep_of_fail (t := State.waited s.bitdur.toNat s) rfl),
    fun place last short single => exec_rxmsg_of_done place
      (messageStep_of_fail (byteStep_misses last short (congrArg BitVec.toNat single))),
    fun place late => exec_rxmsg_of_done place (messageStep_of_fail (byteStep_timesOut late))⟩⟩
  · have none_asked : s.eng.a0.toNat ≤ 0 := by simp [zero]
    exact exec_rxmsg_of_ended idle (messageNext_of_le (s := { s with eng := { s.eng with n := 0 } }) none_asked)
  · have some_asked : 0 < s.eng.a0.toNat := Nat.pos_of_ne_zero (toNat_ne_zero asked)
    exact exec_rxmsg_of_ended idle
      (messageNext_of_absent (s := { s with eng := { s.eng with n := 0 } }) some_asked absent)
  · exact (messageStep_other inside other).trans (messageNext_of_le (s := s.byteStored) full)

/-! ### O32: RXLOOP one atomic step at a time -/

/-- LoopT of R111 is positive. -/
theorem loopTimeout_ne_zero {s : State} (bias : 1 ≤ s.params.loopBias) : loopTimeout s ≠ 0 :=
  Nat.ne_of_gt (Nat.add_pos_right _ bias)

/-- A failed receive attempt is followed by the backoff wait (R112). -/
theorem exec_rxloop_of_fail {p : ByteAt} {e : Err} {s t : State} (place : s.eng.point = .rxloop (.byte p))
    (step : byteStep (loopTimeout s) p s = .done (.fail e) t) :
    exec .rxloop s = .next (State.standing (.rxloop .backoff) (State.inPhase .loopBackoff t)) := by
  simp only [exec_of_place place rfl, advance, rxloopAt, step]
  rfl

/-- Without a stop request the iteration check starts a receive attempt (R112, R113). -/
theorem exec_rxloop_check {s : State} (place : s.eng.point = .rxloop .check) (free : s.eng.stopReq = false) :
    exec .rxloop s = .next (loopFromByte (byteStart (loopTimeout s) s)) := by
  simp only [exec_of_place place rfl, advance, rxloopAt, loopCheck, free, Bool.false_eq_true, if_false]

/-- Without a receive pin the receive attempt fails at once (R112). -/
theorem exec_rxloop_of_absent {s : State} (place : s.eng.point = .rxloop .check) (free : s.eng.stopReq = false)
    (absent : s.params.rxPin = none) :
    exec .rxloop s = .next (State.standing (.rxloop .backoff) (State.inPhase .loopBackoff s)) := by
  rw [exec_rxloop_check place free, byteStart_of_absent _ absent]
  rfl

/-- With a receive pin the receive attempt begins a search with a timeout (R111, R112). -/
theorem exec_rxloop_of_present {s : State} (place : s.eng.point = .rxloop .check) (free : s.eng.stopReq = false)
    (present : s.params.rxPin ≠ none) (bias : 1 ≤ s.params.loopBias) :
    exec .rxloop s = .next (State.standing (.rxloop (.byte (.search .mark)))
      { s with eng := { s.eng with phase := .startSearch, need := 3 } }) := by
  obtain ⟨q, t, start, begun⟩ := byteStart_of_present (loopTimeout s) (fun q => .rxloop (.byte q)) present
  rw [State.searchBegun, if_neg (loopTimeout_ne_zero bias)] at begun
  rw [exec_rxloop_check place free, start, ← begun]
  rfl

/-- Settles O32: the stop request and the pin decide what the check does, the sink what an offer does; a receive attempt
that has returned leads to the sink or to the backoff wait. -/
theorem rxloopStepByStep : Obligations.RxloopStepByStep := by
  refine ⟨decodeWord_encode .rxloop, rfl, fun s => ⟨fun idle => exec_of_idle .rxloop idle, fun place stop => ?_,
    exec_rxloop_of_absent, exec_rxloop_of_present,
    fun place late => exec_rxloop_of_fail place (byteStep_timesOut late),
    fun place => exec_rxloop_of_fail place rfl, fun place => exec_of_place place rfl,
    fun place accepted => ?_, fun place declined => ?_, fun place => exec_of_place place rfl⟩⟩
  · simp only [exec_of_place place rfl, advance, rxloopAt, loopCheck, if_pos stop]
    rfl
  · simp only [exec_of_place place rfl, advance, rxloopAt, if_pos accepted]
    rfl
  · simp only [exec_of_place place rfl, advance, rxloopAt, declined, Bool.false_eq_true, if_false]
    rfl

/-! ### O44: RXLOOP without a receive pin -/

/-- Settles O44: a round is the iteration check, whose receive attempt fails at once, and the backoff wait. -/
theorem loopWithoutPinBacksOffForever : Obligations.LoopWithoutPinBacksOffForever := by
  intro s n busy op place free absent turns
  induction n generalizing s with
  | zero => exact ⟨s, rfl, by simp, rfl, place⟩
  | succ n ih =>
    let backing := State.standing (.rxloop .backoff) (State.inPhase .loopBackoff s)
    let checking := State.standing (.rxloop .check) (State.waited s.polldly.toNat backing)
    have run : s.Undisturbed .rxloop := ⟨busy, op, turns⟩
    have runBacking : backing.Undisturbed .rxloop := ⟨busy, op, turns⟩
    have wait : exec .rxloop backing = .next checking := exec_of_place rfl rfl
    obtain ⟨t, rounds, events, status, check⟩ := ih checking busy op rfl free absent turns
    refine ⟨t, ?_, ?_, status, check⟩
    · rw [Nat.mul_succ, run.steps_succ (exec_rxloop_of_absent place free absent), runBacking.steps_succ wait, rounds]
    · rw [events, List.replicate_succ]
      exact List.append_assoc s.events [.wait s.polldly.toNat] _

/-! ### Byte reception to its end, one raw reading a bit -/

/-- Any eight samples read as the bits of a byte. -/
theorem exists_readAs (thresh : Half) {data : List Half} (eight : data.length = 8) : ∃ b, ReadAs thresh data b 0 := by
  refine ⟨(BitVec.ofBoolListLE (data.map fun v => !isLow thresh v)).setWidth 8, ?_⟩
  rw [ReadAs, eight]
  refine List.ext_getElem (by simp [eight]) fun m hm _ => ?_
  rw [List.length_map] at hm
  have byte : m < 8 := eight ▸ hm
  simp [byte, hm]

theorem oversample_of_single {s : State} (single : s.spb.toNat = 1) : s.oversample = sampleValue s := if_pos single.le

theorem sampled_of_single {s : State} (single : s.spb.toNat = 1) : s.sampled = takeSample s := by
  simp only [State.sampled, if_pos single.le]
  rfl

section
variable {i : Instr} {f : ByteAt → Point} (h : ByteIn i f) {s : State} (run : s.Undisturbed i)
  (single : s.spb.toNat = 1)
include h run single

/-- Byte reception after its search comes, over eight data samples that read as the bits of `b`, to its stop sample
(R106). -/
theorem State.Undisturbed.steps_toStop (place : s.eng.point = f (.search .alignWait)) {data samples : List Half}
    {b : Byte} (readings : s.env.samples = data ++ samples) (eight : data.length = 8)
    (reads : ReadAs s.thresh data b 0) (n : Nat) :
    steps (n + 18) s = steps n (s.receiving (f (.stop .read))
      (.wait (s.bitdur.toNat / 2) :: .wait s.bitdur.toNat :: data.flatMap fun v => [.sample v, .wait s.bitdur.toNat])
      samples .stopCheck 7 b) := by
  let before : List Event := [.wait (s.bitdur.toNat / 2), .wait s.bitdur.toNat]
  have start : steps (n + 18) s =
      steps (n + 16) (s.receiving (f (.data .read)) before (data ++ samples) (.data 0) 0 (lowBits b 0)) := by
    conv_lhs => rw [← receiving_nil s, place, readings]
    rw [run.steps_alignWait h, run.steps_firstWait h single, lowBits_zero]
    rfl
  have bits := run.steps_dataSamples h single before samples (.data 0) n (by omega) (by omega) reads
  rw [eight] at bits
  exact start.trans bits

/-- A stop sample at or below THRESH is followed by the settling wait (R106). -/
theorem State.Undisturbed.steps_lowStopSample {v : Half} (low : v.toNat ≤ s.thresh.toNat) (es : List Event)
    (samples : List Half) (ph : Phase) (k : Nat) (acc : Byte) (n : Nat) :
    steps (n + 1) (s.receiving (f (.stop .read)) es (v :: samples) ph k acc) =
      steps n (s.receiving (f .settleWait) (es ++ [.sample v]) samples .desync k acc) := by
  let u := s.receiving (f (.stop .read)) es (v :: samples) ph k acc
  have value : u.oversample = v := oversample_of_single (s := u) single
  have step := byteStep_stopLow (receiveTimeout i u) (s := u) (.inl single.le) (value ▸ low)
  rw [(run.receiving _ es _ ph k acc).steps_byte h rfl step, sampled_of_single (by exact single)]
  simp only [u, State.standing, State.inPhase, takeSample, record, State.receiving, List.append_assoc]
  rfl

/-- The same with a low stop sample: byte reception comes to its settling wait (R106). -/
theorem State.Undisturbed.steps_desync (place : s.eng.point = f (.search .alignWait)) {data samples : List Half}
    {stop : Half} {b : Byte} (readings : s.env.samples = data ++ stop :: samples) (eight : data.length = 8)
    (reads : ReadAs s.thresh data b 0) (low : stop.toNat ≤ s.thresh.toNat) (n : Nat) :
    steps (n + 19) s =
      steps n (s.receiving (f .settleWait) (receptionEvents s.bitdur.toNat data stop) samples .desync 7 b) :=
  (run.steps_toStop h single place readings eight reads (n + 1)).trans
    (run.steps_lowStopSample h single low _ samples _ 7 b n)

end

/-- RXBYTE at a wait with which byte reception returns completes after it (R107). -/
theorem State.Undisturbed.steps_rxbyte_returns {s : State} (run : s.Undisturbed .rxbyte) {p : ByteAt} {r : ByteResult}
    {us : Nat} (place : s.eng.point = .rxbyte p) (step : byteStep s.eng.a0.toNat p s = .done r (waitFor us s)) :
    steps 2 s = .next (complete (byteCompletion r)
      (State.standing (.finish (byteCompletion r)) (State.waited us s))) := by
  have runLast : (State.standing (.finish (byteCompletion r)) (State.waited us s)).Undisturbed .rxbyte :=
    ⟨run.busy, run.op, run.agenda⟩
  exact (run.steps_succ (exec_rxbyte_of_done place step) 1).trans (runLast.steps_finish (by simp [finishing]) rfl)

section
variable {s : State} (run : s.Undisturbed .rxbyte) (single : s.spb.toNat = 1)
  (place : s.eng.point = .rxbyte (.search .alignWait)) {data samples : List Half} {stop : Half} {b : Byte}
  (readings : s.env.samples = data ++ stop :: samples) (eight : data.length = 8) (reads : ReadAs s.thresh data b 0)
include run single place readings eight reads

/-- RXBYTE after its search, with a high stop sample, completes with RESULT the byte (R106, R107). -/
theorem State.Undisturbed.steps_rxbyte_decoded (high : s.thresh.toNat < stop.toNat) :
    steps 21 s = .next (complete (byteCompletion (.byte b)) (State.standing (.finish (byteCompletion (.byte b)))
      (State.waited (s.bitdur.toNat / 2) (s.receiving (.rxbyte .closeWait)
        (receptionEvents s.bitdur.toNat data stop) samples .decoded 7 b)))) :=
  (run.steps_reception .rxbyte single place readings eight reads high 2).trans
    ((run.receiving _ _ samples _ 7 b).steps_rxbyte_returns rfl rfl)

/-- RXBYTE after its search, with a low stop sample, completes with DESYNC (R106, R107). -/
theorem State.Undisturbed.steps_rxbyte_desync (low : stop.toNat ≤ s.thresh.toNat) :
    steps 21 s = .next (complete (byteCompletion (.fail .desync)) (State.standing
      (.finish (byteCompletion (.fail .desync))) (State.waited s.bitdur.toNat (s.receiving (.rxbyte .settleWait)
        (receptionEvents s.bitdur.toNat data stop) samples .desync 7 b)))) :=
  (run.steps_desync .rxbyte single place readings eight reads low 2).trans
    ((run.receiving _ _ samples _ 7 b).steps_rxbyte_returns rfl rfl)

end

/-! ### O39: a low stop sample -/

/-- The issue of a single-shot RXBYTE, and the low sample that confirms its start bit: `s` with `rest` the samples
still to come (R101, R107). -/
def State.startConfirmed (start : Half) (rest : List Half) (s : State) : State :=
  let issued := State.issued .rxbyte { s with agenda := [] }
  State.inPhase .startDetected ((issued.searchEntered 1 issued.eng.t0).searching (.rxbyte (.search .alignWait))
    [.sample start] rest issued.env.clockSteps 1)

theorem undisturbed_startConfirmed (start : Half) (rest : List Half) (s : State) :
    (s.startConfirmed start rest).Undisturbed .rxbyte :=
  ⟨rfl, rfl, rfl⟩

/-- An idle machine whose host issues RXBYTE comes to the start-bit search (R50, R107). -/
theorem step_issue_rxbyte {s : State} (idle : s.status.busy = false)
    (turn : s.agenda = [.access (.write 0x000 0x00000009)]) (present : s.params.rxPin ≠ none) :
    step s = .next (State.searchBegun s.arg0.toNat (fun q => .rxbyte (.search q))
      (State.issued .rxbyte { s with agenda := [] })) :=
  (step_issue (i := .rxbyte) turn idle (by simp)).trans (exec_rxbyte_of_present rfl present)

/-- Single-shot, a low first sample confirms the start bit two steps after the turn (R101, R102). -/
theorem steps_startConfirmed {s : State} (idle : s.status.busy = false)
    (turn : s.agenda = [.access (.write 0x000 0x00000009)]) (present : s.params.rxPin ≠ none)
    (single : s.spb.toNat = 1) (zero : s.arg0 = 0) {start : Half} (low : start.toNat ≤ s.thresh.toNat)
    {rest : List Half} (samples : s.env.samples = start :: rest) (n : Nat) :
    steps (n + 2) s = steps n (s.startConfirmed start rest) := by
  let issued := State.issued .rxbyte { s with agenda := [] }
  have zero' : s.arg0.toNat = 0 := congrArg BitVec.toNat zero
  have samples' : issued.env.samples = start :: rest := samples
  have run : (issued.searchEntered 1 issued.eng.t0).Undisturbed .rxbyte := ⟨rfl, rfl, rfl⟩
  rw [steps_succ (step_issue_rxbyte idle turn present), zero', searchBegun_zero _ (s := issued) single, samples']
  exact run.steps_confirmingSample .rxbyte single [] rest _ 0 n (decide_eq_true low) (le_refl 1)

/-- Settles O39: the data samples read as some byte, and the low stop sample leads to the settling wait. -/
theorem lowStopSampleIsDesync : Obligations.LowStopSampleIsDesync := by
  intro s start stop data more idle turn present single zero low stopLow eight samples
  obtain ⟨b, reads⟩ := exists_readAs s.thresh eight
  have run := (undisturbed_startConfirmed start (data ++ stop :: more) s).steps_rxbyte_desync single rfl rfl eight reads
    stopLow
  refine ⟨_, (steps_startConfirmed idle turn present single zero low samples 21).trans run, rfl, rfl, ?_⟩
  refine ⟨.sample start :: .wait (s.bitdur.toNat / 2) :: .wait s.bitdur.toNat ::
    data.flatMap fun v => [.sample v, .wait s.bitdur.toNat], ?_⟩
  show s.events ++ [.sample start] ++ receptionEvents s.bitdur.toNat data stop ++ [.wait s.bitdur.toNat] = _
  simp [receptionEvents]

/-! ### O40: when byte reception samples -/

/-- Samples taken one interval apart from time `τ` on, as the channel gives them, follow the reference (R65). -/
theorem followsReference_spaced (c0 τ bd k m : Nat) (channel : Nat → Half) (rest : List Event) :
    followsReference c0 (some channel) (τ + k * bd)
      (((List.range' k m).map fun i => channel (τ + i * bd)).flatMap (fun v => [.sample v, .wait bd]) ++ rest) =
    followsReference c0 (some channel) (τ + (k + m) * bd) rest := by
  induction m generalizing k with
  | zero => rfl
  | succ m ih =>
    have next : τ + k * bd + bd = τ + (k + 1) * bd := by rw [Nat.succ_mul, Nat.add_assoc]
    have sum : k + (m + 1) = k + 1 + m := by omega
    rw [sum, ← ih (k + 1), ← next, List.range'_succ]
    simp [followsReference]

/-- The eight data samples after a start bit confirmed at time `a`, as the channel gives them (R108). -/
def bitSamples (channel : Nat → Half) (a bd : Nat) : List Half :=
  (List.range 8).map fun i => channel (a + bd / 2 + bd + i * bd)

/-- Byte reception whose start bit is confirmed at time `a` samples at a + bd/2 + bd + i·bd (R108). -/
theorem followsReference_reception (c0 a bd w : Nat) (channel : Nat → Half) :
    followsReference c0 (some channel) a
      (receptionEvents bd (bitSamples channel a bd) (channel (a + bd / 2 + bd + 8 * bd)) ++ [.wait w]) = true := by
  have bits := followsReference_spaced c0 (a + bd / 2 + bd) bd 0 8 channel
    [.sample (channel (a + bd / 2 + bd + 8 * bd)), .wait w]
  rw [Nat.zero_mul, Nat.add_zero, Nat.zero_add] at bits
  simp only [receptionEvents, bitSamples, List.range_eq_range', List.cons_append, List.append_assoc, List.nil_append,
    followsReference]
  rw [bits]
  simp [followsReference]

/-- Settles O40: whatever the samples read as, RXBYTE issues the events of byte reception and one wait more. -/
theorem singleShotSamplesAtBitIntervals : Obligations.SingleShotSamplesAtBitIntervals := by
  intro s channel a c0 more idle turn present single zero low samples
  let bd := s.bitdur.toNat
  let data := bitSamples channel a bd
  let stop := channel (a + bd / 2 + bd + 8 * bd)
  have eight : data.length = 8 := by simp [data, bitSamples]
  have samples' : s.env.samples = channel a :: (data ++ stop :: more) := by
    rw [samples, List.range_succ, List.map_append, List.append_assoc]
    rfl
  have confirmed := steps_startConfirmed idle turn present single zero low samples' 21
  obtain ⟨b, reads⟩ := exists_readAs s.thresh eight
  have run := undisturbed_startConfirmed (channel a) (data ++ stop :: more) s
  have issued (w : Nat) : s.events ++ [.sample (channel a)] ++ receptionEvents bd data stop ++ [.wait w] =
      s.events ++ (.sample (channel a) :: (receptionEvents bd data stop ++ [.wait w])) := by simp
  have follows (w : Nat) : followsReference c0 (some channel) a
      (.sample (channel a) :: (receptionEvents bd data stop ++ [.wait w])) = true := by
    simp [followsReference, data, stop, followsReference_reception]
  obtain high | stopLow := Nat.lt_or_ge s.thresh.toNat stop.toNat
  · exact ⟨_, _, confirmed.trans (run.steps_rxbyte_decoded single rfl rfl eight reads high), issued (bd / 2),
      follows (bd / 2), rfl⟩
  · exact ⟨_, _, confirmed.trans (run.steps_rxbyte_desync single rfl rfl eight reads stopLow), issued bd, follows bd,
      rfl⟩

/-! ### O43: a message, received -/

theorem Kept.undisturbed {i : Instr} {s t : State} (h : Kept s t) (run : s.Undisturbed i) : t.Undisturbed i :=
  ⟨by rw [h.status, run.busy], h.op.trans run.op, h.agenda.trans run.agenda⟩

theorem Kept.readByte {s t : State} (h : Kept s t) (a : Nat) : readByte t a = readByte s a := by
  simp only [Machine.readByte, h.mem, h.epoch]

/-- Eight samples that are low exactly at the zero bits of `b` read as `b`. -/
theorem readAs_of_isLow {thresh : Half} {v : Nat → Half} {b : Byte}
    (levels : ∀ m < 8, isLow thresh (v m) = !b.getLsbD m) : ReadAs thresh ((List.range 8).map v) b 0 := by
  rw [ReadAs, List.length_map, List.length_range, ← List.range_eq_range', List.map_map]
  exact List.map_congr_left fun m hm => levels m (List.mem_range.1 hm)

/-- A single-shot search that meets the frame of `b` leads byte reception to its closing wait, `b` received (R101,
R106). -/
theorem State.Undisturbed.steps_frameReceived {i : Instr} {f : ByteAt → Point} (h : ByteIn i f) {s : State}
    (run : s.Undisturbed i) (single : s.spb.toNat = 1) {hi lo : Half} (low : lo.toNat ≤ s.thresh.toNat)
    (high : s.thresh.toNat < hi.toNat) {b : Byte} {more : List Half}
    (samples : s.env.samples = frameSamples hi lo b ++ more) (n : Nat) :
    ∃ u, steps (n + 20) (State.searchBegun 0 (fun q => f (.search q)) s) = steps n u ∧ u.eng.point = f .closeWait ∧
      u.eng.acc = b ∧ Kept s u ∧ u.env.samples = more := by
  let data := (List.range 8).map fun m => channelSample hi lo (b.getLsbD m)
  let entered := s.searchEntered 1 s.eng.t0
  let confirmed := State.inPhase .startDetected
    (entered.searching (f (.search .alignWait)) [.sample lo] (data ++ hi :: more) s.env.clockSteps 1)
  let decoded := confirmed.receiving (f .closeWait) (receptionEvents s.bitdur.toNat data hi) more .decoded 7 b
  have runEntered : entered.Undisturbed i := ⟨run.busy, run.op, run.agenda⟩
  have runConfirmed : confirmed.Undisturbed i := ⟨run.busy, run.op, run.agenda⟩
  have frame : s.env.samples = lo :: (data ++ hi :: more) := by
    rw [samples, frameSamples_eq, List.cons_append, List.append_assoc, List.singleton_append]
  have reads : ReadAs s.thresh data b 0 := readAs_of_isLow fun m _ => isLow_channelSample low high _
  have confirm := runEntered.steps_confirmingSample h single [] (data ++ hi :: more) s.env.clockSteps 0 (n + 19)
    (decide_eq_true low) (le_refl 1)
  have receive := runConfirmed.steps_reception h single rfl rfl (by simp [data]) reads high n
  refine ⟨decoded, ?_, rfl, rfl, ?_, rfl⟩
  · rw [searchBegun_zero _ single, frame]
    exact confirm.trans receive
  · constructor <;> rfl

/-- The reason for which a message ends that is not cut short by a failed byte (R109). -/
def messageEnding (bytes : List Byte) : Ending := if bytes.getLast? = some 0x0A then .lineFeed else .maxChars

/-- With a byte accumulated a message ends with success (R109). -/
theorem messageEnd_of_pos {n : Nat} (pos : 0 < n) (ending : Ending) (e : Err) :
    messageEnd n ending e = ⟨true, .noError, none, some ⟨BitVec.ofNat 9 n, ending⟩⟩ := by
  simp only [messageEnd, decide_eq_true pos, if_neg pos.ne']

/-- A byte that is a line feed or the last one asked for ends the message (R109). -/
theorem exec_rxmsg_of_last {s : State} (place : s.eng.point = .rxmsg .closeWait) (inside : s.eng.n < 256)
    (ends : s.eng.n + 1 = s.eng.a0.toNat ∨ s.eng.acc = 0x0A) :
    exec .rxmsg s = .next (State.standing
      (.finish (messageEnd (s.eng.n + 1) (messageEnding [s.eng.acc]) .noError)) s.byteStored) := by
  by_cases feed : s.eng.acc = 0x0A
  · rw [show messageEnding [s.eng.acc] = .lineFeed from if_pos (congrArg some feed)]
    exact exec_rxmsg_of_done place (messageStep_lineFeed inside feed)
  · have full : s.eng.a0.toNat ≤ s.eng.n + 1 := (ends.resolve_right feed).ge
    rw [show messageEnding [s.eng.acc] = .maxChars from if_neg fun h => feed (Option.some.inj h)]
    exact exec_rxmsg_of_done place ((messageStep_other inside feed).trans (messageNext_of_le (s := s.byteStored) full))

/-- What RXMSG has done when it has taken `bytes` since `s`: they are in MSGBUF from byte e.n of `s` on, every other
byte is as it was, and the readings `more` are still to come (R109). -/
structure MessageTaken (s : State) (bytes : List Byte) (more : List Half) (t : State) : Prop where
  status : t.status = s.status
  result : t.result = s.result
  op : t.eng.op = s.eng.op
  agenda : t.agenda = s.agenda
  samples : t.env.samples = more
  stored : ∀ i : Nat, ∀ h : i < bytes.length, readByte t (0x200 + s.eng.n + i) = bytes[i]
  others : ∀ a : Nat, a < 0x200 + s.eng.n ∨ 0x200 + s.eng.n + bytes.length ≤ a → readByte t a = readByte s a

/-- One byte taken. -/
theorem messageTaken_byteStored {s u : State} {b : Byte} {more : List Half} (kept : Kept s u) (acc : u.eng.acc = b)
    (samples : u.env.samples = more) : MessageTaken s [b] more u.byteStored where
  status := kept.status
  result := kept.result
  op := kept.op
  agenda := kept.agenda
  samples := samples
  stored i hi := by
    obtain rfl : i = 0 := by simpa using hi
    rw [readByte_byteStored, kept.n]
    exact (if_pos rfl).trans acc
  others a ha := by
    rw [List.length_singleton] at ha
    rw [readByte_byteStored, kept.n, if_neg (by omega), kept.readByte]

/-- The bytes taken first and those taken after them. -/
theorem MessageTaken.cons {s t u : State} {b : Byte} {rest : List Byte} {more left : List Half}
    (first : MessageTaken s [b] more t) (index : t.eng.n = s.eng.n + 1) (second : MessageTaken t rest left u) :
    MessageTaken s (b :: rest) left u where
  status := second.status.trans first.status
  result := second.result.trans first.result
  op := second.op.trans first.op
  agenda := second.agenda.trans first.agenda
  samples := second.samples
  stored i hi := by
    cases i with
    | zero => exact (second.others _ (.inl (by omega))).trans (first.stored 0 (by simp))
    | succ i =>
      rw [show 0x200 + s.eng.n + (i + 1) = 0x200 + t.eng.n + i by omega]
      exact second.stored i (Nat.lt_of_succ_lt_succ hi)
  others a ha := by
    rw [List.length_cons] at ha
    rw [second.others a (by omega), first.others a (by rw [List.length_singleton]; omega)]

/-- RXMSG has `bytes` of its message still to receive, single-shot and with one reading a bit, from a channel that shows
their frames and then `more`; the message is full with them or ends with their only line feed (R109, R110). -/
structure MessageToCome (hi lo : Half) (more : List Half) (bytes : List Byte) (s : State) : Prop where
  run : s.Undisturbed .rxmsg
  single : s.spb.toNat = 1
  present : s.params.rxPin ≠ none
  shot : s.eng.a1.toNat = 0
  legal : s.eng.a0.toNat ≤ 256
  low : lo.toNat ≤ s.thresh.toNat
  high : s.thresh.toNat < hi.toNat
  fits : s.eng.n + bytes.length ≤ s.eng.a0.toNat
  inner : ∀ b ∈ bytes.dropLast, b ≠ 0x0A
  ends : s.eng.n + bytes.length = s.eng.a0.toNat ∨ bytes.getLast? = some 0x0A
  samples : s.env.samples = bytes.flatMap (frameSamples hi lo) ++ more

/-- After a byte that is not the last one of the message the others are to come. -/
theorem MessageToCome.byteStored {hi lo : Half} {more : List Half} {b : Byte} {rest : List Byte} {s u : State}
    (coming : MessageToCome hi lo more (b :: rest) s) (left : rest ≠ []) (kept : Kept s u)
    (samples : u.env.samples = rest.flatMap (frameSamples hi lo) ++ more) :
    MessageToCome hi lo more rest u.byteStored := by
  have run := kept.undisturbed coming.run
  have fits := coming.fits
  have inner := coming.inner
  have ends := coming.ends
  rw [List.length_cons] at fits ends
  rw [List.dropLast_cons_of_ne_nil left] at inner
  rw [List.getLast?_cons_of_ne_nil left] at ends
  have count : u.byteStored.eng.n + rest.length = s.eng.n + (rest.length + 1) := by
    show u.eng.n + 1 + rest.length = _
    rw [kept.n]
    omega
  exact ⟨⟨run.busy, run.op, run.agenda⟩, kept.spb ▸ coming.single, kept.params.symm ▸ coming.present,
    kept.a1 ▸ coming.shot, kept.a0 ▸ coming.legal, kept.thresh ▸ coming.low, kept.thresh ▸ coming.high,
    (count.trans_le fits).trans_eq (congrArg BitVec.toNat kept.a0).symm, fun c mem => inner c (.tail _ mem),
    ends.imp_left fun full => count.trans (full.trans (congrArg BitVec.toNat kept.a0).symm), samples⟩

/-- RXMSG, about to search for the first byte of what is left of its message, takes it all and is then to complete
(R109, R110). -/
theorem MessageToCome.steps_message {hi lo : Half} {more : List Half} {bytes : List Byte} {s : State}
    (coming : MessageToCome hi lo more bytes s) (nonempty : bytes ≠ []) (n : Nat) :
    ∃ t, steps (21 * bytes.length + n) (State.searchBegun 0 (fun q => .rxmsg (.search q)) s) =
        steps n (State.standing (.finish (messageEnd (s.eng.n + bytes.length) (messageEnding bytes) .noError)) t) ∧
      MessageTaken s bytes more t := by
  induction bytes generalizing s with
  | nil => exact absurd rfl nonempty
  | cons b rest ih =>
    have samples := coming.samples
    have fits := coming.fits
    have legal := coming.legal
    rw [List.flatMap_cons, List.append_assoc] at samples
    rw [List.length_cons] at fits ⊢
    obtain ⟨u, frame, place, acc, kept, left⟩ := coming.run.steps_frameReceived .rxmsg coming.single coming.low
      coming.high samples (21 * rest.length + n + 1)
    have run := kept.undisturbed coming.run
    have inside : u.eng.n < 256 := by rw [kept.n]; omega
    have taken := messageTaken_byteStored kept acc left
    rw [show 21 * (rest.length + 1) + n = 21 * rest.length + n + 1 + 20 by omega, frame]
    by_cases last : rest = []
    · subst last
      have ends : u.eng.n + 1 = u.eng.a0.toNat ∨ u.eng.acc = 0x0A := by
        rw [kept.n, kept.a0, acc]
        exact coming.ends.imp_right Option.some.inj
      refine ⟨u.byteStored, ?_, taken⟩
      rw [List.length_nil, Nat.mul_zero, Nat.zero_add, run.steps_succ (exec_rxmsg_of_last place inside ends), kept.n,
        acc]
    · have others : 0 < rest.length := List.length_pos_iff.2 last
      have other : b ≠ 0x0A := coming.inner b (by simp [List.dropLast_cons_of_ne_nil last])
      have more : u.eng.n + 1 < u.eng.a0.toNat := by rw [kept.n, kept.a0]; omega
      have goesOn := exec_rxmsg_of_more place inside (acc ▸ other) more (kept.params.symm ▸ coming.present)
      obtain ⟨t, message, taken'⟩ := ih (coming.byteStored last kept left) last
      have index : u.byteStored.eng.n = s.eng.n + 1 := congrArg (· + 1) kept.n
      have count : s.eng.n + 1 + rest.length = s.eng.n + (rest.length + 1) := by omega
      refine ⟨t, ?_, taken.cons index taken'⟩
      rw [run.steps_succ goesOn, kept.a1, coming.shot, message, index, count, messageEnding, messageEnding,
        List.getLast?_cons_of_ne_nil last]

/-- Settles O43: the issue starts the message at byte 0, and what it takes is all of its bytes. -/
theorem messageIsReceivedExactly : Obligations.MessageIsReceivedExactly := by
  intro s bytes hi lo more idle turn present single shot legal low high nonempty fits inner ends samples
  let issued := State.issued .rxmsg { s with agenda := [] }
  let start : State := { issued with eng := { issued.eng with n := 0 } }
  have shot' : s.arg1.toNat = 0 := congrArg BitVec.toNat shot
  have pos : 0 < bytes.length := List.length_pos_iff.2 nonempty
  have asked : s.arg0 ≠ 0 := fun zero => nonempty (by simpa [zero] using fits)
  have begun := exec_rxmsg_of_present (s := issued) rfl asked present
  rw [show issued.eng.a1.toNat = 0 from shot'] at begun
  have issue : step s = .next (State.searchBegun 0 (fun q => .rxmsg (.search q)) start) :=
    (step_issue (i := .rxmsg) turn idle (by simpa using legal)).trans begun
  have count : start.eng.n + bytes.length = bytes.length := Nat.zero_add _
  have coming : MessageToCome hi lo more bytes start := ⟨⟨rfl, rfl, rfl⟩, single, present, shot', legal, low, high,
    count.trans_le fits, inner, ends.imp_left count.trans, samples⟩
  obtain ⟨t, message, taken⟩ := coming.steps_message nonempty 1
  rw [count, messageEnd_of_pos pos] at message
  have runLast : (State.standing (.finish ⟨true, .noError, none, some ⟨BitVec.ofNat 9 bytes.length,
      messageEnding bytes⟩⟩) t).Undisturbed .rxmsg :=
    ⟨(congrArg Status.busy taken.status :), taken.op, taken.agenda⟩
  have finish := runLast.steps_finish (by simp [finishing]) rfl
  refine ⟨_, (steps_succ issue _).trans (message.trans finish), taken.stored, fun i beyond => taken.others _ ?_, rfl,
    ?_, taken.samples, taken.result⟩
  · exact .inr (by show 0x200 + 0 + bytes.length ≤ 0x200 + i; omega)
  · show t.status.completed true .noError = _
    rw [taken.status]
    rfl

/-! ### Rounds of a timed search, one raw reading a poll -/

/-- `s` with its clock at `now`. -/
def State.atClock (now : Nat) (s : State) : State := { s with env := { s.env with clock := now } }

theorem State.Undisturbed.atClock {i : Instr} {s : State} (run : s.Undisturbed i) (now : Nat) :
    (s.atClock now).Undisturbed i :=
  ⟨run.busy, run.op, run.agenda⟩

/-- The run after a sample `v` that follows a run of `r` lows (R101). -/
def runOf (thresh v : Half) (r : Nat) : Nat := if isLow thresh v then r + 1 else 0

theorem runNow_of_single {s : State} (single : s.spb.toNat = 1) :
    s.runNow = runOf s.thresh (sampleValue s) s.eng.run := by
  simp only [State.runNow, oversample_of_single single, runOf, isLow, decide_eq_true_eq]

/-- The 32-bit difference of two clock readings is at most the time between them, and is it when that has 32 bits
(R104). -/
theorem toNat_clock_sub {m n : Nat} (mono : m ≤ n) :
    (BitVec.ofNat 32 n - BitVec.ofNat 32 m).toNat = (n - m) % 2 ^ 32 := by
  rw [BitVec.toNat_sub, BitVec.toNat_ofNat, BitVec.toNat_ofNat]
  omega

/-- The timeout of a search depends on the operands and the configuration alone. -/
theorem SearchIn.timeout_eq {i : Instr} {T : State → Nat} {f : SearchAt → Point} (h : SearchIn i T f) {s t : State}
    (a0 : t.eng.a0 = s.eng.a0) (a1 : t.eng.a1 = s.eng.a1) (bitdur : t.bitdur = s.bitdur)
    (params : t.params = s.params) : T t = T s := by
  cases h with
  | waitstart => exact congrArg BitVec.toNat a0
  | rxbyte => exact congrArg BitVec.toNat a0
  | rxmsg => exact congrArg BitVec.toNat a1
  | rxloop => simp only [bitdur, params]

section
variable {i : Instr} {T : State → Nat} {f : SearchAt → Point} (h : SearchIn i T f) {s : State} (run : s.Undisturbed i)
  (single : s.spb.toNat = 1)
include h run single

/-- The timed search starts with the clock reading of its entry (R101). -/
theorem State.Undisturbed.steps_entry {timeout : Nat} (timed : timeout ≠ 0) {d entry : Nat}
    {clocks : List Nat} (advances : s.env.clockSteps = d :: clocks) (clock : s.env.clock + d = entry) (n : Nat) :
    steps (n + 1) (State.searchBegun timeout f s) =
      steps n (((s.searchEntered 3 (BitVec.ofNat 32 entry)).atClock entry).searching (f (.sampling .read))
        [.now (BitVec.ofNat 32 entry)] s.env.samples clocks 0) := by
  subst clock
  let marking := State.standing (f .mark) { s with eng := { s.eng with phase := .startSearch, need := 3 } }
  have runMarking : marking.Undisturbed i := ⟨run.busy, run.op, run.agenda⟩
  have begun : State.searchBegun timeout f s = marking := if_neg timed
  obtain ⟨mark, -⟩ := startSearchStepByStep i T f marking h
  rw [begun, runMarking.steps_succ (mark rfl), State.sampleBegun, if_pos (by exact single.le)]
  simp only [marking, State.standing, State.clocked, State.atClock, State.searching, State.searchEntered,
    Env.afterClock, clockValue, clockAdvance, advances]

variable (timed : T s ≠ 0) (es : List Event) {v : Half} (samples : List Half) (clocks : List Nat) (r n : Nat)

include timed in
/-- A sample that leaves the run short is followed by a clock reading (R101). -/
theorem State.Undisturbed.steps_shortSample (short : runOf s.thresh v r < s.eng.need) :
    steps (n + 1) (s.searching (f (.sampling .read)) es (v :: samples) clocks r) =
      steps n (s.searching (f .clock) (es ++ [.sample v]) samples clocks (runOf s.thresh v r)) := by
  let u := s.searching (f (.sampling .read)) es (v :: samples) clocks r
  obtain ⟨-, -, goesOn, -⟩ := startSearchStepByStep i T f u h
  have timed' : T u ≠ 0 := h.timeout_eq (s := s) (t := u) rfl rfl rfl rfl ▸ timed
  have after : u.runNow = runOf s.thresh v r := runNow_of_single (s := u) single
  rw [(run.searching _ es _ clocks r).steps_succ (goesOn rfl (.inl single.le) (after ▸ short) timed'), after,
    sampled_of_single (by exact single)]
  simp only [u, State.standing, takeSample, record, State.searching, List.append_assoc]
  rfl

omit single in
/-- A clock reading in time is followed by the poll wait (R101, R104). -/
theorem State.Undisturbed.steps_earlyClock {d : Nat}
    (early : (BitVec.ofNat 32 (s.env.clock + d) - s.eng.t0).toNat ≤ T s) :
    steps (n + 1) (s.searching (f .clock) es samples (d :: clocks) r) =
      steps n ((s.atClock (s.env.clock + d)).searching (f .pollWait) (es ++ [.now (BitVec.ofNat 32 (s.env.clock + d))])
        samples clocks r) := by
  let u := s.searching (f .clock) es samples (d :: clocks) r
  obtain ⟨-, -, -, inTime, -⟩ := startSearchStepByStep i T f u h
  have early' : (clockValue u - u.eng.t0).toNat ≤ T u := by
    rw [h.timeout_eq (s := s) (t := u) rfl rfl rfl rfl]
    exact early
  rw [(run.searching _ es samples _ r).steps_succ (inTime rfl early')]
  simp only [u, State.standing, State.clocked, State.atClock, State.searching, List.append_assoc]
  rfl

/-- After the poll wait the next sample is due (R101). -/
theorem State.Undisturbed.steps_nextPoll :
    steps (n + 1) (s.searching (f .pollWait) es samples clocks r) =
      steps n (s.searching (f (.sampling .read)) (es ++ [.wait s.polldly.toNat]) samples clocks r) := by
  let u := s.searching (f .pollWait) es samples clocks r
  obtain ⟨-, -, -, -, poll⟩ := startSearchStepByStep i T f u h
  rw [(run.searching _ es samples clocks r).steps_succ (poll rfl), State.sampleBegun, if_pos (by exact single.le)]
  simp only [u, State.standing, State.waited, State.searching, List.append_assoc]

/-- The events of a round of the timed search that reads `v` and then the clock at `now` (R101). -/
def roundEvents (polldly : Nat) (v : Half) (now : Nat) : List Event :=
  [.sample v, .now (BitVec.ofNat 32 now), .wait polldly]

include timed in
/-- A round of the timed search that neither confirms the start bit nor times out (R101, R104). -/
theorem State.Undisturbed.steps_round (short : runOf s.thresh v r < s.eng.need) {d : Nat}
    (early : (BitVec.ofNat 32 (s.env.clock + d) - s.eng.t0).toNat ≤ T s) :
    steps (n + 3) (s.searching (f (.sampling .read)) es (v :: samples) (d :: clocks) r) =
      steps n ((s.atClock (s.env.clock + d)).searching (f (.sampling .read))
        (es ++ roundEvents s.polldly.toNat v (s.env.clock + d)) samples clocks (runOf s.thresh v r)) := by
  rw [run.steps_shortSample h single timed es samples _ r _ short, run.steps_earlyClock h _ samples clocks _ _ early,
    (run.atClock (s.env.clock + d)).steps_nextPoll h single, List.append_assoc, List.append_assoc]
  rfl

end

/-! ### O42: a timed search that fails -/

/-- Rounds that read high samples and clock readings in time lead to the next sample (R101, R104). -/
theorem State.Undisturbed.steps_highRounds {i : Instr} {T : State → Nat} {f : SearchAt → Point} (h : SearchIn i T f)
    {s : State} (run : s.Undisturbed i) (single : s.spb.toNat = 1) (timed : T s ≠ 0) (need : 0 < s.eng.need)
    {entry : Nat} (t0 : s.eng.t0 = BitVec.ofNat 32 entry) (entered : entry ≤ s.env.clock) {advances : List Nat}
    (inTime : s.env.clock + advances.sum ≤ entry + T s) {highs : List Half}
    (high : ∀ v ∈ highs, s.thresh.toNat < v.toNat) (lengths : highs.length = advances.length) (es : List Event)
    (samples : List Half) (clocks : List Nat) (n : Nat) :
    ∃ es', steps (3 * advances.length + n)
        (s.searching (f (.sampling .read)) es (highs ++ samples) (advances ++ clocks) 0) =
      steps n ((s.atClock (s.env.clock + advances.sum)).searching (f (.sampling .read)) es' samples clocks 0) := by
  induction advances generalizing s highs es with
  | nil =>
    obtain rfl : highs = [] := List.length_eq_zero_iff.1 lengths
    exact ⟨es, by rw [List.length_nil, Nat.mul_zero, Nat.zero_add]; rfl⟩
  | cons d rest ih =>
    obtain ⟨v, highs, rfl⟩ := List.exists_cons_of_length_eq_add_one lengths
    obtain ⟨vHigh, high'⟩ := List.forall_mem_cons.1 high
    rw [List.sum_cons, ← Nat.add_assoc] at inTime ⊢
    have broken : runOf s.thresh v 0 = 0 := if_neg (by simpa [isLow] using vHigh)
    have early : (BitVec.ofNat 32 (s.env.clock + d) - s.eng.t0).toNat ≤ T s := by
      rw [t0, toNat_clock_sub (by omega)]
      exact (Nat.mod_le _ _).trans (by omega)
    have same : T (s.atClock (s.env.clock + d)) = T s := h.timeout_eq rfl rfl rfl rfl
    obtain ⟨es', rounds⟩ := ih (run.atClock (s.env.clock + d)) single (same ▸ timed) need t0
      (by exact entered.trans (Nat.le_add_right _ _)) (by rw [same]; exact inTime) high' (Nat.succ.inj lengths)
      (es ++ roundEvents s.polldly.toNat v (s.env.clock + d))
    refine ⟨es', ?_⟩
    rw [List.length_cons, show 3 * (rest.length + 1) + n = 3 * rest.length + n + 3 by omega, List.cons_append,
      List.cons_append, run.steps_round h single timed es _ _ 0 _ (broken.symm ▸ need) early, broken, rounds]
    rfl

/-- WAITSTART whose next sample leaves the run short and whose clock reading after it is more than the timeout after the
entry's completes with NO_START (R104, R105). -/
theorem State.Undisturbed.steps_lateRound {s : State} (run : s.Undisturbed .waitstart) (single : s.spb.toNat = 1)
    (timed : s.eng.a0.toNat ≠ 0) (es : List Event) {v : Half} (samples : List Half) {d : Nat} (clocks : List Nat)
    (r : Nat) (short : runOf s.thresh v r < s.eng.need)
    (late : s.eng.a0.toNat < (BitVec.ofNat 32 (s.env.clock + d) - s.eng.t0).toNat) :
    ∃ t, steps 3 (s.searching (.waitstart (.sampling .read)) es (v :: samples) (d :: clocks) r) = .next t ∧
      t.status = s.status.completed false .noStart ∧ t.env.samples = samples ∧ t.env.clockSteps = clocks ∧
      t.result = s.result ∧ t.msglen = s.msglen := by
  let u := s.searching (.waitstart .clock) (es ++ [.sample v]) samples (d :: clocks) (runOf s.thresh v r)
  have sample := run.steps_shortSample .waitstart single timed es samples (d :: clocks) r 2 short
  have runU : u.Undisturbed .waitstart := run.searching _ _ _ _ _
  have runLast : (State.standing (.finish (.failure .noStart)) u.clocked).Undisturbed .waitstart :=
    ⟨run.busy, run.op, run.agenda⟩
  have timeout := runU.steps_succ (exec_waitstart_of_done rfl (searchStep_timesOut late)) 1
  have finish := runLast.steps_finish (by simp [finishing]) rfl
  exact ⟨_, sample.trans (timeout.trans finish), rfl, rfl, rfl, rfl, rfl⟩

/-- Settles O42: all rounds but the last are in time; the last one's clock reading is the first one too late. -/
theorem timedSearchFailsWhenElapsedExceeds : Obligations.TimedSearchFailsWhenElapsedExceeds := by
  intro s highs more entry advances later idle turn present single nonzero high lengths samples clockSteps inTime late
    short
  obtain rfl | ⟨advances, d, rfl⟩ := advances.eq_nil_or_concat'
  · simp at late
  obtain rfl | ⟨highs, v, rfl⟩ := highs.eq_nil_or_concat'
  · simp at lengths
  simp only [List.length_append, List.length_singleton, Nat.add_right_cancel_iff, List.append_assoc,
    List.singleton_append, List.sum_append, List.sum_singleton] at lengths samples clockSteps inTime late short ⊢
  let issued := State.issued .waitstart { s with agenda := [] }
  let now := s.env.clock + entry
  let entered := (issued.searchEntered 3 (BitVec.ofNat 32 now)).atClock now
  have runIssued : issued.Undisturbed .waitstart := ⟨rfl, rfl, rfl⟩
  have run : entered.Undisturbed .waitstart := ⟨rfl, rfl, rfl⟩
  have timed : s.arg0.toNat ≠ 0 := toNat_ne_zero nonzero
  have issue : step s = .next (State.searchBegun s.arg0.toNat .waitstart issued) :=
    (step_issue (i := .waitstart) turn idle (by simp)).trans (exec_waitstart_of_present rfl present)
  have enter := runIssued.steps_entry .waitstart single timed clockSteps rfl (3 * advances.length + 3)
  have before : advances.sum ≤ s.arg0.toNat := by simpa using inTime advances.length (Nat.lt_succ_self _)
  obtain ⟨es, rounds⟩ := run.steps_highRounds .waitstart single timed (by decide : 0 < 3) rfl (le_refl now)
    (Nat.add_le_add_left before now) (fun w mem => high w (List.mem_append_left _ mem)) lengths
    [.now (BitVec.ofNat 32 now)] (v :: more) (d :: later) 3
  have broken : runOf s.thresh v 0 = 0 := if_neg (by simpa [isLow] using high v (by simp))
  have elapsed : s.arg0.toNat < (BitVec.ofNat 32 (now + advances.sum + d) - BitVec.ofNat 32 now).toNat := by
    rw [toNat_clock_sub (by omega), Nat.mod_eq_of_lt (by omega)]
    omega
  obtain ⟨t, fails, status, rest⟩ := (run.atClock (now + advances.sum)).steps_lateRound single timed es more later 0
    (broken.symm ▸ (by decide : 0 < 3)) elapsed
  refine ⟨t, ?_, status, rest⟩
  rw [show 3 * (advances.length + 1) + 2 = 3 * advances.length + 3 + 1 + 1 by omega, steps_succ issue, enter,
    show issued.env.samples = highs ++ v :: more from samples]
  exact rounds.trans fails

/-! ### O41: a timed reception -/

/-- Polls of which those from number `k` on read low, with the clock at `M j` in poll `j`, from poll `j` to poll
`k + 1`: the run is then two lows, one short of a start bit (R101, R102). -/
theorem State.Undisturbed.steps_polls {i : Instr} {T : State → Nat} {f : SearchAt → Point} (h : SearchIn i T f)
    {s : State} (run : s.Undisturbed i) (single : s.spb.toNat = 1) (timed : T s ≠ 0) (need : s.eng.need = 3) {k : Nat}
    {v : Nat → Half} (levels : ∀ j < k + 2, isLow s.thresh (v j) = decide (k ≤ j)) {M : Nat → Nat} (mono : Monotone M)
    (t0 : s.eng.t0 = BitVec.ofNat 32 (M 0)) (inTime : M (k + 1) - M 0 ≤ T s) (samples : List Half) (clocks : List Nat)
    {j m : Nat} (count : j + m = k + 2) (es : List Event) (n : Nat) :
    steps (3 * m + n) ((s.atClock (M (j - 1))).searching (f (.sampling .read)) es ((List.range' j m).map v ++ samples)
        ((List.range' j m).map (fun j => M j - M (j - 1)) ++ clocks) (j - k)) =
      steps n ((s.atClock (M (k + 1))).searching (f (.sampling .read))
        (es ++ (List.range' j m).flatMap fun j => roundEvents s.polldly.toNat (v j) (M j)) samples clocks 2) := by
  induction m generalizing j es with
  | zero =>
    obtain rfl : j = k + 2 := count
    simp [show k + 2 - k = 2 by omega]
  | succ m ih =>
    have after : runOf s.thresh (v j) (j - k) = j + 1 - k := by
      rw [runOf, levels j (by omega)]
      by_cases low : k ≤ j <;> simp [low] <;> omega
    have advance : M (j - 1) + (M j - M (j - 1)) = M j := Nat.add_sub_cancel' (mono (Nat.sub_le j 1))
    have early : (BitVec.ofNat 32 (M (j - 1) + (M j - M (j - 1))) - s.eng.t0).toNat ≤ T s := by
      rw [advance, t0, toNat_clock_sub (mono (Nat.zero_le j))]
      exact (Nat.mod_le _ _).trans ((Nat.sub_le_sub_right (mono (by omega)) _).trans inTime)
    have short : runOf s.thresh (v j) (j - k) < s.eng.need := by rw [after, need]; omega
    have same : T (s.atClock (M (j - 1))) = T s := h.timeout_eq rfl rfl rfl rfl
    have round := (run.atClock (M (j - 1))).steps_round h single (same ▸ timed) es
      ((List.range' (j + 1) m).map v ++ samples) ((List.range' (j + 1) m).map (fun j => M j - M (j - 1)) ++ clocks)
      (j - k) (3 * m + n) short (same.symm ▸ early)
    have rest := ih (j := j + 1) (by omega) (es ++ roundEvents s.polldly.toNat (v j) (M j))
    rw [List.range'_succ, show 3 * (m + 1) + n = 3 * m + n + 3 by omega, List.flatMap_cons, ← List.append_assoc, ← rest,
      Nat.add_sub_cancel, ← after, ← advance]
    exact round

/-- The clock in poll `j` of a search that starts at time `b0` and polls every 250 µs, in the reference timing model
(R65). -/
def pollClock (c0 b0 j : Nat) : Nat := c0 + (b0 + 250 * j) / 1000

theorem pollClock_mono (c0 b0 : Nat) : Monotone (pollClock c0 b0) := fun j j' le => by
  simp only [pollClock]
  omega

/-- The polls of a timed search, 250 µs apart, follow the reference where the samples are the channel's and the clock
readings the reference clock's (R65). -/
theorem followsReference_polls (c0 b0 j m : Nat) (channel : Nat → Half) (rest : List Event) :
    followsReference c0 (some channel) (b0 + 250 * j) (((List.range' j m).flatMap fun j =>
      roundEvents 250 (channel (b0 + 250 * j)) (pollClock c0 b0 j)) ++ rest) =
    followsReference c0 (some channel) (b0 + 250 * (j + m)) rest := by
  induction m generalizing j with
  | zero => rfl
  | succ m ih =>
    rw [show j + (m + 1) = j + 1 + m by omega, ← ih (j + 1), List.range'_succ]
    simp [followsReference, roundEvents, pollClock, Nat.mul_succ, Nat.add_assoc]

/-- The byte that a reception one bit late makes of `b`: its upper seven bits, and the stop bit on top (R108, C8). -/
theorem getLsbD_oneBitLate (b : Byte) {m : Nat} (hm : m < 8) :
    ((b >>> 1) ||| 0x80#8).getLsbD m = if m = 7 then true else b.getLsbD (m + 1) := by
  interval_cases m <;> simp [Nat.add_comm]

/-- What a receiver one bit late meets on a line that is idle until `e` and carries the frame of `b` from then on, seen
through a channel that tells the levels apart, when its first low sample is the one of time `b0 + 250 k` (R92, R108). -/
structure LateStart (thresh hi lo : Half) (b : Byte) (e b0 k : Nat) (channel : Nat → Half) : Prop where
  low : lo.toNat ≤ thresh.toNat
  high : thresh.toNat < hi.toNat
  line : ∀ τ : Nat, b0 ≤ τ → τ < e + 11000 →
    channel τ = channelSample hi lo (lineLevelAt τ e true (frameEvents 1000 b))
  begun : e ≤ b0 + 250 * k
  recent : b0 + 250 * k < e + 250

section
variable {thresh hi lo : Half} {b : Byte} {e b0 k : Nat} {channel : Nat → Half}
  (late : LateStart thresh hi lo b e b0 k channel)
include late

theorem LateStart.isLow_channel {τ : Nat} (after : b0 ≤ τ) (before : τ < e + 11000) :
    isLow thresh (channel τ) = !lineLevelAt τ e true (frameEvents 1000 b) := by
  rw [late.line τ after before, isLow_channelSample late.low late.high]

/-- The polls before the first low one read high, and the three from then on low: they are within the start bit
(R92). -/
theorem LateStart.polls {j : Nat} (hj : j < k + 3) : isLow thresh (channel (b0 + 250 * j)) = decide (k ≤ j) := by
  have begun := late.begun
  have recent := late.recent
  obtain ⟨start, -⟩ := frameOccupiesElevenBitDurations 1000 e (b0 + 250 * j) true b (by decide)
  rw [late.isLow_channel (by omega) (by omega)]
  by_cases first : k ≤ j
  · rw [start (by omega) (by omega)]
    simp [first]
  · rw [lineLevelAt_before (by omega)]
    simp [first]

/-- The data samples are a bit late: data sample `m` reads data bit `m + 1`, the last one the stop bit (R92, R108). -/
theorem LateStart.dataSamples {m : Nat} (hm : m < 8) :
    isLow thresh (channel (b0 + 250 * k + 2000 + m * 1000)) = !((b >>> 1) ||| 0x80#8).getLsbD m := by
  have begun := late.begun
  have recent := late.recent
  obtain ⟨-, data, stop, -⟩ :=
    frameOccupiesElevenBitDurations 1000 e (b0 + 250 * k + 2000 + m * 1000) true b (by decide)
  rw [late.isLow_channel (by omega) (by omega), getLsbD_oneBitLate b hm]
  split
  · rw [stop (by omega) (by omega)]
  · rw [data (m + 1) (by omega) (by omega) (by omega)]

/-- The data samples read as the byte of a reception one bit late (R108). -/
theorem LateStart.reads : ReadAs thresh (bitSamples channel (b0 + 250 * (k + 2)) 1000) ((b >>> 1) ||| 0x80#8) 0 := by
  have time : b0 + 250 * (k + 2) + 1000 / 2 + 1000 = b0 + 250 * k + 2000 := by omega
  rw [bitSamples, time]
  exact readAs_of_isLow fun m hm => late.dataSamples hm

/-- The stop sample reads the gap after the frame's stop bit (R92, R108). -/
theorem LateStart.stopSample :
    thresh.toNat < (channel (b0 + 250 * (k + 2) + 1000 / 2 + 1000 + 8 * 1000)).toNat := by
  have begun := late.begun
  have recent := late.recent
  generalize time : b0 + 250 * (k + 2) + 1000 / 2 + 1000 + 8 * 1000 = τ
  obtain ⟨-, -, stop, -⟩ := frameOccupiesElevenBitDurations 1000 e τ true b (by decide)
  have level := late.isLow_channel (τ := τ) (by omega) (by omega)
  rw [stop (by omega) (by omega)] at level
  simpa [isLow] using level

end

/-- The events of the timed search that comes, after `k` high samples, to the third low one and confirms with it, in the
reference timing model from time `b0` on (R65, R101). -/
def lateSearchEvents (c0 b0 k : Nat) (channel : Nat → Half) : List Event :=
  .now (BitVec.ofNat 32 (pollClock c0 b0 0)) ::
    ((List.range' 0 (k + 2)).flatMap fun j => roundEvents 250 (channel (b0 + 250 * j)) (pollClock c0 b0 j)) ++
    [.sample (channel (b0 + 250 * (k + 2)))]

theorem followsReference_lateSearch (c0 b0 k : Nat) (channel : Nat → Half) (rest : List Event) :
    followsReference c0 (some channel) b0 (lateSearchEvents c0 b0 k channel ++ rest) =
      followsReference c0 (some channel) (b0 + 250 * (k + 2)) rest := by
  have polls := followsReference_polls c0 b0 0 (k + 2) channel (.sample (channel (b0 + 250 * (k + 2))) :: rest)
  rw [Nat.mul_zero, Nat.add_zero, Nat.zero_add] at polls
  have entry : pollClock c0 b0 0 = c0 + b0 / 1000 := rfl
  simp only [lateSearchEvents, entry, followsReference, List.cons_append, List.append_assoc, List.nil_append,
    decide_true, Bool.true_and, polls, channelAllows_some]

/-- A timed search of RXBYTE that is one bit late confirms the start bit with the third low sample (R101, R108). -/
theorem LateStart.steps_search {s : State} (run : s.Undisturbed .rxbyte) (single : s.spb.toNat = 1)
    (timed : s.eng.a0.toNat ≠ 0) (polldly : s.polldly.toNat = 250) (need : s.eng.need = 3) {hi lo : Half} {b : Byte}
    {e b0 k c0 : Nat} {channel : Nat → Half} (late : LateStart s.thresh hi lo b e b0 k channel)
    (t0 : s.eng.t0 = BitVec.ofNat 32 (pollClock c0 b0 0))
    (inTime : pollClock c0 b0 (k + 1) - pollClock c0 b0 0 ≤ s.eng.a0.toNat) (samples : List Half) (clocks : List Nat)
    (n : Nat) :
    steps (3 * (k + 2) + (n + 1)) ((s.atClock (pollClock c0 b0 0)).searching (.rxbyte (.search (.sampling .read)))
        [.now (BitVec.ofNat 32 (pollClock c0 b0 0))]
        ((List.range' 0 (k + 2)).map (fun j => channel (b0 + 250 * j)) ++ channel (b0 + 250 * (k + 2)) :: samples)
        ((List.range' 0 (k + 2)).map (fun j => pollClock c0 b0 j - pollClock c0 b0 (j - 1)) ++ clocks) 0) =
      steps n (State.inPhase .startDetected ((s.atClock (pollClock c0 b0 (k + 1))).searching
        (.rxbyte (.search .alignWait)) (lateSearchEvents c0 b0 k channel) samples clocks 3)) := by
  have third : isLow s.thresh (channel (b0 + 250 * (k + 2))) = true := (late.polls (by omega)).trans (by simp)
  have polls := run.steps_polls .rxbyte single timed need (fun j hj => late.polls (by omega)) (pollClock_mono c0 b0) t0
    inTime (channel (b0 + 250 * (k + 2)) :: samples) clocks (Nat.zero_add (k + 2))
    [.now (BitVec.ofNat 32 (pollClock c0 b0 0))] (n + 1)
  have confirm (es : List Event) := (run.atClock (pollClock c0 b0 (k + 1))).steps_confirmingSample .rxbyte single es
    samples clocks 2 n third (by exact need.le)
  rw [Nat.zero_sub, Nat.zero_sub, polldly] at polls
  exact polls.trans (confirm _)

/-- The clock's advances of the search, as the statement lists them. -/
theorem lateAdvances_eq (c0 b0 k : Nat) (rest : List Nat) :
    0 :: ((List.range (k + 1)).map (fun j => (b0 + 250 * (j + 1)) / 1000 - (b0 + 250 * j) / 1000) ++ rest) =
      (List.range' 0 (k + 2)).map (fun j => pollClock c0 b0 j - pollClock c0 b0 (j - 1)) ++ rest := by
  simp [pollClock, ← List.range_eq_range', List.range_succ_eq_map (n := k + 1), Function.comp_def,
    Nat.add_sub_add_left]

/-- The samples of the search, as the statement lists them. -/
theorem lateSamples_eq (b0 k : Nat) (channel : Nat → Half) (rest : List Half) :
    (List.range (k + 3)).map (fun j => channel (b0 + 250 * j)) ++ rest =
      (List.range' 0 (k + 2)).map (fun j => channel (b0 + 250 * j)) ++ channel (b0 + 250 * (k + 2)) :: rest := by
  rw [List.range_succ, List.range_eq_range', List.map_append, List.append_assoc]
  rfl

/-- The samples after the search, as the statement lists them, are those of a start bit confirmed with the third low
sample (R108). -/
theorem lateBits_eq (b0 k : Nat) (channel : Nat → Half) (rest : List Half) :
    (List.range 9).map (fun i => channel (b0 + 250 * k + 2000 + i * 1000)) ++ rest =
      bitSamples channel (b0 + 250 * (k + 2)) 1000 ++
        channel (b0 + 250 * (k + 2) + 1000 / 2 + 1000 + 8 * 1000) :: rest := by
  have time : b0 + 250 * (k + 2) + 1000 / 2 + 1000 = b0 + 250 * k + 2000 := by omega
  rw [bitSamples, time, List.range_succ, List.map_append, List.append_assoc]
  rfl

/-- Settles O41: the search confirms with the third low sample, half a bit into the start bit; from there the data
samples fall on data bits 1 to 7 and the stop bit, and the stop sample on the gap. -/
theorem timedReceptionReadsOneBitLate : Obligations.TimedReceptionReadsOneBitLate := by
  intro s b hi lo e b0 k a1 c0 d channel more clocks idle turn present bitdur polldly single nonzero low high line first
    begun recent inTime samples clock clockSteps
  subst first
  rw [lateSamples_eq, lateBits_eq] at samples
  rw [lateAdvances_eq c0] at clockSteps
  have late : LateStart s.thresh hi lo b e b0 k channel := ⟨low, high, line, begun, recent⟩
  let data := bitSamples channel (b0 + 250 * (k + 2)) 1000
  let stop := channel (b0 + 250 * (k + 2) + 1000 / 2 + 1000 + 8 * 1000)
  let issued := State.issued .rxbyte { s with agenda := [] }
  let entered := issued.searchEntered 3 (BitVec.ofNat 32 (pollClock c0 b0 0))
  have runIssued : issued.Undisturbed .rxbyte := ⟨rfl, rfl, rfl⟩
  have runEntered : entered.Undisturbed .rxbyte := ⟨rfl, rfl, rfl⟩
  have timed : s.arg0.toNat ≠ 0 := toNat_ne_zero nonzero
  have early : pollClock c0 b0 (k + 1) - pollClock c0 b0 0 ≤ s.arg0.toNat := by
    simp only [pollClock]
    omega
  have enter := runIssued.steps_entry .rxbyte single timed clockSteps clock (3 * (k + 2) + 22)
  have search := late.steps_search runEntered single timed polldly rfl rfl early (data ++ stop :: more) clocks 21
  have receive := State.Undisturbed.steps_rxbyte_decoded (s := State.inPhase .startDetected
    ((entered.atClock (pollClock c0 b0 (k + 1))).searching (.rxbyte (.search .alignWait))
      (lateSearchEvents c0 b0 k channel) (data ++ stop :: more) clocks 3))
    ⟨rfl, rfl, rfl⟩ single rfl rfl (by simp [data, bitSamples]) late.reads late.stopSample
  rw [← samples] at search
  refine ⟨_, lateSearchEvents c0 b0 k channel ++ (receptionEvents 1000 data stop ++ [.wait 500]),
    (steps_succ (step_issue_rxbyte idle turn present) _).trans (enter.trans (search.trans receive)), rfl, rfl, ?_, ?_,
    rfl, rfl⟩
  · show s.events ++ lateSearchEvents c0 b0 k channel ++ receptionEvents s.bitdur.toNat data stop ++
      [.wait (s.bitdur.toNat / 2)] = _
    simp [bitdur]
  · rw [followsReference_lateSearch]
    exact followsReference_reception c0 _ 1000 500 channel

end Sys2Proof.Machine

/-! The statement of the exceptions family: nothing traps (R122). A turn meets no obstacle but a busy engine whose
latched opcode names no command, and the invariant leaves out that state. -/

namespace Sys2Proof.Machine

/-! ### O57: every turn is an ordinary next state -/

/-- No command's atomic step faults or refuses, wherever the engine stands. -/
theorem exists_exec_next (i : Instr) (s : State) : ∃ t, exec i s = .next t := by
  obtain first | later := exec_cases i s
  · exact ⟨_, first⟩
  · exact ⟨_, later⟩

/-- Only an engine that is busy with no legal opcode has no move (log 20). -/
theorem nextMove_stray {s : State} (h : nextMove s = .stray) :
    s.status.busy = true ∧ decodeOpcode s.eng.op = none := by
  have engine (u : State) (hu : engineMove u = .stray) : u.status.busy = true ∧ decodeOpcode u.eng.op = none := by
    obtain ⟨-, hm⟩ | ⟨-, i, -, hm⟩ | ⟨hb, hd, -⟩ := engineMove_cases u
    · cases hm.symm.trans hu
    · cases hm.symm.trans hu
    · exact ⟨hb, hd⟩
  simp only [nextMove] at h
  split at h
  case h_1 => exact engine _ h
  case h_2 rest _ => exact engine { s with agenda := rest } h
  case h_3 =>
    simp only [accessMove] at h
    split at h <;> cases h
  case h_4 => cases h
  case h_5 => cases h

/-- A running command is one of the eleven, so the invariant leaves out the one state that faults (R72, log 20). -/
theorem State.Inv.nextMove_ne_stray {s : State} (inv : s.Inv) : nextMove s ≠ .stray := by
  intro stray
  obtain ⟨busy, illegal⟩ := nextMove_stray stray
  obtain ⟨i, legal, -⟩ := inv.running busy
  cases illegal.symm.trans legal

/-- Settles O57: a settled turn and a command's step both answer a next state, and the invariant admits no other
move. -/
theorem nothingTraps : Obligations.NothingTraps := by
  intro s inv
  cases move : nextMove s with
  | settled t => exact ⟨t, by simp only [step, move]⟩
  | run i u =>
    obtain ⟨t, meaning⟩ := exists_exec_next i u
    exact ⟨t, by simp only [step, move, meaning]⟩
  | stray => exact absurd move inv.nextMove_ne_stray

end Sys2Proof.Machine

/-! The statement of the reset family: a reset turn, whatever runs, leaves the reset values (R130, R131). They are
those of O17, which the parameters of the instance do not enter but for THRESH. -/

namespace Sys2Proof.Machine

/-! ### O16: the reset turn -/

/-- A reset turn is settled whatever the engine does: a running command gets no step of its own (R131). -/
theorem step_reset {s : State} {rest : List Turn} (turn : s.agenda = .reset :: rest) :
    step s = .next (resetMachine { s with agenda := rest }) := by
  simp only [step, nextMove, turn]

/-- The registers, the line, the phase and the stop request after a reset in any state (R38, R130). -/
theorem resetMachine_values (s : State) :
    (resetMachine s).cmd = 0 ∧ (resetMachine s).arg0 = 0 ∧ (resetMachine s).arg1 = 0 ∧
    (resetMachine s).status.word = 0 ∧ (resetMachine s).result = 0 ∧ (resetMachine s).msglen.word = 0 ∧
    (resetMachine s).bitdur = 1000 ∧ (resetMachine s).thresh = s.params.threshReset ∧ (resetMachine s).spb = 1 ∧
    (resetMachine s).spacing = 500 ∧ (resetMachine s).polldly = 250 ∧ (resetMachine s).txLevel = true ∧
    (resetMachine s).eng.phase = .idle ∧ (resetMachine s).eng.stopReq = false := by
  obtain ⟨cmd, arg0, arg1, status, result, msglen, bitdur, spb, spacing, polldly, line, -, phase, stop, -⟩ :=
    resetStateValues
  exact ⟨cmd, arg0, arg1, status, result, msglen, bitdur, rfl, spb, spacing, polldly, line, phase, stop⟩

/-- After a reset no buffer byte has been written: each is the free value of this reset (R34, R38; log 13). -/
theorem readByte_resetMachine (s : State) (a : Nat) :
    readByte (resetMachine s) a = Config.freeByte (resetMachine s).epoch a := rfl

/-- Settles O16: the reset turn is one step, to the reset values, with what is not the LLSE's kept. -/
theorem resetTurnRestoresResetValues : Obligations.ResetTurnRestoresResetValues := by
  intro s rest turn
  obtain ⟨params, env, agenda, events, reads, -⟩ := resetMachine_outside { s with agenda := rest }
  obtain ⟨cmd, arg0, arg1, status, result, msglen, bitdur, thresh, spb, spacing, polldly, line, phase, stop⟩ :=
    resetMachine_values { s with agenda := rest }
  exact ⟨_, step_reset turn, events, env, reads, agenda, params, cmd, arg0, arg1, status, result, msglen, bitdur,
    thresh, spb, spacing, polldly, line, phase, stop, readByte_resetMachine _⟩

end Sys2Proof.Machine
